-- ==== Sys2Proof/Word.lean ====
section
/-! DEFINITION. The widths of the hardware's values (00_scope.md R8, R9; 10_state.md R20 to R29). -/

namespace Sys2Proof

/-- A command word, a CSR value, a count (`CNT_W` = 32, R9, R20, R36). -/
abbrev Word := BitVec 32

/-- One unit of the uncompressed stream (`WORD_BITS` = 8, R8). -/
abbrev Byte := BitVec 8

/-- A node weight (`WGT_W` = 41, R9, R22). -/
abbrev Weight := BitVec 41

/-- A node index or `NIL` (`IDX_W` = 10, R9, R22). -/
abbrev NodeIx := BitVec 10

/-- The symbol field of a leaf (`SYM_BITS` = 9, R8): 0 to 256 are symbols, 257 to 511 are not (R77). -/
abbrev Sym := BitVec 9

/-- The index that addresses nothing and means "absent" (R22). -/
abbrev nil : NodeIx := 0x3FF

/-- The symbol that ends the data (`PSEUDO_EOF`, R8). -/
abbrev pseudoEof : Sym := 256

/-- The `value` of an internal node (R22). -/
abbrev internalValue : Sym := 0x1FF

end Sys2Proof
end

