-- ==== Sys2Proof/Machine/Bits.lean ====
section
/-! DEFINITION. Bit strings in stream order, first bit first (00_scope.md R10; 20_memory.md R59, R60). -/

namespace Sys2Proof

/-- `bin_n(v)`: the `n` bits of `v`, most significant bit first (R10). -/
def binBits {n : Nat} (v : BitVec n) : List Bool :=
  (List.range n).map fun i => v.getMsbD i

/-- The unsigned integer a bit string writes, its first bit the most significant (R10). -/
def bitsVal (bits : List Bool) : Nat :=
  bits.foldl (fun acc b => 2 * acc + b.toNat) 0

/-- The `n`-bit value a string of `n` bits writes: `binBits` backwards. -/
def ofBits (n : Nat) (bits : List Bool) : BitVec n :=
  BitVec.ofNat n (bitsVal bits)

/-- The stream bits of a sequence of bytes: stream bit `8k` is bit 7 of byte `k` (R60, D20). -/
def bitsOfBytes (bytes : List Byte) : List Bool :=
  bytes.flatMap binBits

end Sys2Proof
end

