-- ==== Sys2Proof/Config.lean ====
section
/-! DEFINITION. What an implementation fixes (00_scope.md R8, R9) and the free values: constants without a body,
so that nothing can be proved of what they are. -/

namespace Sys2Proof.Config

/-- `NSYM`: symbols, and entries of `CT` and `CODE` (R8). -/
abbrev nsym : Nat := 257

/-- `NODE_CAP`: records of the node arena (R9). -/
abbrev nodeCap : Nat := 513

/-- `CNT_W` (R9). -/
abbrev cntW : Nat := 32

/-- `WGT_W` (R9). -/
abbrev wgtW : Nat := 41

/-- `MAX_CODE_LEN` (R9). -/
abbrev maxCodeLen : Nat := 256

/-- `SYM_BITS` (R8). -/
abbrev symBits : Nat := 9

/-- `WORD_BITS` (R8). -/
abbrev wordBits : Nat := 8

/-- `MAGIC_TREE` of the instance that `State.reset` describes: OPEN in the spec (R9, D16; log entry 1). -/
opaque magicTree : Word

/-- `IO_CAN_FAIL` of the instance that `State.reset` describes: OPEN in the spec (R9, R58, D19; log entry 1). -/
opaque ioCanFail : Bool

/-- What a host read of an unspecified table word or register returns (R43, R47; log entry 6). -/
opaque freeWord : Nat → Word

/-- Where the source stands after a call it answered `IOERR` (R53, R55; log entry 9). -/
opaque freePos : Nat → Nat

/-- How many bits of a write answered `IOERR` reached the sink (R56; log entry 9). -/
opaque freeCount : Nat → Nat

/-- Whether a port call in flight when reset is asserted takes effect (R211; log entry 10). -/
opaque freeHappened : Nat → Bool

end Sys2Proof.Config
end

