-- ==== Sys2Proof/Syntax.lean ====
section
/-! DEFINITION. The instructions: one constructor per row of spec/opcode_table.json. -/

namespace Sys2Proof

/-- The 24 rows of the opcode table (30_encoding.md R71, R72, R74 to R82, R85). -/
inductive Instr where
  /-- COUNT, `OP` = 1 (R100). -/
  | count
  /-- BUILD, `OP` = 2 (R110). -/
  | build
  /-- GENCODES, `OP` = 3 (R120). -/
  | gencodes
  /-- WRMAGIC, `OP` = 4 (R130). -/
  | wrmagic
  /-- WRTREE, `OP` = 5 (R132). -/
  | wrtree
  /-- REWIND, `OP` = 6 (R172). -/
  | rewind
  /-- ENCODE, `OP` = 7 (R150). -/
  | encode
  /-- RDMAGIC, `OP` = 8 (R135). -/
  | rdmagic
  /-- RDTREE, `OP` = 9 (R138). -/
  | rdtree
  /-- DECODE, `OP` = 10 (R160). -/
  | decode
  /-- CLEAR, `OP` = 11 (R174). -/
  | clear
  /-- Reserved opcode 0 (R72). -/
  | illegal0
  /-- Reserved opcode 12 (R72). -/
  | illegal12
  /-- Reserved opcode 13 (R72). -/
  | illegal13
  /-- Reserved opcode 14 (R72). -/
  | illegal14
  /-- Reserved opcode 15 (R72). -/
  | illegal15
  /-- The pseudo-instruction COMPRESS (R85, R178). -/
  | compress
  /-- The pseudo-instruction DECOMPRESS (R85, R179). -/
  | decompress
  /-- The magic number of a stream (R74). -/
  | streamMagic
  /-- The header token of an internal node (R75). -/
  | streamHeaderInternal
  /-- The header token of a leaf (R76). -/
  | streamHeaderLeaf (value : Sym)
  /-- The code of one word in the body, first branch first (R79). -/
  | streamBodyCode (code : List Bool)
  /-- The code of the pseudo-EOF, which ends the body (R79). -/
  | streamBodyPseudoEof (code : List Bool)
  /-- One word of the uncompressed stream (R82). -/
  | streamWord (word : Byte)
  deriving DecidableEq, Repr

end Sys2Proof
end

