-- ==== Sys2Proof/Machine/State.lean ====
section
/-! DEFINITION. The machine's state as plain data, its reset value, and the reasons a step can stop. -/

namespace Sys2Proof.Machine

/-- One record of the node arena (10_state.md R22). -/
structure Node where
  /-- 1 for a leaf, 0 for an internal node. -/
  leaf : Bool
  /-- The symbol of a leaf; 0x1FF in an internal node. -/
  value : Sym
  weight : Weight
  left : NodeIx
  right : NodeIx
  deriving DecidableEq, Repr

/-- One entry of the code table (10_state.md R27). -/
structure Code where
  /-- The number of bits of the code; 0 means "no code". -/
  len : BitVec 9
  /-- The code right-justified: bit `len - 1` is the first branch. -/
  bits : BitVec 256
  deriving DecidableEq, Repr

/-- The error register `ERR` (10_state.md R32). -/
structure ErrReg where
  kind : BitVec 4
  sub : BitVec 4
  info : BitVec 10
  deriving DecidableEq, Repr

/-- The sequencer state `STATE` (10_state.md R30); the value 3 is never taken. -/
inductive Seq where
  | idle
  | busy
  | error
  deriving DecidableEq, Repr

/-- A call of a stream port (20_memory.md R53, R55, R56). -/
inductive PortCall where
  /-- `SrcRead(n)`. -/
  | read (n : Nat)
  /-- `SrcRewind()`. -/
  | rewind
  /-- `SnkWrite(n, v)`, given as the bits in stream order. -/
  | write (bits : List Bool)
  deriving DecidableEq, Repr

/-- What the environment does with one port call (R58; 70_reset_and_hazards.md R216, R225). -/
inductive Draw where
  /-- It answers without an error. -/
  | answer
  /-- It answers `IOERR` (only where `IO_CAN_FAIL` is true; else as `answer`). -/
  | ioErr
  /-- It never answers. -/
  | silent
  deriving DecidableEq, Repr

/-- What the outside world does to the engine, one event a step (00_scope.md R7; log entry 3). -/
inductive HostEvent where
  /-- A read of a CSR (10_state.md R36). -/
  | read (num : BitVec 4)
  /-- A write of a CSR; a write to number 0 presents a command (R36, R37). -/
  | write (num : BitVec 4) (data : Word)
  /-- A program line by its mnemonic (30_encoding.md R84): the form in which a pseudo-instruction, which has no
  command word, is issued (R85). A stream element stands here only so that its meaning can be run by itself
  (log entry 7). -/
  | line (i : Instr)
  /-- `rst` is asserted (70_reset_and_hazards.md R210, R211). -/
  | reset
  /-- A source with these bits and an empty sink are attached (R50, R52, R175; log entry 3). -/
  | attach (bits : List Bool)
  deriving DecidableEq, Repr

/-- Everything the spec gives the machine, the environment's two streams included. -/
structure State where
  /-- The count table `CT` (R20). -/
  ct : Vector Word 257
  /-- The node arena `NODE` (R22). -/
  node : Vector Node 513
  /-- `ROOT` (R23). -/
  root : NodeIx
  /-- `NNODES` (R23). -/
  nnodes : BitVec 10
  /-- The code table `CODE` (R27). -/
  code : Vector Code 257
  /-- `CUR` (R29). -/
  cur : NodeIx
  /-- `STATE` (R30). -/
  seq : Seq
  /-- `DONE` (R31). -/
  done : Bool
  /-- `ERR` (R32). -/
  err : ErrReg
  /-- `TREE_VALID` (R33). -/
  treeValid : Bool
  /-- `CODES_VALID` (R34). -/
  codesValid : Bool
  /-- `TSEL`, its used bits 15:0 (R36). -/
  tsel : BitVec 16
  /-- The port call the engine waits on, if it waits on one (R211, R216). -/
  inFlight : Option PortCall
  /-- The parameter `MAGIC_TREE` of this instance (R9, R40; log entry 1). -/
  magicTree : Word
  /-- The parameter `IO_CAN_FAIL` of this instance (R9, R58; log entry 1). -/
  ioCanFail : Bool
  /-- `SRC.bits`, first bit first (R51). -/
  srcBits : List Bool
  /-- `SRC.pos` (R51). -/
  srcPos : Nat
  /-- `SNK.bits`, first bit first (R52). -/
  snkBits : List Bool
  /-- What the environment does with the next port calls; calls past its end are answered (R58; log entry 5). -/
  draws : List Draw
  /-- The host's pending events, first first (R7, R84; log entry 3). -/
  host : List HostEvent
  /-- `csr_rdata`: the answer of the last CSR read (R215), kept until the next one (DESIGN CHOICE, log entry 3). -/
  rdata : Word
  /-- MODEL'S OWN: how many free values have been drawn (log entry 6). -/
  freeIx : Nat
  deriving DecidableEq, Repr

/-- Why the machine stops. Every one is safe and raised only in a state with `TREE_VALID = 1` that breaks the
tree invariants 10_state.md R24 derives (log entry 8). -/
inductive Fault where
  /-- GENCODES, WRTREE or DECODE addressed a record that is not one of `NODE[0..NNODES-1]`. Safe. -/
  | nodeOutsideTree
  /-- GENCODES or WRTREE walked deeper than the tree has records: the records form a cycle. Safe. -/
  | endlessWalk
  /-- GENCODES reached a leaf whose value, above 256, names no entry of `CODE`. Safe. -/
  | symbolOutOfRange
  deriving DecidableEq, Repr

/-- Why an instruction has no meaning. -/
inductive Refusal where
  /-- Raised by an arm of `exec` whose instruction has no meaning yet: none has. Safe. -/
  | notModelled (mnemonic : String)
  deriving DecidableEq, Repr

namespace State

/-- `STATE` and `DONE` written together. -/
def withSeq (s : State) (q : Seq) (d : Bool) : State := { s with seq := q, done := d }

/-- `ERR` written. -/
def withErr (s : State) (e : ErrReg) : State := { s with err := e }

/-- `CT` written. -/
def withCt (s : State) (ct : Vector Word 257) : State := { s with ct := ct }

/-- `NODE`, `ROOT` and `NNODES` written. -/
def withTree (s : State) (node : Vector Node 513) (root : NodeIx) (nnodes : BitVec 10) : State :=
  { s with node := node, root := root, nnodes := nnodes }

/-- `TREE_VALID` and `CODES_VALID` written. -/
def withValid (s : State) (tree codes : Bool) : State := { s with treeValid := tree, codesValid := codes }

/-- `CODE` written. -/
def withCode (s : State) (code : Vector Code 257) : State := { s with code := code }

/-- `CUR` written. -/
def withCur (s : State) (cur : NodeIx) : State := { s with cur := cur }

/-- `TSEL` written. -/
def withTsel (s : State) (v : BitVec 16) : State := { s with tsel := v }

/-- The outstanding port call written. -/
def withInFlight (s : State) (c : Option PortCall) : State := { s with inFlight := c }

/-- `SRC.pos` written. -/
def withSrcPos (s : State) (pos : Nat) : State := { s with srcPos := pos }

/-- `SNK.bits` written. -/
def withSnk (s : State) (bits : List Bool) : State := { s with snkBits := bits }

/-- The environment's pending answers written. -/
def withDraws (s : State) (ds : List Draw) : State := { s with draws := ds }

/-- The counter of free values written. -/
def withFree (s : State) (n : Nat) : State := { s with freeIx := n }

/-- The host's pending events written. -/
def withHost (s : State) (es : List HostEvent) : State := { s with host := es }

/-- `csr_rdata` written. -/
def withRdata (s : State) (v : Word) : State := { s with rdata := v }

/-- A source at its first bit and an empty sink attached. -/
def withStreams (s : State) (bits : List Bool) : State :=
  { s with srcBits := bits, srcPos := 0, snkBits := [] }

/-- What fills `NODE` at reset, where the spec says unspecified (R47; log entry 2). -/
abbrev blankNode : Node := ⟨false, 0, 0, 0, 0⟩

/-- What fills `CODE` at reset, where the spec says unspecified (R47; log entry 2). -/
abbrev blankCode : Code := ⟨0, 0⟩

/-- The machine right after reset (10_state.md R47, 70_reset_and_hazards.md R210), no stream and no host event
attached yet (log entries 1 to 6 name every value the spec does not give). -/
def reset : State where
  ct := Vector.replicate 257 0
  node := Vector.replicate 513 blankNode
  root := nil
  nnodes := 0
  code := Vector.replicate 257 blankCode
  cur := nil
  seq := .idle
  done := false
  err := ⟨0, 0, 0⟩
  treeValid := false
  codesValid := false
  tsel := 0
  inFlight := none
  magicTree := Config.magicTree
  ioCanFail := Config.ioCanFail
  srcBits := []
  srcPos := 0
  snkBits := []
  draws := []
  host := []
  rdata := 0
  freeIx := 0

end State

end Sys2Proof.Machine
end

