-- ==== Sys2Proof/Machine/Operands.lean ====
section
/-! DEFINITION. The operand forms: every command's operands are implicit, an entry of a table or a field of a
register (30_encoding.md R70; 10_state.md R20 to R29, R41, R42). -/

namespace Sys2Proof.Machine

/-- `CT[v]` (R20); 0 past the table's end, which no rule reads. -/
def ctAt (ct : Vector Word 257) (v : Nat) : Word := ct[v]?.getD 0

/-- `CT[v] <- w` (R20). -/
def ctSet (ct : Vector Word 257) (v : Nat) (w : Word) : Vector Word 257 := ct.setIfInBounds v w

/-- `NODE[k] <- n` (R22). -/
def nodeSet (node : Vector Node 513) (k : NodeIx) (n : Node) : Vector Node 513 := node.setIfInBounds k.toNat n

/-- `NODE[k]` where `k` is a record of the tree, `k < NNODES` (R23); the other records are unused, and `NIL`
addresses nothing (R22). -/
def nodeAt (s : State) (k : NodeIx) : Option Node :=
  if k < s.nnodes then s.node[k.toNat]? else none

/-- `CODE[v] <- c` (R27). -/
def codeSet (code : Vector Code 257) (v : Nat) (c : Code) : Vector Code 257 := code.setIfInBounds v c

/-- `CODE[v]` (R27); "no code" past the table's end, which no rule reads. -/
def codeAt (code : Vector Code 257) (v : Nat) : Code := code[v]?.getD ⟨0, 0⟩

/-- The record of a leaf (R22, R110, R138). -/
def leafNode (v : Sym) (w : Weight) : Node := ⟨true, v, w, nil, nil⟩

/-- The record of an internal node (R22, R110, R138). -/
def internalNode (w : Weight) (left right : NodeIx) : Node := ⟨false, internalValue, w, left, right⟩

/-- The register image of a path, first branch the most significant of its `len` bits (42_code_table_gen.md
R121). -/
def codeOfPath (path : List Bool) : Code := ⟨BitVec.ofNat 9 path.length, ofBits 256 path⟩

/-- `code(s)`: the bit string of an entry, first branch first (R27): `bin_len(bits[len-1:0])`. -/
def Code.path (c : Code) : List Bool :=
  (List.range c.len.toNat).map fun j => c.bits.getLsbD (c.len.toNat - 1 - j)

/-- `TSEL.TBL` (R36). -/
def tselTbl (s : State) : BitVec 2 := s.tsel.extractLsb' 0 2

/-- `TSEL.IDX` (R36). -/
def tselIdx (s : State) : BitVec 10 := s.tsel.extractLsb' 2 10

/-- `TSEL.WORD` (R36). -/
def tselWord (s : State) : BitVec 4 := s.tsel.extractLsb' 12 4

/-- Word 0 to 2 of a node record through the window (R42). -/
def nodeWord (n : Node) (word : Nat) : Word :=
  match word with
  | 0 => n.weight.extractLsb' 0 32
  | 1 => (n.weight.extractLsb' 32 9).setWidth 32
  | _ => 0#2 ++ BitVec.ofBool n.leaf ++ n.value ++ n.left ++ n.right

/-- Word 0 to 8 of a code entry through the window (R42). -/
def codeWord (c : Code) (word : Nat) : Word :=
  match word with
  | 0 => c.len.setWidth 32
  | j + 1 => c.bits.extractLsb' (32 * j) 32

/-- What a word of the window holds: a value, or nothing the spec specifies. -/
inductive Contents where
  | value (w : Word)
  | unspecified
  deriving DecidableEq, Repr

/-- The word `TSEL` selects (R41, R42). A selection that names no word reads as 0; a `NODE` word while
`TREE_VALID = 0` (or of a record the tree does not use) and a `CODE` word while `CODES_VALID = 0` are
unspecified (R47; log entry 6). -/
def windowWord (s : State) : Contents :=
  let idx := (tselIdx s).toNat
  let word := (tselWord s).toNat
  match (tselTbl s).toNat with
  | 0 => if idx ≤ 256 ∧ word = 0 then .value (ctAt s.ct idx) else .value 0
  | 1 =>
    if idx ≤ 512 ∧ word ≤ 2 then
      if s.treeValid then
        match nodeAt s (tselIdx s) with
        | some n => .value (nodeWord n word)
        | none => .unspecified
      else .unspecified
    else .value 0
  | 2 =>
    if idx ≤ 256 ∧ word ≤ 8 then
      if s.codesValid then .value (codeWord (codeAt s.code idx) word) else .unspecified
    else .value 0
  | _ => .value 0

end Sys2Proof.Machine
end

