-- ==== Sys2Proof/Machine/Flags.lean ====
section
/-! DEFINITION. The flags and the registers that show them: `STATUS`, `ERR`, the error codes, the parameter
registers, the level outputs. There are no arithmetic condition codes (10_state.md R35). -/

namespace Sys2Proof.Machine

/-- The code of a `STATE` value (R30). -/
def Seq.bits : Seq → BitVec 2
  | .idle => 0
  | .busy => 1
  | .error => 2

/-- `STATUS`: `STATE`, `DONE`, `TREE_VALID`, `CODES_VALID` in bits 1:0, 2, 3, 4 (R36, R38). -/
def statusWord (s : State) : Word :=
  0#27 ++ BitVec.ofBool s.codesValid ++ BitVec.ofBool s.treeValid ++ BitVec.ofBool s.done ++ s.seq.bits

/-- `ERR`: `KIND`, `SUB`, `INFO` in bits 3:0, 7:4, 17:8 (R36, R39). -/
def errWord (s : State) : Word :=
  0#14 ++ s.err.info ++ s.err.sub ++ s.err.kind

/-- `PARAM0`: `CNT_W`, `WGT_W`, `NODE_CAP` in bits 5:0, 13:8, 25:16 (R36, R40). -/
def param0 : Word :=
  0#6 ++ BitVec.ofNat 10 Config.nodeCap ++ 0#2 ++ BitVec.ofNat 6 Config.wgtW ++ 0#2 ++ BitVec.ofNat 6 Config.cntW

/-- `PARAM1`: `NSYM`, `MAX_CODE_LEN`, `SYM_BITS`, `WORD_BITS` in bits 8:0, 17:9, 21:18, 25:22 (R36, R40). -/
def param1 : Word :=
  0#6 ++ BitVec.ofNat 4 Config.wordBits ++ BitVec.ofNat 4 Config.symBits ++ BitVec.ofNat 9 Config.maxCodeLen ++
    BitVec.ofNat 9 Config.nsym

/-- The output `busy` (70_reset_and_hazards.md R215). -/
def busyOut (s : State) : Bool := decide (s.seq = .busy)

/-- The output `done` (60_exceptions.md R196). -/
def doneOut (s : State) : Bool := s.done

/-- The output `err` (60_exceptions.md R196). -/
def errOut (s : State) : Bool := decide (s.seq = .error)

/-- The error kinds (60_exceptions.md R180). -/
inductive ErrKind where
  | format
  | truncatedInput
  | corruptTree
  | io
  | countOverflow
  | noCode
  | sequence
  | illegalCommand
  deriving DecidableEq, Repr

/-- `KIND` codes (R180). -/
def ErrKind.code : ErrKind → BitVec 4
  | .format => 1
  | .truncatedInput => 2
  | .corruptTree => 3
  | .io => 4
  | .countOverflow => 5
  | .noCode => 6
  | .sequence => 7
  | .illegalCommand => 8

/-- An error as `raise K(sub, info)` gives it (R190), with the sub-codes of R181. -/
structure Err where
  kind : ErrKind
  sub : BitVec 4
  info : BitVec 10
  deriving DecidableEq, Repr

/-- The register image of an error (R32, R180). -/
def Err.reg (e : Err) : ErrReg := ⟨e.kind.code, e.sub, e.info⟩

/-- `FormatError(MISMATCH)` (R181, R182). -/
def magicMismatch : Err := ⟨.format, 1, 0⟩

/-- `FormatError(ABSENT)` (R181, R182). -/
def magicAbsent : Err := ⟨.format, 2, 0⟩

/-- `TruncatedInputError(HDR_TAG)` (R181, R183). -/
def headerTagMissing : Err := ⟨.truncatedInput, 1, 0⟩

/-- `TruncatedInputError(HDR_SYM)` (R181, R183). -/
def headerSymMissing : Err := ⟨.truncatedInput, 2, 0⟩

/-- `TruncatedInputError(BODY)` (R181, R183). -/
def bodyMissing : Err := ⟨.truncatedInput, 3, 0⟩

/-- `CorruptTreeError(ARENA)` (R181, R185). -/
def arenaFull : Err := ⟨.corruptTree, 1, 0⟩

/-- `CorruptTreeError(SYMRANGE, v)` (R181, R185). -/
def symbolReserved (v : Sym) : Err := ⟨.corruptTree, 2, v.setWidth 10⟩

/-- `CorruptTreeError(ROOTLEAF, v)` (R181, R185). -/
def rootIsLeaf (v : Sym) : Err := ⟨.corruptTree, 3, v.setWidth 10⟩

/-- `IoError(READ)` (R181, R184). -/
def readFailed : Err := ⟨.io, 1, 0⟩

/-- `IoError(WRITE)` (R181, R184). -/
def writeFailed : Err := ⟨.io, 2, 0⟩

/-- `IoError(REWIND)` (R181, R184). -/
def rewindFailed : Err := ⟨.io, 3, 0⟩

/-- `CountOverflowError(0, w)` (R180, R188). -/
def countFull (w : Byte) : Err := ⟨.countOverflow, 0, w.setWidth 10⟩

/-- `NoCodeError(0, s)` (R180, R188). -/
def noCodeFor (s : Sym) : Err := ⟨.noCode, 0, s.setWidth 10⟩

/-- `SequenceError(0, op)` (R180, R186). -/
def outOfSequence (op : BitVec 4) : Err := ⟨.sequence, 0, op.setWidth 10⟩

/-- `IllegalCommandError(0, op)` (R180, R187). -/
def illegalOpcode (op : BitVec 4) : Err := ⟨.illegalCommand, 0, op.setWidth 10⟩

end Sys2Proof.Machine
end

