-- ==== Sys2Proof/Machine/Ops.lean ====
section
/-! DEFINITION. The shared operations: the port primitives, raising an error and leaving the error state, running
a command (20_memory.md R53 to R58; 46_control.md R170; 60_exceptions.md R190, R195). -/

namespace Sys2Proof.Machine

/-- How the pseudocode of an operation ends, or how a part of it ends (00_scope.md R12). -/
inductive Res (α : Type) where
  /-- It runs to its end, with a result. -/
  | ok (a : α) (s : State)
  /-- `raise`: the operation ends here (R190). -/
  | raised (e : Err) (s : State)
  /-- A port call is never answered: the operation stays where it is (R225). -/
  | waits (c : PortCall) (s : State)
  /-- The tree breaks its invariants (log entry 8). -/
  | broken (f : Fault)
  deriving DecidableEq, Repr

/-- One statement after another (R12): what follows runs only if this part ended normally. -/
def Res.andThen {α β : Type} (r : Res α) (next : α → State → Res β) : Res β :=
  match r with
  | .ok a s => next a s
  | .raised e s => .raised e s
  | .waits c s => .waits c s
  | .broken f => .broken f

/-- The environment's choice for the next port call (R58): the first of the pending draws, `answer` when none is
left (log entry 5). `IOERR` is drawn only where `IO_CAN_FAIL` is true. -/
def takeDraw (s : State) : Draw × State :=
  match s.draws with
  | [] => (.answer, s)
  | .answer :: ds => (.answer, s.withDraws ds)
  | .ioErr :: ds => (if s.ioCanFail then .ioErr else .answer, s.withDraws ds)
  | .silent :: ds => (.silent, s.withDraws ds)

/-- What `SrcRead(n)` answers (R53). -/
inductive ReadAnswer (n : Nat) where
  | value (v : BitVec n)
  | endOfData
  | ioErr
  deriving DecidableEq, Repr

/-- What `SrcRewind()` and `SnkWrite(n, v)` answer (R55, R56). -/
inductive PortAnswer where
  | done
  | ioErr
  deriving DecidableEq, Repr

/-- The next `n` bits of the source, if as many are left (R53). -/
def srcNext (n : Nat) (s : State) : Option (List Bool) :=
  if s.srcPos + n ≤ s.srcBits.length then some ((s.srcBits.drop s.srcPos).take n) else none

/-- The source after an answered `SrcRead(n)`: past the bits read, or at its end on a short read (R53). -/
def srcAfterRead (n : Nat) (s : State) : State :=
  if s.srcPos + n ≤ s.srcBits.length then s.withSrcPos (s.srcPos + n) else s.withSrcPos s.srcBits.length

/-- The source after it answered `IOERR`: a position of 0 to `L` that nothing determines (R53, R55; log entry 9). -/
def srcAfterError (s : State) : State :=
  (s.withSrcPos (Config.freePos s.freeIx % (s.srcBits.length + 1))).withFree (s.freeIx + 1)

/-- `SrcRead(n)` (R53). -/
def srcRead (n : Nat) (s : State) : Res (ReadAnswer n) :=
  match takeDraw s with
  | (.silent, s) => .waits (.read n) s
  | (.ioErr, s) => .ok .ioErr (srcAfterError s)
  | (.answer, s) =>
    match srcNext n s with
    | some bits => .ok (.value (ofBits n bits)) (srcAfterRead n s)
    | none => .ok .endOfData (srcAfterRead n s)

/-- `SrcRewind()` (R55). -/
def srcRewind (s : State) : Res PortAnswer :=
  match takeDraw s with
  | (.silent, s) => .waits .rewind s
  | (.ioErr, s) => .ok .ioErr (srcAfterError s)
  | (.answer, s) => .ok .done (s.withSrcPos 0)

/-- The sink after a write of these bits (R56). -/
def snkAfterWrite (bits : List Bool) (s : State) : State := s.withSnk (s.snkBits ++ bits)

/-- The sink after it answered `IOERR`: how many of the bits reached it nothing determines (R56; log entry 9). -/
def snkAfterError (bits : List Bool) (s : State) : State :=
  (s.withSnk (s.snkBits ++ bits.take (Config.freeCount s.freeIx % (bits.length + 1)))).withFree (s.freeIx + 1)

/-- `SnkWrite(n, v)` (R56). -/
def snkWrite {n : Nat} (v : BitVec n) (s : State) : Res PortAnswer :=
  match takeDraw s with
  | (.silent, s) => .waits (.write (binBits v)) s
  | (.ioErr, s) => .ok .ioErr (snkAfterError (binBits v) s)
  | (.answer, s) => .ok .done (snkAfterWrite (binBits v) s)

/-- `SrcRead(n)`, then `raise IoError(READ)` on `IOERR` (R184), else what follows on end-of-data or on a value. -/
def readField {α : Type} (n : Nat) (onEnd : State → Res α) (onValue : BitVec n → State → Res α) (s : State) :
    Res α :=
  (srcRead n s).andThen fun a s =>
    match a with
    | .ioErr => .raised readFailed s
    | .endOfData => onEnd s
    | .value v => onValue v s

/-- `SnkWrite(n, v)`, then `raise IoError(WRITE)` on `IOERR` (R184). -/
def put {n : Nat} (v : BitVec n) (s : State) : Res Unit :=
  (snkWrite v s).andThen fun a s =>
    match a with
    | .ioErr => .raised writeFailed s
    | .done => .ok () s

/-- A bit string, one bit a call, first bit first (20_memory.md R57; 44_encoder.md R150, R151). -/
def putBits : List Bool → State → Res Unit
  | [], s => .ok () s
  | b :: bits, s => (put (BitVec.ofBool b) s).andThen fun _ s => putBits bits s

/-- `enter_error`: TAKING AN ERROR (46_control.md R170; 60_exceptions.md R190). `ERR` records it, `STATE` becomes
`ERROR`, `DONE` 0; nothing else is saved and control goes nowhere. -/
def enterError (e : Err) (s : State) : State := (s.withErr e.reg).withSeq .error false

/-- LEAVING THE ERROR STATE: what CLEAR and reset both discard (60_exceptions.md R195; 10_state.md R47). The
contents of `NODE` and `CODE` are left where they are, unspecified from now on (R175). -/
def discardTables (s : State) : State :=
  ((((s.withCt (Vector.replicate 257 0)).withValid false false).withTree s.node nil 0).withCur nil).withErr ⟨0, 0, 0⟩

/-- How an accepted operation ends: `IDLE` and `DONE` on success, `enter_error` on a `raise` (R170), `BUSY` for
as long as a port call is unanswered (R225). -/
def complete (r : Res Unit) : Host.Outcome State Fault Refusal :=
  match r with
  | .ok _ s => .next (s.withSeq .idle true)
  | .raised e s => .next (enterError e s)
  | .waits c s => .next (s.withInFlight (some c))
  | .broken f => .fault f

/-- Presenting command `op` to the sequencer, CLEAR apart (R170): ignored in `BUSY` and in `ERROR`; in `IDLE`
the precondition is tested, then the pseudocode runs with `STATE = BUSY`. -/
def runCommand (op : BitVec 4) (precondition : Bool) (body : State → Res Unit) (s : State) :
    Host.Outcome State Fault Refusal :=
  match s.seq with
  | .busy => .next s
  | .error => .next s
  | .idle =>
    if precondition then complete (body (s.withSeq .busy false))
    else .next (enterError (outOfSequence op) (s.withSeq .idle false))

/-- Presenting a reserved opcode (R72, R170, R187). -/
def runIllegal (op : BitVec 4) (s : State) : Host.Outcome State Fault Refusal :=
  match s.seq with
  | .busy => .next s
  | .error => .next s
  | .idle => .next (enterError (illegalOpcode op) (s.withSeq .idle false))

/-- The transfer of one stream element by itself (log entry 7): the sink calls of the operation that writes it,
with `STATE` and `DONE` as they stand on success and as the operation leaves them on an error or an unanswered
call. Outside `IDLE` the engine starts no transfer. -/
def runTransfer (body : State → Res Unit) (s : State) : Host.Outcome State Fault Refusal :=
  match s.seq with
  | .busy => .next s
  | .error => .next s
  | .idle =>
    match body s with
    | .ok _ s' => .next s'
    | .raised e s' => .next (enterError e s')
    | .waits c s' => .next ((s'.withSeq .busy false).withInFlight (some c))
    | .broken f => .fault f

/-- One command of a sequence after another (30_encoding.md R84): each starts in the state the one before left. -/
def thenRun (r : Host.Outcome State Fault Refusal) (next : State → Host.Outcome State Fault Refusal) :
    Host.Outcome State Fault Refusal :=
  match r with
  | .next s => next s
  | .fault f => .fault f
  | .refused f => .refused f

end Sys2Proof.Machine
end

