-- ==== Sys2Proof/Machine/Build.lean ====
section
/-! DEFINITION. BUILD, the Tree Builder: greedy weighted merge (41_tree_builder.md). -/

namespace Sys2Proof.Machine

/-- A node not yet merged, as the order sees it: its weight and its index. -/
abbrev Live := Weight × NodeIx

/-- `less`, with the tie-break: the pair (weight, index), lexicographic and ascending (R112). -/
def less (a b : Live) : Bool := decide (a.1 < b.1) || (decide (a.1 = b.1) && decide (a.2 < b.2))

/-- `live ∪ {x}`, the set `live` being held as the list of its members in ascending order of `less`: the least
element is its head. How the hardware holds it is not architectural (R44, R118). -/
def insertLive (x : Live) : List Live → List Live
  | [] => [x]
  | y :: ys => if less x y then x :: y :: ys else y :: insertLive x ys

/-- The leaf of symbol `i`, weight `CT[i]` zero-extended to 41 bits (R110, R111). -/
def buildLeaf (ct : Vector Word 257) (i : Nat) : Node := leafNode (BitVec.ofNat 9 i) ((ctAt ct i).setWidth 41)

/-- `NODE[0..256]`: every symbol's leaf (R110, R111). -/
def buildLeaves (ct : Vector Word 257) (node : Vector Node 513) : Vector Node 513 :=
  (List.range 257).foldl (fun node i => nodeSet node (BitVec.ofNat 10 i) (buildLeaf ct i)) node

/-- `live` before the first merge: all 257 leaves (R110). -/
def initialLive (ct : Vector Word 257) : List Live :=
  (List.range 257).foldr (fun i live => insertLive ((ctAt ct i).setWidth 41, BitVec.ofNat 10 i) live) []

/-- What BUILD's loop works on: the table, `live` and `next` (R44, R110). -/
structure Merging where
  node : Vector Node 513
  live : List Live
  next : NodeIx
  deriving DecidableEq, Repr

/-- BUILD's loop (R110, R113): while two nodes are live, the least becomes the left and the least of the rest the
right child of a new node. `fuel` bounds the passes; each makes `live` one shorter (R114, R228). -/
def mergeLoop : Nat → Merging → Merging
  | 0, m => m
  | fuel + 1, m =>
    match m.live with
    | a :: b :: rest =>
      mergeLoop fuel
        { node := nodeSet m.node m.next (internalNode (a.1 + b.1) a.2 b.2)
          live := insertLive (a.1 + b.1, m.next) rest
          next := m.next + 1 }
    | _ => m

/-- The index of the one element left in `live` (R110). -/
def lastLive : List Live → NodeIx
  | [x] => x.2
  | _ => nil

/-- BUILD's pseudocode (R110): the pseudo-EOF is counted once whatever `CT[256]` held (R21), then the leaves,
then the merges. -/
def buildBody (s : State) : Res Unit :=
  let ct := ctSet s.ct 256 1
  let m := mergeLoop 257 { node := buildLeaves ct s.node, live := initialLive ct, next := 257 }
  .ok () (((s.withCt ct).withTree m.node (lastLive m.live) m.next).withValid true false)

/-- BUILD (R110). -/
def execBuild (s : State) : Host.Outcome State Fault Refusal := runCommand 2 true buildBody s

end Sys2Proof.Machine
end

