-- ==== Sys2Proof/Machine/Stream.lean ====
section
/-! DEFINITION. The stream elements (30_encoding.md R74 to R82): the sink calls that write each, of which WRMAGIC,
WRTREE, ENCODE and DECODE are made. -/

namespace Sys2Proof.Machine

/-- The magic number: one 32-bit write (R74, R130). -/
def putMagic (s : State) : Res Unit := put s.magicTree s

/-- The token of an internal node: a single 0 bit (R75, R132). -/
def putInternal (s : State) : Res Unit := put 0#1 s

/-- The token of a leaf: a 1 bit, then the symbol in 9 bits (R76, R132). -/
def putLeaf (v : Sym) (s : State) : Res Unit := (put 1#1 s).andThen fun _ s => put v s

/-- The code of a word or of the pseudo-EOF, one bit a call (R79, R150). -/
def putCode (code : List Bool) (s : State) : Res Unit := putBits code s

/-- One decoded word: 8 bits (R82, R160). -/
def putWord (w : Byte) (s : State) : Res Unit := put w s

/-- The element `stream.magic` (R74). -/
def execStreamMagic (s : State) : Host.Outcome State Fault Refusal := runTransfer putMagic s

/-- The element `stream.header.internal` (R75). -/
def execStreamHeaderInternal (s : State) : Host.Outcome State Fault Refusal := runTransfer putInternal s

/-- The element `stream.header.leaf` (R76). A value of 257 to 511 is never written; the one effect the spec gives
that encoding is the error its reader raises, `CorruptTreeError(SYMRANGE)` (R77, R83; log entry 7). -/
def execStreamHeaderLeaf (v : Sym) (s : State) : Host.Outcome State Fault Refusal :=
  runTransfer (fun s => if v ≤ pseudoEof then putLeaf v s else .raised (symbolReserved v) s) s

/-- The element `stream.body.code` (R79). -/
def execStreamBodyCode (code : List Bool) (s : State) : Host.Outcome State Fault Refusal :=
  runTransfer (putCode code) s

/-- The element `stream.body.pseudo_eof` (R79). -/
def execStreamBodyPseudoEof (code : List Bool) (s : State) : Host.Outcome State Fault Refusal :=
  runTransfer (putCode code) s

/-- The element `stream.word` (R82). -/
def execStreamWord (w : Byte) (s : State) : Host.Outcome State Fault Refusal := runTransfer (putWord w) s

end Sys2Proof.Machine
end

