-- ==== Sys2Proof/Machine/Codec.lean ====
section
/-! DEFINITION. WRMAGIC, WRTREE, RDMAGIC, RDTREE, the Header Codec (43_tree_codec.md). -/

namespace Sys2Proof.Machine

/-- WRMAGIC (R130). -/
def execWrmagic (s : State) : Host.Outcome State Fault Refusal := runCommand 4 true putMagic s

/-- `Put(k)` (R132): preorder, each node's token before its subtrees'. `fuel` bounds the depth; a tree is never
deeper than it has records (log entry 8). -/
def putTree : Nat → NodeIx → State → Res Unit
  | 0, _, _ => .broken .endlessWalk
  | fuel + 1, k, s =>
    match nodeAt s k with
    | none => .broken .nodeOutsideTree
    | some n =>
      if n.leaf then putLeaf n.value s
      else
        (putInternal s).andThen fun _ s =>
          (putTree fuel n.left s).andThen fun _ s => putTree fuel n.right s

/-- WRTREE's pseudocode (R132). -/
def wrtreeBody (s : State) : Res Unit := putTree s.nnodes.toNat s.root s

/-- WRTREE (R132); precondition `TREE_VALID = 1`. -/
def execWrtree (s : State) : Host.Outcome State Fault Refusal := runCommand 5 s.treeValid wrtreeBody s

/-- RDMAGIC's pseudocode (R135, R136). -/
def rdmagicBody (s : State) : Res Unit :=
  readField 32 (fun s => .raised magicAbsent s)
    (fun m s => if m = s.magicTree then .ok () s else .raised magicMismatch s) s

/-- RDMAGIC (R135). -/
def execRdmagic (s : State) : Host.Outcome State Fault Refusal := runCommand 8 true rdmagicBody s

/-- A completed node gets the next index, `NNODES` (R138, R139). -/
def addNode (n : Node) (s : State) : State := s.withTree (nodeSet s.node s.nnodes n) s.root (s.nnodes + 1)

/-- `Get()` (R138, R143): it answers the index of the node it made and the count `seen` of nodes started. The
arena is tested before any read, so the depth is below `NODE_CAP` and the first case is never met. -/
def getTree : Nat → Nat → State → Res (NodeIx × Nat)
  | 0, _, s => .raised arenaFull s
  | fuel + 1, seen, s =>
    if seen = Config.nodeCap then .raised arenaFull s
    else
      readField 1 (fun s => .raised headerTagMissing s)
        (fun tag s =>
          if tag = 0 then
            (getTree fuel (seen + 1) s).andThen fun l s =>
              (getTree fuel l.2 s).andThen fun r s =>
                .ok (s.nnodes, r.2) (addNode (internalNode 0 l.1 r.1) s)
          else
            readField 9 (fun s => .raised headerSymMissing s)
              (fun v s =>
                if v ≤ pseudoEof then .ok (s.nnodes, seen + 1) (addNode (leafNode v 0) s)
                else .raised (symbolReserved v) s) s) s

/-- RDTREE's pseudocode (R138): the old tree and code table fall at the start; a root that is a leaf is refused
after it is read, before `ROOT` is written (R142, R143). -/
def rdtreeBody (s : State) : Res Unit :=
  (getTree (Config.nodeCap + 1) 0 ((s.withValid false false).withTree s.node nil 0)).andThen fun r s =>
    match nodeAt s r.1 with
    | none => .broken .nodeOutsideTree
    | some n =>
      if n.leaf then .raised (rootIsLeaf n.value) s
      else .ok () ((s.withTree s.node r.1 s.nnodes).withValid true s.codesValid)

/-- RDTREE (R138). -/
def execRdtree (s : State) : Host.Outcome State Fault Refusal := runCommand 9 true rdtreeBody s

end Sys2Proof.Machine
end

