-- ==== Sys2Proof/Machine/Count.lean ====
section
/-! DEFINITION. COUNT, the Frequency Counter (40_count.md). -/

namespace Sys2Proof.Machine

/-- One counted word (R100, R102): no increment past `2^32 - 1`. -/
def countWord (ct : Vector Word 257) (w : Byte) : Option (Vector Word 257) :=
  if ctAt ct w.toNat = BitVec.allOnes 32 then none else some (ctSet ct w.toNat (ctAt ct w.toNat + 1))

/-- COUNT's loop (R100). `fuel` bounds the passes; each consumes 8 bits of the source or is the last (R228). -/
def countLoop : Nat → State → Res Unit
  | 0, s => .ok () s
  | fuel + 1, s =>
    readField 8 (fun s => .ok () s)
      (fun w s =>
        match countWord s.ct w with
        | none => .raised (countFull w) s
        | some ct => countLoop fuel (s.withCt ct)) s

/-- COUNT's pseudocode (R100, R101): clear the table, then count every complete word from the current position. -/
def countBody (s : State) : Res Unit :=
  countLoop (s.srcBits.length - s.srcPos + 1) (s.withCt (Vector.replicate 257 0))

/-- COUNT (R100). -/
def execCount (s : State) : Host.Outcome State Fault Refusal := runCommand 1 true countBody s

end Sys2Proof.Machine
end

