-- ==== Sys2Proof/Machine/Decoder.lean ====
section
/-! DEFINITION. DECODE, the Stream Decoder: tree traverse with the pseudo-EOF sentinel (45_decoder.md). -/

namespace Sys2Proof.Machine

/-- DECODE's loop (R160, R161). `fuel` bounds the passes; each consumes one bit of the source or is the last
(R164), so the first case, which answers as a source at its end does, is met by no run. -/
def decodeLoop : Nat → State → Res Unit
  | 0, s => .raised bodyMissing s
  | fuel + 1, s =>
    readField 1 (fun s => .raised bodyMissing s)
      (fun b s =>
        match nodeAt s s.cur with
        | none => .broken .nodeOutsideTree
        | some here =>
          let next := if b = 0 then here.left else here.right
          let s := s.withCur next
          match nodeAt s next with
          | none => .broken .nodeOutsideTree
          | some n =>
            if n.leaf then
              if n.value = pseudoEof then .ok () s
              else (putWord (n.value.extractLsb' 0 8) s).andThen fun _ s => decodeLoop fuel (s.withCur s.root)
            else decodeLoop fuel s) s

/-- DECODE's pseudocode (R160): from the root, at the current position of the source. -/
def decodeBody (s : State) : Res Unit := decodeLoop (s.srcBits.length - s.srcPos + 1) (s.withCur s.root)

/-- DECODE (R160); precondition `TREE_VALID = 1`. -/
def execDecode (s : State) : Host.Outcome State Fault Refusal := runCommand 10 s.treeValid decodeBody s

end Sys2Proof.Machine
end

