-- ==== Sys2Proof/Machine/Encoder.lean ====
section
/-! DEFINITION. ENCODE, the Stream Encoder (44_encoder.md). -/

namespace Sys2Proof.Machine

/-- `Emit(s)` (R150, R152): a symbol without a code is an error; else its bits, first branch first. -/
def emit (v : Sym) (s : State) : Res Unit :=
  if (codeAt s.code v.toNat).len = 0 then .raised (noCodeFor v) s else putCode (codeAt s.code v.toNat).path s

/-- ENCODE's loop and the terminator after it (R150). `fuel` bounds the passes; each consumes 8 bits of the source
or is the last (R228). -/
def encodeLoop : Nat → State → Res Unit
  | 0, s => emit pseudoEof s
  | fuel + 1, s =>
    readField 8 (fun s => emit pseudoEof s)
      (fun w s => (emit (w.setWidth 9) s).andThen fun _ s => encodeLoop fuel s) s

/-- ENCODE's pseudocode (R150, R153): from the current position of the source. -/
def encodeBody (s : State) : Res Unit := encodeLoop (s.srcBits.length - s.srcPos + 1) s

/-- ENCODE (R150); precondition `CODES_VALID = 1`. -/
def execEncode (s : State) : Host.Outcome State Fault Refusal := runCommand 7 s.codesValid encodeBody s

end Sys2Proof.Machine
end

