-- ==== Sys2Proof/Machine/Gencodes.lean ====
section
/-! DEFINITION. GENCODES, the Code Table Generator: tree-to-code walk (42_code_table_gen.md). -/

namespace Sys2Proof.Machine

/-- `Walk(k, path)` (R120, R123): at a leaf its symbol's code is written, at an internal node the left subtree
comes before the right. `fuel` bounds the depth; a tree is never deeper than it has records (log entry 8). -/
def walk (s : State) : Nat → NodeIx → List Bool → Vector Code 257 → Except Fault (Vector Code 257)
  | 0, _, _, _ => .error .endlessWalk
  | fuel + 1, k, path, code =>
    match nodeAt s k with
    | none => .error .nodeOutsideTree
    | some n =>
      if n.leaf then
        if n.value ≤ pseudoEof then .ok (codeSet code n.value.toNat (codeOfPath path)) else .error .symbolOutOfRange
      else
        match walk s fuel n.left (path ++ [false]) code with
        | .error f => .error f
        | .ok code => walk s fuel n.right (path ++ [true]) code

/-- GENCODES's pseudocode (R120): `CODES_VALID` falls, every entry becomes "no code", the walk writes the codes,
`CODES_VALID` rises. -/
def gencodesBody (s : State) : Res Unit :=
  match walk s s.nnodes.toNat s.root [] (Vector.replicate 257 ⟨0, 0⟩) with
  | .error f => .broken f
  | .ok code => .ok () ((s.withCode code).withValid s.treeValid true)

/-- GENCODES (R120); precondition `TREE_VALID = 1`. -/
def execGencodes (s : State) : Host.Outcome State Fault Refusal := runCommand 3 s.treeValid gencodesBody s

end Sys2Proof.Machine
end

