-- ==== Sys2Proof/Machine/Control.lean ====
section
/-! DEFINITION. REWIND, CLEAR, the reserved opcodes and the two pseudo-instructions (46_control.md; 30_encoding.md
R72, R85). -/

namespace Sys2Proof.Machine

/-- REWIND's pseudocode (R172). -/
def rewindBody (s : State) : Res Unit :=
  (srcRewind s).andThen fun a s =>
    match a with
    | .ioErr => .raised rewindFailed s
    | .done => .ok () s

/-- REWIND (R172). -/
def execRewind (s : State) : Host.Outcome State Fault Refusal := runCommand 6 true rewindBody s

/-- CLEAR (R174, R175): accepted in `IDLE` and in `ERROR`, ignored in `BUSY`; it leaves `IDLE` with `DONE = 1`. -/
def execClear (s : State) : Host.Outcome State Fault Refusal :=
  match s.seq with
  | .busy => .next s
  | .idle => .next ((discardTables s).withSeq .idle true)
  | .error => .next ((discardTables s).withSeq .idle true)

/-- Opcode 0 (R72). -/
def execIllegal0 (s : State) : Host.Outcome State Fault Refusal := runIllegal 0 s

/-- Opcode 12 (R72). -/
def execIllegal12 (s : State) : Host.Outcome State Fault Refusal := runIllegal 12 s

/-- Opcode 13 (R72). -/
def execIllegal13 (s : State) : Host.Outcome State Fault Refusal := runIllegal 13 s

/-- Opcode 14 (R72). -/
def execIllegal14 (s : State) : Host.Outcome State Fault Refusal := runIllegal 14 s

/-- Opcode 15 (R72). -/
def execIllegal15 (s : State) : Host.Outcome State Fault Refusal := runIllegal 15 s

/-- COMPRESS: the host issues the seven commands in order (R85, R178). -/
def execCompress (s : State) : Host.Outcome State Fault Refusal :=
  thenRun (thenRun (thenRun (thenRun (thenRun (thenRun (execCount s) execBuild) execGencodes) execWrmagic)
    execWrtree) execRewind) execEncode

/-- DECOMPRESS: the host issues the three commands in order (R85, R179). -/
def execDecompress (s : State) : Host.Outcome State Fault Refusal :=
  thenRun (thenRun (execRdmagic s) execRdtree) execDecode

end Sys2Proof.Machine
end

