-- ==== Sys2Proof/Machine/Dispatch.lean ====
section
/-! DEFINITION. One arm per instruction: each calls its meaning. -/

namespace Sys2Proof.Machine

def exec (i : Instr) (s : State) : Host.Outcome State Fault Refusal :=
  match i with
  | .count => Sys2Proof.Machine.execCount s
  | .build => Sys2Proof.Machine.execBuild s
  | .gencodes => Sys2Proof.Machine.execGencodes s
  | .wrmagic => Sys2Proof.Machine.execWrmagic s
  | .wrtree => Sys2Proof.Machine.execWrtree s
  | .rewind => Sys2Proof.Machine.execRewind s
  | .encode => Sys2Proof.Machine.execEncode s
  | .rdmagic => Sys2Proof.Machine.execRdmagic s
  | .rdtree => Sys2Proof.Machine.execRdtree s
  | .decode => Sys2Proof.Machine.execDecode s
  | .clear => Sys2Proof.Machine.execClear s
  | .illegal0 => Sys2Proof.Machine.execIllegal0 s
  | .illegal12 => Sys2Proof.Machine.execIllegal12 s
  | .illegal13 => Sys2Proof.Machine.execIllegal13 s
  | .illegal14 => Sys2Proof.Machine.execIllegal14 s
  | .illegal15 => Sys2Proof.Machine.execIllegal15 s
  | .compress => Sys2Proof.Machine.execCompress s
  | .decompress => Sys2Proof.Machine.execDecompress s
  | .streamMagic => Sys2Proof.Machine.execStreamMagic s
  | .streamHeaderInternal => Sys2Proof.Machine.execStreamHeaderInternal s
  | .streamHeaderLeaf v => Sys2Proof.Machine.execStreamHeaderLeaf v s
  | .streamBodyCode c => Sys2Proof.Machine.execStreamBodyCode c s
  | .streamBodyPseudoEof c => Sys2Proof.Machine.execStreamBodyPseudoEof c s
  | .streamWord w => Sys2Proof.Machine.execStreamWord w s

end Sys2Proof.Machine
end

