-- ==== Sys2Proof/WellFormed.lean ====
section
/-! DEFINITION. Which instructions the encoding admits: the operands in range (30_encoding.md R77, R79). -/

namespace Sys2Proof

/-- A code of the body has 1 to 256 bits (R79, `MAX_CODE_LEN` of R9). -/
abbrev codeLengthOk (code : List Bool) : Prop := 1 ≤ code.length ∧ code.length ≤ 256

/-- The operands are in range: a leaf's value is a symbol, 0 to 256 (R77), and a code has 1 to 256 bits (R79). -/
def Instr.wf : Instr → Bool
  | .streamHeaderLeaf v => decide (v ≤ pseudoEof)
  | .streamBodyCode c => decide (codeLengthOk c)
  | .streamBodyPseudoEof c => decide (codeLengthOk c)
  | .count | .build | .gencodes | .wrmagic | .wrtree | .rewind | .encode | .rdmagic | .rdtree | .decode
  | .clear | .illegal0 | .illegal12 | .illegal13 | .illegal14 | .illegal15 | .compress | .decompress
  | .streamMagic | .streamHeaderInternal | .streamWord _ => true

end Sys2Proof
end

