-- ==== Sys2Proof/Decode.lean ====
section
/-! DEFINITION. The decoder, total on any bits and rejecting by name, and the encoder (30_encoding.md R70 to R86). -/

namespace Sys2Proof

/-- The command a word presents: its `OP` field is bits 3:0, bits 31:4 are ignored (R70, R71, R72). -/
def decodeCommand (w : Word) : Instr :=
  match (w.extractLsb' 0 4).toNat with
  | 1 => .count
  | 2 => .build
  | 3 => .gencodes
  | 4 => .wrmagic
  | 5 => .wrtree
  | 6 => .rewind
  | 7 => .encode
  | 8 => .rdmagic
  | 9 => .rdtree
  | 10 => .decode
  | 11 => .clear
  | 12 => .illegal12
  | 13 => .illegal13
  | 14 => .illegal14
  | 15 => .illegal15
  | _ => .illegal0

/-- Where in the host's and the stream's data the next bits stand. What they mean depends on it: the formats
carry no tag that tells a command, a header token, a code and a word apart (R73, R80, R82). -/
inductive Place where
  /-- A command word on its way to `CMD`. -/
  | command
  /-- Stream bits 0 to 31 (R65). -/
  | magic
  /-- A token of the tree header (R75, R76). -/
  | header
  /-- The body, read under the code book of its tree: a code has no length field (R80). -/
  | body (book : List (List Bool × Sym))
  /-- The uncompressed stream (R82). -/
  | word
  deriving DecidableEq, Repr

/-- Why no instruction is read. -/
inductive DecodeError where
  /-- The bits end inside the field (R83: a field that ends early). -/
  | tooShort
  /-- 32 bits that are not the magic number (R83). -/
  | notMagic
  /-- A leaf value of 257 to 511 (R77). -/
  | reservedSymbol
  /-- No code of the book starts here (R80). -/
  | noCode
  deriving DecidableEq, Repr

/-- The first `n` bits and the rest. -/
def takeBits (n : Nat) (bits : List Bool) : Except DecodeError (List Bool × List Bool) :=
  if n ≤ bits.length then .ok (bits.take n, bits.drop n) else .error .tooShort

/-- One header token (R75, R76): the first bit tells an internal node from a leaf (R80). -/
def decodeHeader : List Bool → Except DecodeError (Instr × List Bool)
  | [] => .error .tooShort
  | false :: rest => .ok (.streamHeaderInternal, rest)
  | true :: rest =>
    match takeBits 9 rest with
    | .error e => .error e
    | .ok (field, rest) =>
      if ofBits 9 field ≤ pseudoEof then .ok (.streamHeaderLeaf (ofBits 9 field), rest)
      else .error .reservedSymbol

/-- One code of the body under a code book: the entry whose code the bits start with (R79, R80). -/
def decodeCode (book : List (List Bool × Sym)) (bits : List Bool) : Except DecodeError (Instr × List Bool) :=
  match book.find? fun entry => !entry.1.isEmpty && entry.1.isPrefixOf bits with
  | none => .error .noCode
  | some (code, s) =>
    .ok (if s = pseudoEof then .streamBodyPseudoEof code else .streamBodyCode code, bits.drop code.length)

/-- The instruction the bits at a place start with, and the bits after it. `magic` is the parameter `MAGIC_TREE`. -/
def decode (place : Place) (magic : Word) (bits : List Bool) : Except DecodeError (Instr × List Bool) :=
  match place with
  | .command =>
    match takeBits 32 bits with
    | .error e => .error e
    | .ok (field, rest) => .ok (decodeCommand (ofBits 32 field), rest)
  | .magic =>
    match takeBits 32 bits with
    | .error e => .error e
    | .ok (field, rest) => if ofBits 32 field = magic then .ok (.streamMagic, rest) else .error .notMagic
  | .header => decodeHeader bits
  | .body book => decodeCode book bits
  | .word =>
    match takeBits 8 bits with
    | .error e => .error e
    | .ok (field, rest) => .ok (.streamWord (ofBits 8 field), rest)

/-- The command words of a command or a pseudo-instruction, ignored bits 0 (R71, R72, R85); none for a stream
element. -/
def Instr.commandWords : Instr → List Word
  | .count => [1]
  | .build => [2]
  | .gencodes => [3]
  | .wrmagic => [4]
  | .wrtree => [5]
  | .rewind => [6]
  | .encode => [7]
  | .rdmagic => [8]
  | .rdtree => [9]
  | .decode => [10]
  | .clear => [11]
  | .illegal0 => [0]
  | .illegal12 => [12]
  | .illegal13 => [13]
  | .illegal14 => [14]
  | .illegal15 => [15]
  | .compress => [1, 2, 3, 4, 5, 6, 7]
  | .decompress => [8, 9, 10]
  | .streamMagic | .streamHeaderInternal | .streamHeaderLeaf _ | .streamBodyCode _ | .streamBodyPseudoEof _
  | .streamWord _ => []

/-- The bits of an instruction: the command words (R70, R71, R85), or the stream element in stream order (R74 to
R82). -/
def encode (magic : Word) (i : Instr) : List Bool :=
  match i with
  | .streamMagic => binBits magic
  | .streamHeaderInternal => [false]
  | .streamHeaderLeaf v => true :: binBits v
  | .streamBodyCode c => c
  | .streamBodyPseudoEof c => c
  | .streamWord w => binBits w
  | .count | .build | .gencodes | .wrmagic | .wrtree | .rewind | .encode | .rdmagic | .rdtree | .decode
  | .clear | .illegal0 | .illegal12 | .illegal13 | .illegal14 | .illegal15 | .compress | .decompress =>
    i.commandWords.flatMap binBits

/-- The instruction the decoder reads from a command word given as a number, bit 0 least significant. The bits
above `nbits` are 0 (the ignored bits 31:4 among them); only command words are numbered so. -/
def decodeTableWord (nbits w : Nat) : Option Instr :=
  if 1 ≤ nbits ∧ nbits ≤ 32 then some (decodeCommand (BitVec.ofNat 32 (w % 2 ^ nbits))) else none

end Sys2Proof
end

