-- ==== Sys2Proof/Machine/Host.lean ====
section
/-! DEFINITION. What the host does to the engine: CSR reads and writes, reset, attaching a stream pair
(10_state.md R36 to R43; 70_reset_and_hazards.md R210 to R212), and which instruction the next event issues. -/

namespace Sys2Proof.Machine

/-- What a CSR holds for a reader (R36 to R43): numbers 11 to 15 and `CMD` read 0; `ROOT`, `NNODES`, `CUR` and
`TDATA` are unspecified while `BUSY` (R43). DESIGN CHOICE, unsafe: that `TSEL`, and the registers that hold no state,
read exactly while `BUSY`. R43 does not name them, 92_eei_decisions.md D28 calls all reads but those of `STATUS` and
`ERR` unspecified (log entry 14). -/
def csrContents (num : BitVec 4) (s : State) : Contents :=
  match num.toNat with
  | 1 => .value (statusWord s)
  | 2 => .value (errWord s)
  | 3 => if s.seq = .busy then .unspecified else .value (s.root.setWidth 32)
  | 4 => if s.seq = .busy then .unspecified else .value (s.nnodes.setWidth 32)
  | 5 => if s.seq = .busy then .unspecified else .value (s.cur.setWidth 32)
  | 6 => .value s.magicTree
  | 7 => .value (s.tsel.setWidth 32)
  | 8 => if s.seq = .busy then .unspecified else windowWord s
  | 9 => .value param0
  | 10 => .value param1
  | _ => .value 0

/-- A CSR read: `csr_rdata` takes what the CSR holds, or a free value where nothing is specified (log entry 6).
Nothing else changes (R176). -/
def csrRead (num : BitVec 4) (s : State) : State :=
  match csrContents num s with
  | .value w => s.withRdata w
  | .unspecified => (s.withRdata (Config.freeWord s.freeIx)).withFree (s.freeIx + 1)

/-- A CSR write other than to `CMD` (R36, R41, R43): `TSEL` unless `BUSY`; `TDATA` only in `IDLE` and only into an
entry of `CT`; every other write is ignored. -/
def csrWrite (num : BitVec 4) (data : Word) (s : State) : State :=
  match num.toNat with
  | 7 => if s.seq = .busy then s else s.withTsel (data.extractLsb' 0 16)
  | 8 =>
    if s.seq = .idle ∧ tselTbl s = 0 ∧ tselIdx s ≤ 256 ∧ tselWord s = 0 then
      s.withCt (ctSet s.ct (tselIdx s).toNat data)
    else s
  | _ => s

/-- What the outstanding port call does to the streams if it takes effect (R211). -/
def callEffect (c : PortCall) (s : State) : State :=
  match c with
  | .read n => srcAfterRead n s
  | .rewind => s.withSrcPos 0
  | .write bits => snkAfterWrite bits s

/-- The streams when reset is asserted (R211, R212): as they are, but that a call in flight may or may not have
taken effect (log entry 10). -/
def settleInFlight (s : State) : State :=
  match s.inFlight with
  | none => s
  | some c => if Config.freeHappened s.freeIx then (callEffect c s).withFree (s.freeIx + 1) else s.withFree (s.freeIx + 1)

/-- `rst` (R210, R211, R212; 10_state.md R47): whatever the engine does is abandoned, the engine takes its reset
state, the streams keep theirs. DESIGN CHOICE, unsafe: `csr_rdata` keeps the last read's answer, which the spec calls
valid in the cycle of its access only (R215; log entry 3). -/
def engineReset (s : State) : State :=
  (((discardTables (settleInFlight s)).withTsel 0).withInFlight none).withSeq .idle false

/-- A source and an empty sink are attached (R50, R52). DESIGN CHOICE, unsafe: it takes effect whenever the engine is
not `BUSY`, between two commands of one call (R177) and in `ERROR` too, and is ignored while `BUSY`. The spec gives
such an act within a call no effect: "The sequence does not change during a call" (R51), and that the pair stays the
same until the call ends is the host's duty, which "the engine checks none of" (R213; log entry 3). -/
def attachStreams (bits : List Bool) (s : State) : State := if s.seq = .busy then s else s.withStreams bits

/-- What the next event asks of the machine: an instruction, or something that is done at once. -/
inductive Event where
  /-- The sequencer is presented with an instruction, in this state. -/
  | run (i : Instr) (s : State)
  /-- The event is done: this is the state after it. -/
  | quiet (s : State)
  deriving DecidableEq, Repr

/-- Fetching: the host's next event (30_encoding.md R84; 10_state.md R30: there is no instruction memory). With no
event pending the engine waits (60_exceptions.md R199). -/
def nextEvent (s : State) : Event :=
  match s.host with
  | [] => .quiet s
  | .read num :: es => .quiet (csrRead num (s.withHost es))
  | .write num data :: es =>
    if num = 0 then .run (decodeCommand data) (s.withHost es) else .quiet (csrWrite num data (s.withHost es))
  | .line i :: es => .run i (s.withHost es)
  | .reset :: es => .quiet (engineReset (s.withHost es))
  | .attach bits :: es => .quiet (attachStreams bits (s.withHost es))

end Sys2Proof.Machine
end

