-- ==== Sys2Proof/Machine/Step.lean ====
section
/-! DEFINITION. One step: the host's next event, and the instruction it issues. -/

namespace Sys2Proof.Machine

/-- One step. The engine fetches nothing of itself: "the next operation is whatever command the host presents"
(10_state.md R30). -/
def step (s : State) : Host.Outcome State Fault Refusal :=
  match nextEvent s with
  | .run i s' => exec i s'
  | .quiet s' => .next s'

/-- The state in which the very next step runs the command whose word is `w` (bits above `nbits` 0): a write of the
word to `CMD` stands first among the host's events. -/
def State.withFetchWord (s : State) (nbits w : Nat) : State :=
  s.withHost (.write 0 (BitVec.ofNat 32 (w % 2 ^ nbits)) :: s.host)

end Sys2Proof.Machine
end

