-- ==== Sys2Proof/Safety.lean ====
section
/-! DEFINITION. The terms in which claims are stated: the tree a state holds, its paths, codes and header, what a
source holds, the port calls an instruction makes, and the invariants the spec derives (10_state.md R24, R28). -/

namespace Sys2Proof.Machine

/-! ## Trees -/

/-- A full binary tree with a symbol on each leaf: what the records of `NODE` describe (R22, R24). -/
inductive Tree where
  | leaf (v : Sym)
  | node (l r : Tree)
  deriving DecidableEq, Repr

/-- How many nodes (R23, R24). -/
def Tree.size : Tree → Nat
  | .leaf _ => 1
  | .node l r => l.size + r.size + 1

/-- How many leaves `F` (R24, R133). -/
def Tree.leaves : Tree → Nat
  | .leaf _ => 1
  | .node l r => l.leaves + r.leaves

/-- How many internal nodes `I` (R24, R133). -/
def Tree.internals : Tree → Nat
  | .leaf _ => 0
  | .node l r => l.internals + r.internals + 1

/-- The leaves from left to right, each with its path from the root, `false` for left and `true` for right (R120,
R123). -/
def Tree.paths : Tree → List (List Bool × Sym)
  | .leaf v => [([], v)]
  | .node l r => (l.paths.map fun p => (false :: p.1, p.2)) ++ r.paths.map fun p => (true :: p.1, p.2)

/-- The header of a tree: its tokens in preorder (R73, R75, R76). -/
def Tree.header : Tree → List Bool
  | .leaf v => true :: binBits v
  | .node l r => false :: (l.header ++ r.header)

/-- Every node in the order in which its token stands in the header, the preorder: its path from the root, and its
symbol if it is a leaf (R132). -/
def Tree.nodes : Tree → List (List Bool × Option Sym)
  | .leaf v => [([], some v)]
  | .node l r =>
    ([], none) :: ((l.nodes.map fun x => (false :: x.1, x.2)) ++ r.nodes.map fun x => (true :: x.1, x.2))

/-- The token of a node (R75, R76). -/
def token : Option Sym → List Bool
  | none => [false]
  | some v => true :: binBits v

/-- The bits of the first `k` tokens of the header. -/
def Tree.tokens (T : Tree) (k : Nat) : List Bool := (T.nodes.take k).flatMap fun x => token x.2

/-- Every leaf among the first `k` nodes bears a symbol (R77). -/
def Tree.SymbolsBefore (T : Tree) (k : Nat) : Prop :=
  ∀ j, j < k → ∀ p v, T.nodes[j]? = some (p, some v) → v.toNat ≤ 256

/-- A tree RDTREE accepts (R142): internal root, at most 513 nodes, every leaf a symbol. -/
def Tree.Fits (t : Tree) : Prop :=
  1 ≤ t.internals ∧ t.size ≤ Config.nodeCap ∧ ∀ p ∈ t.paths, p.2 ≤ pseudoEof

/-- The path of the last leaf, from left to right, that bears a symbol (R28, R123). -/
def Tree.lastPath (t : Tree) (v : Sym) : Option (List Bool) :=
  ((t.paths.filter fun p => decide (p.2 = v)).getLast?).map Prod.fst

/-- The entry of `CODE` the tree gives a symbol (R28). -/
def Tree.codeOf (t : Tree) (v : Sym) : Code :=
  match t.lastPath v with
  | none => ⟨0, 0⟩
  | some p => codeOfPath p

/-- The tree under record `k`, if the records below it form one of at most `fuel` levels. -/
def treeAt (s : State) : Nat → NodeIx → Option Tree
  | 0, _ => none
  | fuel + 1, k =>
    match nodeAt s k with
    | none => none
    | some n =>
      if n.leaf then some (.leaf n.value)
      else
        match treeAt s fuel n.left, treeAt s fuel n.right with
        | some l, some r => some (.node l r)
        | _, _ => none

/-- The tree the state holds, read from `ROOT` (R23). -/
def State.tree (s : State) : Option Tree := treeAt s s.nnodes.toNat s.root

/-- The record of a tree's root whose block of records begins at `lo` (R139). -/
def Tree.rootAt (lo : Nat) (T : Tree) : Nat := lo + T.size - 1

/-- The records from `lo` on hold this tree in postorder: the left subtree's block, the right one's behind it, the
root last, all weights 0 (R138, R139). -/
def Block (node : Vector Node 513) (lo : Nat) : Tree → Prop
  | .leaf v => v.toNat ≤ 256 ∧ node[lo]? = some ⟨true, v, 0, 0x3FF, 0x3FF⟩
  | .node l r =>
    Block node lo l ∧ Block node (lo + l.size) r ∧
      node[lo + l.size + r.size]? = some ⟨false, 0x1FF, 0, BitVec.ofNat 10 (l.rootAt lo),
        BitVec.ofNat 10 (r.rootAt (lo + l.size))⟩

/-- The record reached from record `k` along a path, left on `false`, right on `true` (R160, R161). -/
def descend (s : State) : NodeIx → List Bool → NodeIx
  | k, [] => k
  | k, b :: path =>
    match nodeAt s k with
    | none => nil
    | some n => descend s (if b then n.right else n.left) path

/-! ## Streams -/

/-- The complete 8-bit words a bit sequence begins with (R82, R101). -/
def wordsOf : List Bool → List Byte
  | a :: b :: c :: d :: e :: f :: g :: h :: rest => ofBits 8 [a, b, c, d, e, f, g, h] :: wordsOf rest
  | _ => []

/-- The bits the source has not delivered yet (R51, R53). -/
def State.unread (s : State) : List Bool := s.srcBits.drop s.srcPos

/-- Every pending port call is answered, and without `IOERR` (R58, R189; log entry 5). -/
def State.PortsAnswer (s : State) : Prop :=
  ∀ d ∈ s.draws, d = Draw.answer ∨ (d = Draw.ioErr ∧ s.ioCanFail = false)

/-- The engine accepts a command and every port answers (R170; log entry 5). -/
def State.Ready (s : State) : Prop := s.seq = .idle ∧ s.PortsAnswer

/-- The engine has completed an operation (R31, R67). -/
def State.Completed (s : State) : Prop := s.seq = .idle ∧ s.done = true

/-- The engine stands in `ERROR` with this `KIND`, `SUB` and `INFO` recorded (R32, R190). -/
def State.Failed (s : State) (e : ErrReg) : Prop := s.seq = .error ∧ s.done = false ∧ s.err = e

/-- The bits ENCODE sends for a symbol (R27, R150). -/
def State.codeBits (s : State) (v : Sym) : List Bool := (codeAt s.code v.toNat).path

/-- RDTREE refuses what the source holds: this error, this many records completed, no tree valid, `ROOT` `NIL`, and
the source here (R143). -/
def RdtreeRefuses (s : State) (e : ErrReg) (completed pos : Nat) : Prop :=
  ∃ t, exec .rdtree s = .next t ∧ t.Failed e ∧ t.treeValid = false ∧ t.codesValid = false ∧ t.root = 0x3FF ∧
    t.nnodes.toNat = completed ∧ t.srcPos = pos

/-! ## Invariants -/

/-- The tree invariants of 10_state.md R24, items 1 to 4. -/
structure TreeInv (s : State) : Prop where
  atLeastThree : 3 ≤ s.nnodes.toNat
  atMostCap : s.nnodes.toNat ≤ Config.nodeCap
  isOdd : s.nnodes.toNat % 2 = 1
  rootLast : s.root.toNat + 1 = s.nnodes.toNat
  shape : ∀ k n, nodeAt s k = some n →
    (n.leaf = true ∧ n.left = nil ∧ n.right = nil ∧ n.value ≤ pseudoEof) ∨
    (n.leaf = false ∧ n.value = internalValue ∧ n.left ≠ n.right ∧ n.left < k ∧ n.right < k)
  oneParent : ∀ k, k < s.root →
    ∃ p n, nodeAt s p = some n ∧ n.leaf = false ∧ (n.left = k ∨ n.right = k) ∧
      ∀ p' n', nodeAt s p' = some n' → n'.leaf = false → (n'.left = k ∨ n'.right = k) → p' = p
  rootInternal : ∃ n, nodeAt s s.root = some n ∧ n.leaf = false

/-- The code-table invariant of 10_state.md R28: every entry is the code its tree gives the symbol. -/
def CodesInv (s : State) : Prop :=
  s.treeValid = true ∧ ∃ t, s.tree = some t ∧ ∀ v : Sym, v ≤ pseudoEof → codeAt s.code v.toNat = t.codeOf v

/-- The invariants of the whole machine (10_state.md R23, R24, R28 to R34; 20_memory.md R51; R216). -/
structure Inv (s : State) : Prop where
  posInSource : s.srcPos ≤ s.srcBits.length
  noErrRecorded : s.seq ≠ .error → s.err = ⟨0, 0, 0⟩
  errRecorded : s.seq = .error → 1 ≤ s.err.kind ∧ s.err.kind ≤ 8
  notDone : s.seq ≠ .idle → s.done = false
  waitsWhileBusy : s.inFlight.isSome = true ↔ s.seq = .busy
  nnodesInArena : s.nnodes.toNat ≤ Config.nodeCap
  noRoot : s.treeValid = false → s.root = nil
  curInArena : s.cur.toNat < Config.nodeCap ∨ s.cur = nil
  tree : s.treeValid = true → TreeInv s
  codes : s.codesValid = true → CodesInv s

/-! ## Port calls -/

/-- A port call, with what `CUR` is when it is made. -/
abbrev Call := PortCall × NodeIx

/-- The `SUB` of `IoError` at a port (R181). -/
def ioSub : PortCall → BitVec 4
  | .read _ => 1
  | .write _ => 2
  | .rewind => 3

/-- Where the source stands after these calls are answered (R53, R55). -/
def State.posAfter (s : State) (cs : List Call) : Nat :=
  cs.foldl (fun pos c =>
    match c.1 with
    | .read n => min (pos + n) s.srcBits.length
    | .rewind => 0
    | .write _ => pos) s.srcPos

/-- The bits these calls, answered, append to the sink (R56). -/
def bitsSent (cs : List Call) : List Bool :=
  cs.flatMap fun c =>
    match c.1 with
    | .write bits => bits
    | .read _ | .rewind => []

/-- Calls that leave `CUR` as it is. -/
def calls (s : State) (cs : List PortCall) : List Call := cs.map fun c => (c, s.cur)

/-- The calls that read a token of the header (R138). -/
def tokenReads : Option Sym → List PortCall
  | none => [.read 1]
  | some _ => [.read 1, .read 9]

/-- The calls that write a token of the header (R132). -/
def tokenWrites : Option Sym → List PortCall
  | none => [.write [false]]
  | some v => [.write [true], .write (binBits v)]

/-- The calls that write a bit string, one bit a call (R57, R150). -/
def bitWrites (bits : List Bool) : List PortCall := bits.map fun b => .write [b]

/-- The calls of DECODE that read a path from the root (R160). -/
def pathReads (s : State) (path : List Bool) : List Call :=
  (List.range path.length).map fun j => (.read 1, descend s s.root (path.take j))

/-- The calls of DECODE for a whole code: its bits are read, its leaf's word is written (R160). -/
def wordCalls (s : State) (l : List Bool × Sym) : List Call :=
  pathReads s l.1 ++ [(.write (binBits (l.2.setWidth 8 : Byte)), descend s s.root l.1)]

/-- The calls of COUNT up to the one after these words (R100). -/
def CountCalls (s : State) (cs : List Call) : Prop :=
  ∃ pre post, wordsOf s.unread = pre ++ post ∧ (∀ b : Byte, pre.count b < 2 ^ 32) ∧
    cs = calls s (List.replicate (pre.length + 1) (.read 8))

/-- `cs` is a beginning, as long as one likes, of the list of port calls an accepted instruction makes while every
call is answered: "port calls happen in exactly that order and number" (00_scope.md R12). A pseudo-instruction's are
given up to the end of its first command; those of the next are that command's own (R85). -/
def CallsOf : Instr → State → List Call → Prop
  | .count, s, cs => CountCalls s cs
  | .wrmagic, s, cs => cs = calls s [.write (binBits s.magicTree)]
  | .wrtree, s, cs =>
    s.treeValid = true ∧ TreeInv s ∧ ∃ T, s.tree = some T ∧ cs = calls s (T.nodes.flatMap fun x => tokenWrites x.2)
  | .rewind, s, cs => cs = calls s [.rewind]
  | .encode, s, cs =>
    s.codesValid = true ∧ ∃ pre post, wordsOf s.unread = pre ++ post ∧
      (∀ b ∈ pre, (codeAt s.code b.toNat).len ≠ 0) ∧
      let sent := pre.flatMap fun b => .read 8 :: bitWrites (s.codeBits (b.setWidth 9))
      (cs = calls s (sent ++ [.read 8]) ∨
       (post = [] ∧ (codeAt s.code 256).len ≠ 0 ∧ cs = calls s (sent ++ .read 8 :: bitWrites (s.codeBits 256))))
  | .rdmagic, s, cs => cs = calls s [.read 32]
  | .rdtree, s, cs =>
    ∃ (T : Tree) (k : Nat), k < T.nodes.length ∧ k < 513 ∧ T.SymbolsBefore k ∧
      let got := (T.nodes.take k).flatMap fun x => tokenReads x.2
      ((T.tokens k <+: s.unread ∧ cs = calls s (got ++ [.read 1])) ∨
       (T.tokens k ++ [true] <+: s.unread ∧ cs = calls s (got ++ [.read 1, .read 9])))
  | .decode, s, cs =>
    s.treeValid = true ∧ TreeInv s ∧ ∃ (T : Tree) (ls : List (List Bool × Sym)) (p cut : List Bool) (v : Sym),
      s.tree = some T ∧ (∀ l ∈ ls, l ∈ T.paths ∧ l.2 ≠ 256) ∧ (p ++ cut, v) ∈ T.paths ∧ cut ≠ [] ∧
      ls.flatMap Prod.fst ++ p <+: s.unread ∧
      cs = ls.flatMap (wordCalls s) ++ pathReads s p ++ [(.read 1, descend s s.root p)]
  | .compress, s, cs => CountCalls s cs
  | .decompress, s, cs => cs = calls s [.read 32]
  | .streamMagic, s, cs => cs = calls s [.write (binBits s.magicTree)]
  | .streamHeaderInternal, s, cs => cs = calls s (tokenWrites none)
  | .streamHeaderLeaf v, s, cs => v.toNat ≤ 256 ∧ cs = calls s (tokenWrites (some v))
  | .streamBodyCode c, s, cs => cs = calls s (bitWrites c)
  | .streamBodyPseudoEof c, s, cs => cs = calls s (bitWrites c)
  | .streamWord w, s, cs => cs = calls s [.write (binBits w)]
  | .build, _, cs | .gencodes, _, cs | .clear, _, cs | .illegal0, _, cs | .illegal12, _, cs | .illegal13, _, cs
  | .illegal14, _, cs | .illegal15, _, cs => cs = []

/-! ## Instructions -/

/-- The instructions that present one opcode to the sequencer (R71, R72). -/
def isCommand : Instr → Bool
  | .count | .build | .gencodes | .wrmagic | .wrtree | .rewind | .encode | .rdmagic | .rdtree | .decode
  | .clear | .illegal0 | .illegal12 | .illegal13 | .illegal14 | .illegal15 => true
  | .compress | .decompress | .streamMagic | .streamHeaderInternal | .streamHeaderLeaf _ | .streamBodyCode _
  | .streamBodyPseudoEof _ | .streamWord _ => false

/-- No code of the book is the beginning of another entry's (R80, R125). -/
def PrefixFree (book : List (List Bool × Sym)) : Prop := ∀ p ∈ book, ∀ q ∈ book, p.1 <+: q.1 → p = q

/-- The place of the stream or of the host's data at which an instruction's bits stand (R65, R70, R73, R82). A
pseudo-instruction has no encoding of its own (R85). -/
def StandsAt : Instr → Place → Prop
  | .streamMagic, p => p = .magic
  | .streamHeaderInternal, p => p = .header
  | .streamHeaderLeaf _, p => p = .header
  | .streamBodyCode c, p => ∃ book v, p = .body book ∧ PrefixFree book ∧ (c, v) ∈ book ∧ v ≠ pseudoEof
  | .streamBodyPseudoEof c, p => ∃ book, p = .body book ∧ PrefixFree book ∧ (c, pseudoEof) ∈ book
  | .streamWord _, p => p = .word
  | i, p => isCommand i = true ∧ p = .command

end Sys2Proof.Machine
end

