-- ==== Sys2Proof/Certificates/Slice0/Obligations.lean ====
section
/-! DEFINITION. The statements for the provers. Each docstring says which rule of spec/ it formalises; what is the
model's own choice is said there with its log entry. -/

open Sys2Proof Sys2Proof.Machine

/-! ## Encodings -/

/-- 30_encoding.md R70, R71: a command word presents the command whose opcode its bits 3:0 are; bits 31:4 are
ignored, and no two rows of the table match one word. -/
def Obligations.CommandWordPresentsItsOpcode : Prop :=
  ∀ (i : Instr) (c w : Word), isCommand i = true → i.commandWords = [c] → (w &&& 0xF = c ↔ decodeCommand w = i)

/-- 30_encoding.md R70 to R82: the decoder gives back every well-formed instruction from its bits, whatever
follows them, at the place where those bits stand. -/
def Obligations.DecodeInvertsEncode : Prop :=
  ∀ (magic : Word) (i : Instr) (place : Place) (rest : List Bool), i.wf = true → StandsAt i place →
    decode place magic (encode magic i ++ rest) = .ok (i, rest)

/-- 30_encoding.md R77, R83: a leaf token of 257 to 511 and 32 bits other than the magic number name nothing. -/
def Obligations.ReservedStreamFieldsAreRejected : Prop :=
  ∀ (magic m : Word) (v : Sym) (rest : List Bool),
    (256 < v.toNat → decode .header magic (true :: (binBits v ++ rest)) = .error .reservedSymbol) ∧
    (m ≠ magic → decode .magic magic (binBits m ++ rest) = .error .notMagic)

/-- 30_encoding.md R71, R72, R76: some words and bits written out from the spec's tables, and the two expansions of
R85. -/
def Obligations.WrittenOutWordsDecode : Prop :=
  decodeCommand 0x00000001 = .count ∧ decodeCommand 0xFFFFFFF2 = .build ∧ decodeCommand 0x00000007 = .encode ∧
  decodeCommand 0x0000000A = .decode ∧ decodeCommand 0x0000000B = .clear ∧ decodeCommand 0 = .illegal0 ∧
  decodeCommand 0xC = .illegal12 ∧
  decodeHeader [true, false, false, true, false, false, false, false, false, true] =
    .ok (.streamHeaderLeaf 65, []) ∧
  Instr.compress.commandWords.map decodeCommand =
    [.count, .build, .gencodes, .wrmagic, .wrtree, .rewind, .encode] ∧
  Instr.decompress.commandWords.map decodeCommand = [.rdmagic, .rdtree, .decode]

/-! ## Steps, host accesses, reset -/

/-- 10_state.md R30, R37; 30_encoding.md R84: a step runs the command the host presents, in the state without that
event; an engine with no event pending waits (60_exceptions.md R199). The `line` form is the model's (log entries
3, 7). -/
def Obligations.StepRunsWhatTheHostPresents : Prop :=
  ∀ (s : State) (es : List HostEvent),
    (∀ w, s.host = .write 0 w :: es → step s = exec (decodeCommand w) (s.withHost es)) ∧
    (∀ i, s.host = .line i :: es → step s = exec i (s.withHost es)) ∧
    (∀ nbits w i, decodeTableWord nbits w = some i → step (s.withFetchWord nbits w) = exec i s) ∧
    (s.host = [] → step s = .next s)

/-- 10_state.md R47, 70_reset_and_hazards.md R210, R212: what reset leaves, from every state; with no port call in
flight the streams are as they were. -/
def Obligations.ResetLeavesTheResetValues : Prop :=
  ∀ (s : State) (es : List HostEvent), s.host = .reset :: es →
    ∃ t, step s = .next t ∧ t.seq = .idle ∧ t.done = false ∧ t.err = ⟨0, 0, 0⟩ ∧ t.treeValid = false ∧
      t.codesValid = false ∧ t.root = nil ∧ t.cur = nil ∧ t.nnodes = 0 ∧ t.tsel = 0 ∧ t.inFlight = none ∧
      (∀ v, v ≤ 256 → ctAt t.ct v = 0) ∧ t.srcBits = s.srcBits ∧ t.magicTree = s.magicTree ∧
      t.ioCanFail = s.ioCanFail ∧ (s.inFlight = none → t.srcPos = s.srcPos ∧ t.snkBits = s.snkBits)

/-- 10_state.md R47: the values the spec gives for the state right after reset. -/
def Obligations.ResetStateHoldsTheSpecsValues : Prop :=
  State.reset.seq = .idle ∧ State.reset.done = false ∧ State.reset.err = ⟨0, 0, 0⟩ ∧
  State.reset.treeValid = false ∧ State.reset.codesValid = false ∧ State.reset.root = 0x3FF ∧
  State.reset.cur = 0x3FF ∧ State.reset.nnodes = 0 ∧ State.reset.tsel = 0 ∧
  ∀ v, v ≤ 256 → ctAt State.reset.ct v = 0

/-- 70_reset_and_hazards.md R211: a port call in flight at reset either took effect or did not
(93_implementation_defined.md V5, "either happened or not"); nothing else of the streams' position and contents
changes. That it takes effect wholly or not at all is the model's inference (log entry 10). -/
def Obligations.ResetSettlesTheCallInFlight : Prop :=
  ∀ (s : State) (es : List HostEvent), s.host = .reset :: es →
    ∃ t, step s = .next t ∧
      ((t.srcPos = s.srcPos ∧ t.snkBits = s.snkBits) ∨
       (∃ n, s.inFlight = some (.read n) ∧ t.snkBits = s.snkBits ∧
         t.srcPos = if s.srcPos + n ≤ s.srcBits.length then s.srcPos + n else s.srcBits.length) ∨
       (s.inFlight = some .rewind ∧ t.snkBits = s.snkBits ∧ t.srcPos = 0) ∨
       (∃ bits, s.inFlight = some (.write bits) ∧ t.snkBits = s.snkBits ++ bits ∧ t.srcPos = s.srcPos))

/-- 10_state.md R30, R36 to R40, R43: what a read of each CSR but `TDATA` answers, and that a read changes nothing but
the answer (and the model's counter of free values, log entry 6). `ROOT`, `NNODES`, `CUR` are exact unless `BUSY`; that
`TSEL` and the registers that hold no state are exact while `BUSY` too is the model's choice (log entry 14). -/
def Obligations.CsrReadsShowTheRegisters : Prop :=
  ∀ (s : State) (num : BitVec 4) (es : List HostEvent), s.host = .read num :: es →
    ∃ t, step s = .next t ∧ t = ((s.withHost es).withRdata t.rdata).withFree t.freeIx ∧
      (num = 0 → t.rdata = 0) ∧
      (num = 1 → (t.rdata.extractLsb' 0 2).toNat = (match s.seq with | .idle => 0 | .busy => 1 | .error => 2) ∧
        t.rdata.getLsbD 2 = s.done ∧ t.rdata.getLsbD 3 = s.treeValid ∧ t.rdata.getLsbD 4 = s.codesValid ∧
        t.rdata.extractLsb' 5 27 = 0) ∧
      (num = 2 → t.rdata.extractLsb' 0 4 = s.err.kind ∧ t.rdata.extractLsb' 4 4 = s.err.sub ∧
        t.rdata.extractLsb' 8 10 = s.err.info ∧ t.rdata.extractLsb' 18 14 = 0) ∧
      (num = 3 → s.seq ≠ .busy → t.rdata.toNat = s.root.toNat) ∧
      (num = 4 → s.seq ≠ .busy → t.rdata.toNat = s.nnodes.toNat) ∧
      (num = 5 → s.seq ≠ .busy → t.rdata.toNat = s.cur.toNat) ∧
      (num = 6 → t.rdata = s.magicTree) ∧ (num = 7 → t.rdata.toNat = s.tsel.toNat) ∧
      (num = 9 → t.rdata = 0x02012920) ∧ (num = 10 → t.rdata = 0x02260101) ∧ (11 ≤ num.toNat → t.rdata = 0)

/-- 10_state.md R41, R42: the word of a table a read of `TDATA` answers, unless `BUSY`. The selection is written
out: `WORD`, `IDX`, `TBL` from the top of `TSEL`. -/
def Obligations.TableWindowShowsTheSelectedWord : Prop :=
  ∀ (s : State) (tbl : BitVec 2) (idx : BitVec 10) (word : BitVec 4) (es : List HostEvent),
    s.host = .read 8 :: es → s.tsel = word ++ idx ++ tbl → s.seq ≠ .busy →
    ∃ t, step s = .next t ∧ t = ((s.withHost es).withRdata t.rdata).withFree t.freeIx ∧
      (tbl = 0 → idx.toNat ≤ 256 → word = 0 → t.rdata = ctAt s.ct idx.toNat) ∧
      (tbl = 1 → s.treeValid = true → ∀ n, nodeAt s idx = some n →
        (word = 0 → t.rdata = n.weight.extractLsb' 0 32) ∧
        (word = 1 → t.rdata.toNat = (n.weight.extractLsb' 32 9).toNat) ∧
        (word = 2 → t.rdata.extractLsb' 0 10 = n.right ∧ t.rdata.extractLsb' 10 10 = n.left ∧
          t.rdata.extractLsb' 20 9 = n.value ∧ t.rdata.getLsbD 29 = n.leaf ∧ t.rdata.extractLsb' 30 2 = 0)) ∧
      (tbl = 2 → s.codesValid = true → idx.toNat ≤ 256 →
        (word = 0 → t.rdata.toNat = (codeAt s.code idx.toNat).len.toNat) ∧
        (∀ j, word.toNat = j + 1 → j ≤ 7 → t.rdata = (codeAt s.code idx.toNat).bits.extractLsb' (32 * j) 32)) ∧
      (tbl = 3 ∨ (tbl = 0 ∧ (256 < idx.toNat ∨ word ≠ 0)) ∨ (tbl = 1 ∧ (512 < idx.toNat ∨ 2 < word.toNat)) ∨
        (tbl = 2 ∧ (256 < idx.toNat ∨ 8 < word.toNat)) → t.rdata = 0)

/-- 10_state.md R36, R41, R43; 70_reset_and_hazards.md R222: what a CSR write other than to `CMD` does. It changes
`TSEL` (unless `BUSY`) or one entry of `CT` (only in `IDLE`, with `CT` selected), no flag and nothing else. -/
def Obligations.CsrWritesReachTselAndCountsOnly : Prop :=
  ∀ (s : State) (num : BitVec 4) (data : Word) (es : List HostEvent), s.host = .write num data :: es → num ≠ 0 →
    ∃ t, step s = .next t ∧ t = ((s.withHost es).withTsel t.tsel).withCt t.ct ∧
      t.tsel = (if num = 7 ∧ s.seq ≠ .busy then data.extractLsb' 0 16 else s.tsel) ∧
      ∀ v, v ≤ 256 → ctAt t.ct v =
        if num = 8 ∧ s.seq = .idle ∧ s.tsel.extractLsb' 0 2 = 0 ∧ s.tsel.extractLsb' 12 4 = 0 ∧
            (s.tsel.extractLsb' 2 10).toNat = v then data
        else ctAt s.ct v

/-! ## Dispatch, errors, CLEAR -/

/-- 46_control.md R170, 60_exceptions.md R195: in `ERROR` every instruction but CLEAR is ignored, `ERR` included. -/
def Obligations.ErrorIgnoresAllButClear : Prop :=
  ∀ (s : State) (i : Instr), s.seq = .error → i ≠ .clear → exec i s = .next s

/-- 70_reset_and_hazards.md R222, 46_control.md R170: in `BUSY` every instruction is ignored, CLEAR included, and so
is every write of a command or of a table word: a step that takes one changes nothing but the pending events. -/
def Obligations.BusyIgnoresCommandsAndTableWrites : Prop :=
  ∀ (s : State), s.seq = .busy →
    (∀ i : Instr, exec i s = .next s) ∧
    (∀ (num : BitVec 4) (data : Word) (es : List HostEvent), s.host = .write num data :: es →
      step s = .next (s.withHost es))

/-- 30_encoding.md R72: a reserved opcode presented in `IDLE` puts the engine into `ERROR` with
`IllegalCommandError` and `INFO = OP`, and touches nothing but `DONE`, `STATE` and `ERR`. -/
def Obligations.ReservedOpcodesRaiseIllegalCommand : Prop :=
  ∀ (s : State), s.seq = .idle → ∀ p ∈ [(Instr.illegal0, (0 : BitVec 10)), (.illegal12, 12), (.illegal13, 13),
      (.illegal14, 14), (.illegal15, 15)],
    exec p.1 s = .next { s with seq := .error, done := false, err := ⟨8, 0, p.2⟩ }

/-- 46_control.md R171; 60_exceptions.md R186: an operation whose precondition fails does not start: `DONE`, `ERR`
and `STATE` are written and nothing else, no port call is made. -/
def Obligations.FailedPreconditionsRaiseSequenceError : Prop :=
  ∀ (s : State), s.seq = .idle →
    (s.treeValid = false → ∀ p ∈ [(Instr.gencodes, (3 : BitVec 10)), (.wrtree, 5), (.decode, 10)],
      exec p.1 s = .next { s with seq := .error, done := false, err := ⟨7, 0, p.2⟩ }) ∧
    (s.codesValid = false → exec .encode s = .next { s with seq := .error, done := false, err := ⟨7, 0, 7⟩ })

/-- 46_control.md R174, R175: CLEAR, accepted in `IDLE` and in `ERROR` and ignored in `BUSY`, discards the tables,
the flags and `ERR` and touches neither the streams nor `TSEL`. -/
def Obligations.ClearDiscardsTheCall : Prop :=
  ∀ (s : State),
    (s.seq ≠ .busy → exec .clear s = .next
      { s with ct := Vector.replicate 257 0, treeValid := false, codesValid := false, root := 0x3FF, nnodes := 0,
               cur := 0x3FF, err := ⟨0, 0, 0⟩, seq := .idle, done := true }) ∧
    (s.seq = .busy → exec .clear s = .next s)

/-- 60_exceptions.md R195: the only ways out of `ERROR` are the command CLEAR and reset; until then `ERR` keeps its
value. -/
def Obligations.OnlyClearAndResetLeaveError : Prop :=
  ∀ (s t : State), s.seq = .error → step s = .next t →
    (t.seq = .error ∧ t.err = s.err) ∨
    ∃ es, s.host = .reset :: es ∨ s.host = .line .clear :: es ∨
      ∃ w, s.host = .write 0 w :: es ∧ decodeCommand w = .clear

/-- 60_exceptions.md R181, R184, R190; 20_memory.md R58; 40_count.md R103; 43_tree_codec.md R134, R143: whichever port
call of an instruction is answered `IOERR`, the first or a later one, the instruction enters `ERROR` with `IoError` and
that port's sub-code and makes no further call. What it had done up to that call stands: the sink keeps what was sent,
COUNT its counts of the words read, DECODE its `CUR`, and RDTREE has no tree. How much of the failing write itself
arrived is open (log entry 9). The last clause says it of every run whatever its data: a draw of `IOERR` that an
instruction uses up is the last it uses. -/
def Obligations.FailingPortsRaiseIoError : Prop :=
  ∀ (s : State) (i : Instr) (ds : List Draw), s.seq = .idle → s.ioCanFail = true →
    (∀ (cs : List Call) (k : Nat) (c : PortCall) (cur : NodeIx), CallsOf i s cs → cs[k]? = some (c, cur) →
      s.draws = List.replicate k .answer ++ .ioErr :: ds →
      ∃ t, exec i s = .next t ∧ t.Failed ⟨4, ioSub c, 0⟩ ∧ t.draws = ds ∧ t.cur = cur ∧
        (match c with
          | .write bits => t.srcPos = s.posAfter (cs.take k) ∧
              ∃ m, t.snkBits = s.snkBits ++ bitsSent (cs.take k) ++ bits.take m
          | .read _ | .rewind => t.srcPos ≤ s.srcBits.length ∧ t.snkBits = s.snkBits ++ bitsSent (cs.take k)) ∧
        (i = .count → ∀ b : Byte, (ctAt t.ct b.toNat).toNat = ((wordsOf s.unread).take k).count b) ∧
        (i = .rdtree → t.treeValid = false ∧ t.codesValid = false ∧ t.root = 0x3FF)) ∧
    (∀ (pre : List Draw) (t : State), (∀ d ∈ pre, d = .answer) → s.draws = pre ++ .ioErr :: ds →
      exec i s = .next t → t.draws.length ≤ ds.length →
      ∃ c : PortCall, t.Failed ⟨4, ioSub c, 0⟩ ∧ t.draws = ds ∧
        (i ∈ [Instr.count, .rdmagic, .rdtree] → ioSub c = 1) ∧ (i = .rewind → ioSub c = 3) ∧
        (i ∉ [Instr.count, .rdmagic, .rdtree, .rewind, .encode, .decode, .compress, .decompress] → ioSub c = 2) ∧
        (i ∈ [Instr.encode, .decode, .decompress] → ioSub c = 1 ∨ ioSub c = 2))

/-- 70_reset_and_hazards.md R216, R225; 00_scope.md R12: whichever port call of an instruction is never answered, the
first or a later one, the engine stays `BUSY` with that call in flight and makes no further call; the streams stand as
the calls answered before it left them, untouched by this one, and `CUR` where it was. The last clause says it of every
run whatever its data: a draw of "no answer" that an instruction uses up is the last it uses. -/
def Obligations.UnansweredPortsKeepTheEngineBusy : Prop :=
  ∀ (s : State) (i : Instr) (ds : List Draw), s.seq = .idle →
    (∀ (cs : List Call) (k : Nat) (c : PortCall) (cur : NodeIx), CallsOf i s cs → cs[k]? = some (c, cur) →
      s.draws = List.replicate k .answer ++ .silent :: ds →
      ∃ t, exec i s = .next t ∧ t.seq = .busy ∧ t.done = false ∧ t.inFlight = some c ∧ t.draws = ds ∧ t.cur = cur ∧
        t.srcBits = s.srcBits ∧ t.srcPos = s.posAfter (cs.take k) ∧
        t.snkBits = s.snkBits ++ bitsSent (cs.take k)) ∧
    (∀ (pre : List Draw) (t : State), (∀ d ∈ pre, d = .answer) → s.draws = pre ++ .silent :: ds →
      exec i s = .next t → t.draws.length ≤ ds.length →
      t.seq = .busy ∧ t.done = false ∧ t.inFlight.isSome = true ∧ t.draws = ds)

/-! ## COUNT -/

/-- 40_count.md R100, R101: COUNT completes and every entry holds the number of times its word occurs among the
complete words from the current position; the source ends at its end. -/
def Obligations.CountCountsEveryWord : Prop :=
  ∀ (s : State), s.Ready → (∀ b : Byte, (wordsOf s.unread).count b < 2 ^ 32) →
    ∃ t, exec .count s = .next t ∧ t.Completed ∧ t.srcPos = s.srcBits.length ∧
      (∀ b : Byte, (ctAt t.ct b.toNat).toNat = (wordsOf s.unread).count b) ∧ ctAt t.ct 256 = 0

/-- 40_count.md R102, R103: a word whose count is full raises `CountOverflowError` with the word as `INFO`; `CT`
holds the counts of the words before it, and it is consumed. -/
def Obligations.FullCountRaisesOverflow : Prop :=
  ∀ (s : State) (pre post : List Byte) (b : Byte), s.Ready → wordsOf s.unread = pre ++ b :: post →
    pre.count b = 2 ^ 32 - 1 → (∀ c : Byte, pre.count c < 2 ^ 32) →
    ∃ t, exec .count s = .next t ∧ t.Failed ⟨5, 0, b.setWidth 10⟩ ∧
      t.srcPos = s.srcPos + 8 * (pre.length + 1) ∧ ∀ c : Byte, (ctAt t.ct c.toNat).toNat = pre.count c

/-! ## BUILD -/

/-- 41_tree_builder.md R112: `less` is the lexicographic order on (weight, index), a strict total order. -/
def Obligations.MergeOrderIsStrictTotal : Prop :=
  (∀ a b : Live, less a b = true ↔ a.1.toNat < b.1.toNat ∨ (a.1 = b.1 ∧ a.2.toNat < b.2.toNat)) ∧
  (∀ a : Live, less a a = false) ∧
  (∀ a b c : Live, less a b = true → less b c = true → less a c = true) ∧
  (∀ a b : Live, a.2 ≠ b.2 → less a b = true ∨ less b a = true)

/-- 41_tree_builder.md R110, R111, R113, R114 (items 2, 3, 7): BUILD completes; symbol `v`'s leaf is `NODE[v]`; each
of `NODE[257..512]` is internal with two different earlier children, the left one less than the right, and weighs
their sum; `CT[256] = 1` and the other counts are unchanged. -/
def Obligations.BuildMakesAllLeavesAndMerges : Prop :=
  ∀ (s : State), s.seq = .idle →
    ∃ t, exec .build s = .next t ∧ t.Completed ∧ t.treeValid = true ∧ t.codesValid = false ∧
      t.nnodes = 513 ∧ t.root = 512 ∧
      (∀ k : NodeIx, k.toNat ≤ 255 →
        nodeAt t k = some ⟨true, k.setWidth 9, (ctAt s.ct k.toNat).setWidth 41, 0x3FF, 0x3FF⟩) ∧
      nodeAt t 256 = some ⟨true, 256, 1, 0x3FF, 0x3FF⟩ ∧
      (∀ k : NodeIx, 257 ≤ k.toNat → k.toNat ≤ 512 →
        ∃ w l r a b, nodeAt t k = some ⟨false, 0x1FF, w, l, r⟩ ∧ l.toNat < k.toNat ∧ r.toNat < k.toNat ∧
          nodeAt t l = some a ∧ nodeAt t r = some b ∧ less (a.weight, l) (b.weight, r) = true ∧
          w.toNat = a.weight.toNat + b.weight.toNat) ∧
      ctAt t.ct 256 = 1 ∧ (∀ v, v ≤ 255 → ctAt t.ct v = ctAt s.ct v)

/-- 41_tree_builder.md R110, R113, R114 (item 3): each merge takes the least and the next least of the nodes not yet
merged: at the making of node `k` no earlier node has one of `k`'s children as its child, and every earlier node that
is no earlier node's child is one of `k`'s children or greater than both. With the statement before it this fixes the
whole tree. -/
def Obligations.BuildMergesTheTwoLeast : Prop :=
  ∀ (s t : State), s.seq = .idle → exec .build s = .next t →
    ∀ (k : NodeIx) (n : Node), 257 ≤ k.toNat → nodeAt t k = some n →
      (∀ (p : NodeIx) (m : Node), 257 ≤ p.toNat → p.toNat < k.toNat → nodeAt t p = some m →
        m.left ≠ n.left ∧ m.right ≠ n.left ∧ m.left ≠ n.right ∧ m.right ≠ n.right) ∧
      (∀ (j : NodeIx) (a b c : Node), j.toNat < k.toNat →
        nodeAt t n.left = some a → nodeAt t n.right = some b → nodeAt t j = some c →
        (∀ (p : NodeIx) (m : Node), 257 ≤ p.toNat → p.toNat < k.toNat → nodeAt t p = some m →
          m.left ≠ j ∧ m.right ≠ j) →
        j = n.left ∨ j = n.right ∨
          (less (a.weight, n.left) (c.weight, j) = true ∧ less (b.weight, n.right) (c.weight, j) = true))

/-- 41_tree_builder.md R114 (item 4), R116: the root weighs the sum of all counts plus 1, for any counts, and no
sum wraps. -/
def Obligations.BuildConservesWeight : Prop :=
  ∀ (s : State), s.seq = .idle →
    ∃ t n, exec .build s = .next t ∧ nodeAt t t.root = some n ∧
      n.weight.toNat = ((List.range 256).map fun v => (ctAt s.ct v).toNat).sum + 1

/-- 41_tree_builder.md R114 (item 5): the weights of the internal nodes do not fall with the index. -/
def Obligations.BuildWeightsRise : Prop :=
  ∀ (s t : State), s.seq = .idle → exec .build s = .next t →
    ∀ (j k : NodeIx) (m n : Node), 257 ≤ j.toNat → j.toNat ≤ k.toNat → nodeAt t j = some m → nodeAt t k = some n →
      m.weight.toNat ≤ n.weight.toNat

/-- 41_tree_builder.md R117 (its last item): BUILD is a function of `CT[0..255]` alone. -/
def Obligations.BuildDependsOnTheByteCountsOnly : Prop :=
  ∀ (s s' t t' : State), s.seq = .idle → s'.seq = .idle → (∀ v, v ≤ 255 → ctAt s.ct v = ctAt s'.ct v) →
    exec .build s = .next t → exec .build s' = .next t' →
    t.node = t'.node ∧ t.root = t'.root ∧ t.nnodes = t'.nnodes

/-! ## GENCODES -/

/-- 42_code_table_gen.md R121; 10_state.md R27: the register image of a path of `n` bits: `len = n`, branch `j` is
bit `n-1-j`, the bits above are 0, and the entry's bit string is the path. -/
def Obligations.CodeImageKeepsThePath : Prop :=
  ∀ (p : List Bool), p.length ≤ 256 →
    (codeOfPath p).len.toNat = p.length ∧
    (∀ (j : Nat) (h : j < p.length), (codeOfPath p).bits.getLsbD (p.length - 1 - j) = p[j]) ∧
    (∀ i, p.length ≤ i → (codeOfPath p).bits.getLsbD i = false) ∧ (codeOfPath p).path = p

/-- 42_code_table_gen.md R120, R123; 10_state.md R28: GENCODES on a valid tree completes, and every entry is the
path of the last leaf that bears the symbol, or "no code". -/
def Obligations.GencodesWritesEveryPath : Prop :=
  ∀ (s : State), s.seq = .idle → s.treeValid = true → TreeInv s →
    ∃ t T, exec .gencodes s = .next t ∧ t.Completed ∧ t.treeValid = true ∧ t.codesValid = true ∧
      s.tree = some T ∧ ∀ v : Sym, v.toNat ≤ 256 → codeAt t.code v.toNat = T.codeOf v

/-- 42_code_table_gen.md R122: no leaf of a valid tree is deeper than 256, and 10_state.md R24 (item 5): how many
leaves and internal nodes it has. -/
def Obligations.ValidTreesHaveBoundedDepth : Prop :=
  ∀ (s : State), TreeInv s →
    ∃ T, s.tree = some T ∧ (∀ p ∈ T.paths, 1 ≤ p.1.length ∧ p.1.length ≤ 256) ∧
      2 * T.leaves = s.nnodes.toNat + 1 ∧ 2 * T.internals + 1 = s.nnodes.toNat

/-- 42_code_table_gen.md R124: after BUILD and GENCODES every one of the 257 symbols has a code. -/
def Obligations.EverySymbolHasACodeAfterBuild : Prop :=
  ∀ (s : State), s.seq = .idle →
    ∃ t u, exec .build s = .next t ∧ exec .gencodes t = .next u ∧ u.Completed ∧
      ∀ v, v ≤ 256 → 1 ≤ (codeAt u.code v).len.toNat

/-- 42_code_table_gen.md R125: the codes of two different symbols are never one a prefix of the other. -/
def Obligations.CodesArePrefixFree : Prop :=
  ∀ (s : State), TreeInv s → CodesInv s → ∀ u v : Sym, u.toNat ≤ 256 → v.toNat ≤ 256 → u ≠ v →
    (codeAt s.code u.toNat).len ≠ 0 → (codeAt s.code v.toNat).len ≠ 0 → ¬ s.codeBits u <+: s.codeBits v

/-- 42_code_table_gen.md R125: the paths of a tree's leaves fill the code space exactly (the Kraft sum is 1). -/
def Obligations.KraftSumIsOne : Prop :=
  ∀ (T : Tree) (d : Nat), (∀ p ∈ T.paths, p.1.length ≤ d) →
    (T.paths.map fun p => 2 ^ (d - p.1.length)).sum = 2 ^ d

/-! ## The Header Codec -/

/-- 43_tree_codec.md R130: WRMAGIC appends the 32-bit magic number to the sink, sets `DONE` and changes nothing
else (one pending draw is used up, log entry 5). -/
def Obligations.WrmagicAppendsTheMagicNumber : Prop :=
  ∀ (s : State), s.Ready →
    exec .wrmagic s = .next { s with seq := .idle, done := true, snkBits := s.snkBits ++ binBits s.magicTree,
                                     draws := s.draws.tail }

/-- 43_tree_codec.md R132: WRTREE on a valid tree completes and appends the tree's tokens in preorder. -/
def Obligations.WrtreeAppendsTheHeader : Prop :=
  ∀ (s : State), s.Ready → s.treeValid = true → TreeInv s →
    ∃ t T, exec .wrtree s = .next t ∧ t.Completed ∧ s.tree = some T ∧ t.snkBits = s.snkBits ++ T.header

/-- 43_tree_codec.md R133; 30_encoding.md R78: a header takes `I + 10 * F` bits, and `F = I + 1`. -/
def Obligations.HeaderLengthFollowsFromTheTree : Prop :=
  ∀ (T : Tree), T.header.length = T.internals + 10 * T.leaves ∧ T.leaves = T.internals + 1 ∧
    T.size = T.internals + T.leaves ∧ T.paths.length = T.leaves

/-- 43_tree_codec.md R135, R136: RDMAGIC completes on the magic number and raises `FormatError` on other bits
(`MISMATCH`) and on a source of fewer than 32 bits (`ABSENT`); the sink is untouched. -/
def Obligations.RdmagicChecksTheMagicNumber : Prop :=
  ∀ (s : State), s.Ready → s.srcPos ≤ s.srcBits.length →
    (∀ (m : Word) (rest : List Bool), s.unread = binBits m ++ rest →
      ∃ t, exec .rdmagic s = .next t ∧ t.srcPos = s.srcPos + 32 ∧ t.snkBits = s.snkBits ∧
        (m = s.magicTree → t.Completed) ∧ (m ≠ s.magicTree → t.Failed ⟨1, 1, 0⟩)) ∧
    (s.unread.length < 32 →
      ∃ t, exec .rdmagic s = .next t ∧ t.srcPos = s.srcBits.length ∧ t.snkBits = s.snkBits ∧
        t.Failed ⟨1, 2, 0⟩)

/-- 43_tree_codec.md R138, R139, R140: RDTREE of the header of a tree it accepts completes: the tree is that tree, its
records lie in postorder, each subtree's in one block and the root last, all weights are 0, and exactly the header is
consumed. -/
def Obligations.RdtreeLoadsTheHeadersTree : Prop :=
  ∀ (s : State) (T : Tree) (rest : List Bool), s.Ready → T.Fits → s.unread = T.header ++ rest →
    ∃ t, exec .rdtree s = .next t ∧ t.Completed ∧ t.treeValid = true ∧ t.codesValid = false ∧ t.tree = some T ∧
      t.nnodes.toNat = T.size ∧ t.root.toNat + 1 = t.nnodes.toNat ∧ t.srcPos = s.srcPos + T.header.length ∧
      Block t.node 0 T ∧ ∀ k n, nodeAt t k = some n → n.weight = 0

/-- 43_tree_codec.md R138, R142, R143: how RDTREE refuses a header, wherever in it the fault lies. `T` is any tree that
goes on as the header does up to the node numbered `k` in preorder, whose ancestors are the nodes not completed: the
arena is full before a 514th node; the data end before a tag bit or inside a symbol; a symbol is reserved; the root is
a leaf. -/
def Obligations.RdtreeRefusesBadHeaders : Prop :=
  ∀ (s : State), s.Ready → s.srcPos ≤ s.srcBits.length →
    (∀ (T : Tree) (k : Nat) (p : List Bool) (o : Option Sym) (rest : List Bool), T.nodes[k]? = some (p, o) →
      T.SymbolsBefore k →
      (k = 513 → s.unread = T.tokens k ++ rest →
        RdtreeRefuses s ⟨3, 1, 0⟩ (k - p.length) (s.srcPos + (T.tokens k).length)) ∧
      (k < 513 → s.unread = T.tokens k → RdtreeRefuses s ⟨2, 1, 0⟩ (k - p.length) s.srcBits.length) ∧
      (k < 513 → s.unread = T.tokens k ++ true :: rest → rest.length < 9 →
        RdtreeRefuses s ⟨2, 2, 0⟩ (k - p.length) s.srcBits.length) ∧
      (∀ v : Sym, k < 513 → s.unread = T.tokens k ++ true :: (binBits v ++ rest) → 256 < v.toNat →
        RdtreeRefuses s ⟨3, 2, v.setWidth 10⟩ (k - p.length) (s.srcPos + (T.tokens k).length + 10))) ∧
    (∀ (v : Sym) (rest : List Bool), s.unread = true :: (binBits v ++ rest) → v.toNat ≤ 256 →
      RdtreeRefuses s ⟨3, 3, v.setWidth 10⟩ 1 (s.srcPos + 10))

/-- 60_exceptions.md R183; 43_tree_codec.md R143: a header that ends early, wherever it is cut, is a
`TruncatedInputError` (`HDR_TAG` or `HDR_SYM`), and the source stands at its end. -/
def Obligations.CutHeadersAreTruncatedInput : Prop :=
  ∀ (s : State) (T : Tree) (cut : List Bool), s.Ready → s.srcPos ≤ s.srcBits.length → T.Fits →
    s.unread ++ cut = T.header → cut ≠ [] →
    ∃ t, exec .rdtree s = .next t ∧ t.srcPos = s.srcBits.length ∧ t.treeValid = false ∧
      (t.Failed ⟨2, 1, 0⟩ ∨ t.Failed ⟨2, 2, 0⟩)

/-- 43_tree_codec.md R141, R134: what WRTREE writes, RDTREE reads back from a source that holds it: the same tree,
hence the same code table and the same header again; all weights are 0; nothing behind the header is read. -/
def Obligations.CodecGivesTheTreeBack : Prop :=
  ∀ (s u : State) (rest : List Bool), s.Ready → s.treeValid = true → TreeInv s → u.Ready →
    ∃ t header v w x y, exec .wrtree s = .next t ∧ t.snkBits = s.snkBits ++ header ∧
      exec .rdtree (u.withStreams (header ++ rest)) = .next v ∧ v.Completed ∧ v.tree = s.tree ∧ v.unread = rest ∧
      (∀ k n, nodeAt v k = some n → n.weight = 0) ∧
      exec .gencodes s = .next w ∧ exec .gencodes v = .next x ∧ w.code = x.code ∧
      exec .wrtree v = .next y ∧ y.snkBits = header

/-! ## REWIND, ENCODE, DECODE -/

/-- 46_control.md R172, R173: REWIND moves the source to its first bit, sets `DONE` and changes nothing else (one
pending draw is used up, log entry 5). -/
def Obligations.RewindMovesTheSourceToItsStart : Prop :=
  ∀ (s : State), s.Ready →
    exec .rewind s = .next { s with seq := .idle, done := true, srcPos := 0, draws := s.draws.tail }

/-- 44_encoder.md R150, R151, R155: ENCODE completes where every symbol it meets has a code, and appends the code of
each word, then the pseudo-EOF's. -/
def Obligations.EncodeAppendsTheCodes : Prop :=
  ∀ (s : State), s.Ready → s.codesValid = true →
    (∀ b ∈ wordsOf s.unread, (codeAt s.code b.toNat).len ≠ 0) → (codeAt s.code 256).len ≠ 0 →
    ∃ t, exec .encode s = .next t ∧ t.Completed ∧ t.srcPos = s.srcBits.length ∧
      t.snkBits = s.snkBits ++ (wordsOf s.unread).flatMap (fun b => s.codeBits (b.setWidth 9)) ++ s.codeBits 256

/-- 44_encoder.md R152: a symbol without a code raises `NoCodeError` with the symbol as `INFO`; what was sent before
it stays in the sink. -/
def Obligations.MissingCodeRaisesNoCode : Prop :=
  ∀ (s : State), s.Ready → s.codesValid = true →
    (∀ (pre post : List Byte) (b : Byte), wordsOf s.unread = pre ++ b :: post →
      (∀ c ∈ pre, (codeAt s.code c.toNat).len ≠ 0) → (codeAt s.code b.toNat).len = 0 →
      ∃ t, exec .encode s = .next t ∧ t.Failed ⟨6, 0, b.setWidth 10⟩ ∧
        t.snkBits = s.snkBits ++ pre.flatMap fun c => s.codeBits (c.setWidth 9)) ∧
    ((∀ c ∈ wordsOf s.unread, (codeAt s.code c.toNat).len ≠ 0) → (codeAt s.code 256).len = 0 →
      ∃ t, exec .encode s = .next t ∧ t.Failed ⟨6, 0, 256⟩ ∧
        t.snkBits = s.snkBits ++ (wordsOf s.unread).flatMap fun c => s.codeBits (c.setWidth 9))

/-- 45_decoder.md R160, R161, R162; 10_state.md R29: on a body made of paths of the tree's leaves, ended by the path of
a pseudo-EOF leaf, DECODE completes: it writes each leaf's symbol in 8 bits, stops on the pseudo-EOF leaf and reads no further. -/
def Obligations.DecodeWritesTheLeavesReached : Prop :=
  ∀ (s : State) (T : Tree) (ls : List (List Bool × Sym)) (e : List Bool) (rest : List Bool), s.Ready →
    s.treeValid = true → TreeInv s → s.tree = some T → (∀ l ∈ ls, l ∈ T.paths ∧ l.2 ≠ 256) →
    (e, (256 : Sym)) ∈ T.paths → s.unread = ls.flatMap Prod.fst ++ e ++ rest →
    ∃ t n, exec .decode s = .next t ∧ t.Completed ∧
      t.snkBits = s.snkBits ++ ls.flatMap (fun l => binBits (l.2.setWidth 8)) ∧
      t.srcPos = s.srcPos + (ls.flatMap Prod.fst ++ e).length ∧ t.cur = descend s s.root e ∧ nodeAt t t.cur = some n ∧
      n.leaf = true ∧ n.value = 256

/-- 45_decoder.md R161, R163; 10_state.md R29; 60_exceptions.md R183: a body that ends before a pseudo-EOF leaf is
reached, between two codes or inside one, raises `TruncatedInputError(BODY)`; the words before it stay in the sink and
`CUR` at the node reached. -/
def Obligations.CutBodiesAreTruncatedInput : Prop :=
  ∀ (s : State) (T : Tree) (ls : List (List Bool × Sym)) (p cut : List Bool) (v : Sym), s.Ready →
    s.treeValid = true → TreeInv s → s.tree = some T → (∀ l ∈ ls, l ∈ T.paths ∧ l.2 ≠ 256) →
    (p ++ cut, v) ∈ T.paths → cut ≠ [] → s.srcPos ≤ s.srcBits.length → s.unread = ls.flatMap Prod.fst ++ p →
    ∃ t, exec .decode s = .next t ∧ t.Failed ⟨2, 3, 0⟩ ∧ t.srcPos = s.srcBits.length ∧
      t.cur = descend s s.root p ∧ t.snkBits = s.snkBits ++ ls.flatMap fun l => binBits (l.2.setWidth 8)

/-! ## The stream elements and the two data flows -/

/-- 30_encoding.md R74 to R76, R79, R82: the transfer of a stream element appends its bits to the sink and changes
nothing else; a reserved leaf value raises what its reader raises (R77). That an element is an instruction of its
own is the model's choice (log entry 7). -/
def Obligations.ElementsAppendTheirBits : Prop :=
  ∀ (s : State), s.Ready →
    exec .streamMagic s = .next { s with snkBits := s.snkBits ++ binBits s.magicTree, draws := s.draws.tail } ∧
    exec .streamHeaderInternal s = .next { s with snkBits := s.snkBits ++ [false], draws := s.draws.tail } ∧
    (∀ v : Sym, v.toNat ≤ 256 → exec (.streamHeaderLeaf v) s =
      .next { s with snkBits := s.snkBits ++ true :: binBits v, draws := s.draws.drop 2 }) ∧
    (∀ v : Sym, 256 < v.toNat → exec (.streamHeaderLeaf v) s =
      .next { s with seq := .error, done := false, err := ⟨3, 2, v.setWidth 10⟩ }) ∧
    (∀ c : List Bool, exec (.streamBodyCode c) s =
      .next { s with snkBits := s.snkBits ++ c, draws := s.draws.drop c.length }) ∧
    (∀ c : List Bool, exec (.streamBodyPseudoEof c) s =
      .next { s with snkBits := s.snkBits ++ c, draws := s.draws.drop c.length }) ∧
    (∀ w : Byte, exec (.streamWord w) s =
      .next { s with snkBits := s.snkBits ++ binBits w, draws := s.draws.tail })

/-- 46_control.md R178; 30_encoding.md R73, R85: COMPRESS on a source of whole words at its start, no byte occurring
`2^32` times, completes, and the sink gains the magic number, the header of the tree and the body. -/
def Obligations.CompressWritesTheStream : Prop :=
  ∀ (s : State) (words : List Byte), s.Ready → s.srcBits = bitsOfBytes words → s.srcPos = 0 →
    (∀ b : Byte, words.count b < 2 ^ 32) →
    ∃ t T, exec .compress s = .next t ∧ t.Completed ∧ t.treeValid = true ∧ t.codesValid = true ∧
      t.tree = some T ∧ T.header.length = 2826 ∧ t.srcPos = s.srcBits.length ∧
      t.snkBits = s.snkBits ++ binBits s.magicTree ++ T.header ++
        words.flatMap (fun b => t.codeBits (b.setWidth 9)) ++ t.codeBits 256

/-- 46_control.md R179; 30_encoding.md R73, R85: DECOMPRESS on a stream of the magic number, the header of a tree
RDTREE accepts and a body over that tree's leaves completes and writes the words. -/
def Obligations.DecompressWritesTheWords : Prop :=
  ∀ (s : State) (T : Tree) (ls : List (List Bool × Sym)) (e rest : List Bool), s.Ready → T.Fits →
    (∀ l ∈ ls, l ∈ T.paths ∧ l.2 ≠ 256) → (e, (256 : Sym)) ∈ T.paths →
    s.unread = binBits s.magicTree ++ T.header ++ ls.flatMap Prod.fst ++ e ++ rest →
    ∃ t, exec .decompress s = .next t ∧ t.Completed ∧ t.tree = some T ∧ t.unread = rest ∧
      t.snkBits = s.snkBits ++ ls.flatMap fun l => binBits (l.2.setWidth 8)

/-- 45_decoder.md R166: DECOMPRESS, on any engine with the same magic number, of what COMPRESS wrote gives the words
back, whatever follows the stream. -/
def Obligations.RoundTripGivesTheWordsBack : Prop :=
  ∀ (s u : State) (words : List Byte) (fill : List Bool), s.Ready → s.srcBits = bitsOfBytes words → s.srcPos = 0 →
    s.snkBits = [] → (∀ b : Byte, words.count b < 2 ^ 32) → u.Ready → u.magicTree = s.magicTree →
    ∃ t v, exec .compress s = .next t ∧ exec .decompress (u.withStreams (t.snkBits ++ fill)) = .next v ∧
      v.Completed ∧ v.snkBits = bitsOfBytes words ∧ v.unread = fill

/-! ## Frames -/

/-- 40_count.md R100, 43_tree_codec.md R135, 46_control.md R173: COUNT, RDMAGIC and REWIND leave every table but
`CT` (COUNT alone writes it), every register and flag but `STATE`, `DONE` and `ERR`, and the sink as they were.
That `csr_rdata` keeps its last answer is the model's choice (log entry 3). -/
def Obligations.FrameOfCountRdmagicRewind : Prop :=
  ∀ (s t : State), ∀ i ∈ [Instr.count, .rdmagic, .rewind], exec i s = .next t →
    t.node = s.node ∧ t.root = s.root ∧ t.nnodes = s.nnodes ∧ t.code = s.code ∧ t.cur = s.cur ∧
    t.treeValid = s.treeValid ∧ t.codesValid = s.codesValid ∧ t.tsel = s.tsel ∧ t.magicTree = s.magicTree ∧
    t.ioCanFail = s.ioCanFail ∧ t.srcBits = s.srcBits ∧ t.snkBits = s.snkBits ∧ t.host = s.host ∧
    t.rdata = s.rdata ∧ (t.seq ≠ .error → t.err = s.err) ∧ (t.seq ≠ .busy → t.inFlight = s.inFlight) ∧
    (i ≠ .count → t.ct = s.ct)

/-- 41_tree_builder.md R110, 42_code_table_gen.md R126: BUILD leaves everything but the tree, the valid flags,
`CT[256]`, `STATE`, `DONE` and `ERR` as it was; GENCODES everything but `CODE`, `CODES_VALID`, `STATE`, `DONE` and
`ERR`; neither makes a port call.
That `csr_rdata` keeps its last answer is the model's choice (log entry 3). -/
def Obligations.FrameOfBuildGencodes : Prop :=
  ∀ (s t : State), ∀ i ∈ [Instr.build, .gencodes], exec i s = .next t →
    t.cur = s.cur ∧ t.tsel = s.tsel ∧ t.inFlight = s.inFlight ∧ t.magicTree = s.magicTree ∧
    t.ioCanFail = s.ioCanFail ∧ t.srcBits = s.srcBits ∧ t.srcPos = s.srcPos ∧ t.snkBits = s.snkBits ∧
    t.draws = s.draws ∧ t.host = s.host ∧ t.rdata = s.rdata ∧ t.freeIx = s.freeIx ∧
    (t.seq ≠ .error → t.err = s.err) ∧ (∀ v, v ≤ 255 → ctAt t.ct v = ctAt s.ct v) ∧
    (i = .build → t.code = s.code) ∧
    (i = .gencodes → t.ct = s.ct ∧ t.node = s.node ∧ t.root = s.root ∧ t.nnodes = s.nnodes ∧
      t.treeValid = s.treeValid)

/-- 20_memory.md R52, R62; 43_tree_codec.md R130, R132; 44_encoder.md R150; 30_encoding.md R74 to R82: WRMAGIC,
WRTREE, ENCODE and the stream elements only append to the sink; every table, register and flag but `STATE`, `DONE`
and `ERR` is as it was, and only ENCODE moves the source. That a stream element runs by itself is the model's choice
(log entry 7).
That `csr_rdata` keeps its last answer is the model's choice (log entry 3). -/
def Obligations.FrameOfTheSinkWriters : Prop :=
  ∀ (s t : State) (i : Instr), (i ∈ [Instr.wrmagic, .wrtree, .encode, .streamMagic, .streamHeaderInternal] ∨
      (∃ v, i = .streamHeaderLeaf v) ∨ (∃ c, i = .streamBodyCode c) ∨ (∃ c, i = .streamBodyPseudoEof c) ∨
      ∃ w, i = .streamWord w) → exec i s = .next t →
    t.ct = s.ct ∧ t.node = s.node ∧ t.root = s.root ∧ t.nnodes = s.nnodes ∧ t.code = s.code ∧ t.cur = s.cur ∧
    t.treeValid = s.treeValid ∧ t.codesValid = s.codesValid ∧ t.tsel = s.tsel ∧ t.magicTree = s.magicTree ∧
    t.ioCanFail = s.ioCanFail ∧ t.srcBits = s.srcBits ∧ (i ≠ .encode → t.srcPos = s.srcPos) ∧ t.host = s.host ∧
    t.rdata = s.rdata ∧ (t.seq ≠ .error → t.err = s.err) ∧ (t.seq ≠ .busy → t.inFlight = s.inFlight) ∧
    s.snkBits <+: t.snkBits

/-- 43_tree_codec.md R138, 45_decoder.md R160, 46_control.md R178, R179: RDTREE leaves `CT`, `CODE`, `CUR`, `TSEL`
and the sink as they were; DECODE every table, `ROOT`, `NNODES`, both valid flags and `TSEL`; DECOMPRESS `CT`, `CODE`
and `TSEL`; COMPRESS `CUR` and `TSEL`; each only appends to the sink.
That `csr_rdata` keeps its last answer is the model's choice (log entry 3). -/
def Obligations.FrameOfTheReadersAndTheSequences : Prop :=
  ∀ (s t : State), ∀ i ∈ [Instr.rdtree, .decode, .compress, .decompress], exec i s = .next t →
    t.tsel = s.tsel ∧ t.magicTree = s.magicTree ∧ t.ioCanFail = s.ioCanFail ∧ t.srcBits = s.srcBits ∧
    t.host = s.host ∧ t.rdata = s.rdata ∧ (t.seq ≠ .error → t.err = s.err) ∧
    (t.seq ≠ .busy → t.inFlight = s.inFlight) ∧ s.snkBits <+: t.snkBits ∧
    (i ≠ .compress → t.ct = s.ct ∧ t.code = s.code) ∧
    (i = .rdtree ∨ i = .compress → t.cur = s.cur) ∧ (i = .rdtree → t.snkBits = s.snkBits) ∧
    (i = .decode → t.node = s.node ∧ t.root = s.root ∧ t.nnodes = s.nnodes ∧ t.treeValid = s.treeValid ∧
      t.codesValid = s.codesValid)

/-! ## The whole machine -/

/-- The invariants of 10_state.md R23, R24, R28 to R34 hold after reset. -/
def Obligations.ResetMeetsTheInvariants : Prop := Inv State.reset

/-- 10_state.md R24, R28 to R34; 20_memory.md R51: every step keeps the invariants, from every state that meets
them. -/
def Obligations.StepKeepsTheInvariants : Prop :=
  ∀ (s t : State), Inv s → step s = .next t → Inv t

/-- 70_reset_and_hazards.md R228; 10_state.md R24: from a state that meets the invariants a step never stops: every
instruction in every mode answers a next state, for every source, sink, draw and host event. -/
def Obligations.StepNeverStops : Prop :=
  ∀ (s : State), Inv s → ∃ t, step s = .next t

/-- 10_state.md R40, 20_memory.md R51, R52: no step changes the instance's parameters; none but attaching a stream
pair changes the source's bits or takes a bit out of the sink. -/
def Obligations.StreamsAndParametersAreKept : Prop :=
  ∀ (s t : State), step s = .next t →
    t.magicTree = s.magicTree ∧ t.ioCanFail = s.ioCanFail ∧
    ((∀ bits es, s.host ≠ .attach bits :: es) → t.srcBits = s.srcBits ∧ s.snkBits <+: t.snkBits)

/-- 10_state.md R26: a tree is immutable: no step but one that runs BUILD, RDTREE, CLEAR (or a sequence that holds
one of them) or that is a reset changes a record, `ROOT` or `NNODES`. -/
def Obligations.TreesAreImmutable : Prop :=
  ∀ (s t : State), step s = .next t → (∀ es, s.host ≠ .reset :: es) →
    (∀ i s', nextEvent s = .run i s' → i ∉ [Instr.build, .rdtree, .clear, .compress, .decompress]) →
    t.node = s.node ∧ t.root = s.root ∧ t.nnodes = s.nnodes

/-- 10_state.md R34, 20_memory.md R69: a code table never outlives the tree it was made from: after any instruction
that leaves `CODES_VALID` = 1, GENCODES has just made the table, or neither it nor the tree has changed. -/
def Obligations.CodeTablesNeverOutliveTheirTree : Prop :=
  ∀ (s t : State) (i : Instr), exec i s = .next t → t.codesValid = true → i ≠ .gencodes → i ≠ .compress →
    s.codesValid = true ∧ t.code = s.code ∧ t.node = s.node ∧ t.root = s.root ∧ t.nnodes = s.nnodes
end

