-- ==== Sys2Proof/Laws/Bits.lean ====
section
/-! SUPPORT. Bit strings: lengths, and writing then reading a value gives it back. -/

namespace Sys2Proof

@[simp] theorem binBits_length {n : Nat} (v : BitVec n) : (binBits v).length = n := by simp [binBits]

theorem binBits_getElem {n : Nat} (v : BitVec n) (i : Nat) (h : i < (binBits v).length) :
    (binBits v)[i] = v.getMsbD i := by simp [binBits]

@[simp] theorem bitsVal_nil : bitsVal [] = 0 := rfl

theorem bitsVal_append (a b : List Bool) : bitsVal (a ++ b) = bitsVal a * 2 ^ b.length + bitsVal b := by
  have h : ∀ (l : List Bool) (acc : Nat),
      l.foldl (fun acc b => 2 * acc + b.toNat) acc = acc * 2 ^ l.length + bitsVal l := by
    intro l
    induction l with
    | nil => intro acc; simp
    | cons x xs ih =>
      intro acc
      simp only [bitsVal, List.foldl_cons, List.length_cons]
      rw [ih, ih (2 * 0 + x.toNat), Nat.pow_succ]
      ring
  rw [bitsVal, List.foldl_append, h b]
  rfl

theorem bitsVal_cons (b : Bool) (l : List Bool) : bitsVal (b :: l) = b.toNat * 2 ^ l.length + bitsVal l := by
  simpa [bitsVal] using bitsVal_append [b] l

theorem bitsVal_concat (l : List Bool) (b : Bool) : bitsVal (l ++ [b]) = 2 * bitsVal l + b.toNat := by
  simp [bitsVal]

theorem bitsVal_lt (l : List Bool) : bitsVal l < 2 ^ l.length := by
  induction l with
  | nil => simp
  | cons b l ih =>
    rw [bitsVal_cons, List.length_cons, Nat.pow_succ]
    have := Bool.toNat_le b
    nlinarith [Nat.two_pow_pos l.length]

/-- Bit `j` from the right of a string is bit `j` of its value. -/
theorem bitsVal_testBit (l : List Bool) (j : Nat) (h : j < l.length) :
    (bitsVal l).testBit j = l[l.length - 1 - j]'(by omega) := by
  induction l using List.reverseRecOn generalizing j with
  | nil => simp at h
  | append_singleton l b ih =>
    rw [bitsVal_concat]
    cases j with
    | zero =>
      cases b <;> simp [Nat.testBit_zero]
    | succ j =>
      have hj : j < l.length := by simpa using h
      have hdiv : (2 * bitsVal l + b.toNat) / 2 = bitsVal l := by
        have := Bool.toNat_lt b
        omega
      rw [Nat.testBit_succ, hdiv, ih j hj]
      have he : (l ++ [b]).length - 1 - (j + 1) = l.length - 1 - j := by simp; omega
      simp only [he]
      rw [List.getElem_append_left]

@[simp] theorem ofBits_binBits {n : Nat} (v : BitVec n) : ofBits n (binBits v) = v := by
  apply BitVec.eq_of_getLsbD_eq
  intro i hi
  rw [ofBits, BitVec.getLsbD_ofNat, bitsVal_testBit _ _ (by simpa using hi), binBits_getElem]
  simp only [hi, decide_true, Bool.true_and, binBits_length, BitVec.getMsbD]
  have h1 : n - 1 - i < n := by omega
  have h2 : n - 1 - (n - 1 - i) = i := by omega
  simp [h1, h2]

theorem bitsVal_binBits {n : Nat} (v : BitVec n) : bitsVal (binBits v) = v.toNat := by
  have h := congrArg BitVec.toNat (ofBits_binBits v)
  have hl : bitsVal (binBits v) < 2 ^ n := by simpa using bitsVal_lt (binBits v)
  simpa [ofBits, Nat.mod_eq_of_lt hl] using h

/-- Reading then writing a string of `n` bits gives it back. -/
theorem binBits_ofBits {n : Nat} (l : List Bool) (h : l.length = n) : binBits (ofBits n l) = l := by
  apply List.ext_getElem (by simpa using h.symm)
  intro i h1 h2
  have hi : i < n := by simpa using h1
  rw [binBits_getElem, BitVec.getMsbD, ofBits, BitVec.getLsbD_ofNat, bitsVal_testBit _ _ (by omega)]
  have hj : l.length - 1 - (n - 1 - i) = i := by omega
  have hk : n - 1 - i < n := by omega
  simp [hi, hk, hj]

@[simp] theorem bitsOfBytes_nil : bitsOfBytes [] = [] := rfl

@[simp] theorem bitsOfBytes_cons (b : Byte) (bs : List Byte) : bitsOfBytes (b :: bs) = binBits b ++ bitsOfBytes bs :=
  rfl

@[simp] theorem bitsOfBytes_append (a b : List Byte) : bitsOfBytes (a ++ b) = bitsOfBytes a ++ bitsOfBytes b := by
  simp [bitsOfBytes]

theorem bitsOfBytes_length (bs : List Byte) : (bitsOfBytes bs).length = 8 * bs.length := by
  induction bs with
  | nil => rfl
  | cons b bs ih => simp [ih]; omega

end Sys2Proof
end

