-- ==== Sys2Proof/Laws/State.lean ====
section
/-! SUPPORT. One lemma per field per update of the state, so that no proof unfolds a record update. -/

namespace Sys2Proof.Machine.State

@[simp] theorem withSeq_ct (s : State) (q : Seq) (d : Bool) : (s.withSeq q d).ct = s.ct := rfl
@[simp] theorem withSeq_node (s : State) (q : Seq) (d : Bool) : (s.withSeq q d).node = s.node := rfl
@[simp] theorem withSeq_root (s : State) (q : Seq) (d : Bool) : (s.withSeq q d).root = s.root := rfl
@[simp] theorem withSeq_nnodes (s : State) (q : Seq) (d : Bool) : (s.withSeq q d).nnodes = s.nnodes := rfl
@[simp] theorem withSeq_code (s : State) (q : Seq) (d : Bool) : (s.withSeq q d).code = s.code := rfl
@[simp] theorem withSeq_cur (s : State) (q : Seq) (d : Bool) : (s.withSeq q d).cur = s.cur := rfl
@[simp] theorem withSeq_seq (s : State) (q : Seq) (d : Bool) : (s.withSeq q d).seq = q := rfl
@[simp] theorem withSeq_done (s : State) (q : Seq) (d : Bool) : (s.withSeq q d).done = d := rfl
@[simp] theorem withSeq_err (s : State) (q : Seq) (d : Bool) : (s.withSeq q d).err = s.err := rfl
@[simp] theorem withSeq_treeValid (s : State) (q : Seq) (d : Bool) : (s.withSeq q d).treeValid = s.treeValid := rfl
@[simp] theorem withSeq_codesValid (s : State) (q : Seq) (d : Bool) : (s.withSeq q d).codesValid = s.codesValid := rfl
@[simp] theorem withSeq_tsel (s : State) (q : Seq) (d : Bool) : (s.withSeq q d).tsel = s.tsel := rfl
@[simp] theorem withSeq_inFlight (s : State) (q : Seq) (d : Bool) : (s.withSeq q d).inFlight = s.inFlight := rfl
@[simp] theorem withSeq_magicTree (s : State) (q : Seq) (d : Bool) : (s.withSeq q d).magicTree = s.magicTree := rfl
@[simp] theorem withSeq_ioCanFail (s : State) (q : Seq) (d : Bool) : (s.withSeq q d).ioCanFail = s.ioCanFail := rfl
@[simp] theorem withSeq_srcBits (s : State) (q : Seq) (d : Bool) : (s.withSeq q d).srcBits = s.srcBits := rfl
@[simp] theorem withSeq_srcPos (s : State) (q : Seq) (d : Bool) : (s.withSeq q d).srcPos = s.srcPos := rfl
@[simp] theorem withSeq_snkBits (s : State) (q : Seq) (d : Bool) : (s.withSeq q d).snkBits = s.snkBits := rfl
@[simp] theorem withSeq_draws (s : State) (q : Seq) (d : Bool) : (s.withSeq q d).draws = s.draws := rfl
@[simp] theorem withSeq_host (s : State) (q : Seq) (d : Bool) : (s.withSeq q d).host = s.host := rfl
@[simp] theorem withSeq_rdata (s : State) (q : Seq) (d : Bool) : (s.withSeq q d).rdata = s.rdata := rfl
@[simp] theorem withSeq_freeIx (s : State) (q : Seq) (d : Bool) : (s.withSeq q d).freeIx = s.freeIx := rfl

@[simp] theorem withErr_ct (s : State) (e : ErrReg) : (s.withErr e).ct = s.ct := rfl
@[simp] theorem withErr_node (s : State) (e : ErrReg) : (s.withErr e).node = s.node := rfl
@[simp] theorem withErr_root (s : State) (e : ErrReg) : (s.withErr e).root = s.root := rfl
@[simp] theorem withErr_nnodes (s : State) (e : ErrReg) : (s.withErr e).nnodes = s.nnodes := rfl
@[simp] theorem withErr_code (s : State) (e : ErrReg) : (s.withErr e).code = s.code := rfl
@[simp] theorem withErr_cur (s : State) (e : ErrReg) : (s.withErr e).cur = s.cur := rfl
@[simp] theorem withErr_seq (s : State) (e : ErrReg) : (s.withErr e).seq = s.seq := rfl
@[simp] theorem withErr_done (s : State) (e : ErrReg) : (s.withErr e).done = s.done := rfl
@[simp] theorem withErr_err (s : State) (e : ErrReg) : (s.withErr e).err = e := rfl
@[simp] theorem withErr_treeValid (s : State) (e : ErrReg) : (s.withErr e).treeValid = s.treeValid := rfl
@[simp] theorem withErr_codesValid (s : State) (e : ErrReg) : (s.withErr e).codesValid = s.codesValid := rfl
@[simp] theorem withErr_tsel (s : State) (e : ErrReg) : (s.withErr e).tsel = s.tsel := rfl
@[simp] theorem withErr_inFlight (s : State) (e : ErrReg) : (s.withErr e).inFlight = s.inFlight := rfl
@[simp] theorem withErr_magicTree (s : State) (e : ErrReg) : (s.withErr e).magicTree = s.magicTree := rfl
@[simp] theorem withErr_ioCanFail (s : State) (e : ErrReg) : (s.withErr e).ioCanFail = s.ioCanFail := rfl
@[simp] theorem withErr_srcBits (s : State) (e : ErrReg) : (s.withErr e).srcBits = s.srcBits := rfl
@[simp] theorem withErr_srcPos (s : State) (e : ErrReg) : (s.withErr e).srcPos = s.srcPos := rfl
@[simp] theorem withErr_snkBits (s : State) (e : ErrReg) : (s.withErr e).snkBits = s.snkBits := rfl
@[simp] theorem withErr_draws (s : State) (e : ErrReg) : (s.withErr e).draws = s.draws := rfl
@[simp] theorem withErr_host (s : State) (e : ErrReg) : (s.withErr e).host = s.host := rfl
@[simp] theorem withErr_rdata (s : State) (e : ErrReg) : (s.withErr e).rdata = s.rdata := rfl
@[simp] theorem withErr_freeIx (s : State) (e : ErrReg) : (s.withErr e).freeIx = s.freeIx := rfl

@[simp] theorem withCt_ct (s : State) (ct : Vector Word 257) : (s.withCt ct).ct = ct := rfl
@[simp] theorem withCt_node (s : State) (ct : Vector Word 257) : (s.withCt ct).node = s.node := rfl
@[simp] theorem withCt_root (s : State) (ct : Vector Word 257) : (s.withCt ct).root = s.root := rfl
@[simp] theorem withCt_nnodes (s : State) (ct : Vector Word 257) : (s.withCt ct).nnodes = s.nnodes := rfl
@[simp] theorem withCt_code (s : State) (ct : Vector Word 257) : (s.withCt ct).code = s.code := rfl
@[simp] theorem withCt_cur (s : State) (ct : Vector Word 257) : (s.withCt ct).cur = s.cur := rfl
@[simp] theorem withCt_seq (s : State) (ct : Vector Word 257) : (s.withCt ct).seq = s.seq := rfl
@[simp] theorem withCt_done (s : State) (ct : Vector Word 257) : (s.withCt ct).done = s.done := rfl
@[simp] theorem withCt_err (s : State) (ct : Vector Word 257) : (s.withCt ct).err = s.err := rfl
@[simp] theorem withCt_treeValid (s : State) (ct : Vector Word 257) : (s.withCt ct).treeValid = s.treeValid := rfl
@[simp] theorem withCt_codesValid (s : State) (ct : Vector Word 257) : (s.withCt ct).codesValid = s.codesValid := rfl
@[simp] theorem withCt_tsel (s : State) (ct : Vector Word 257) : (s.withCt ct).tsel = s.tsel := rfl
@[simp] theorem withCt_inFlight (s : State) (ct : Vector Word 257) : (s.withCt ct).inFlight = s.inFlight := rfl
@[simp] theorem withCt_magicTree (s : State) (ct : Vector Word 257) : (s.withCt ct).magicTree = s.magicTree := rfl
@[simp] theorem withCt_ioCanFail (s : State) (ct : Vector Word 257) : (s.withCt ct).ioCanFail = s.ioCanFail := rfl
@[simp] theorem withCt_srcBits (s : State) (ct : Vector Word 257) : (s.withCt ct).srcBits = s.srcBits := rfl
@[simp] theorem withCt_srcPos (s : State) (ct : Vector Word 257) : (s.withCt ct).srcPos = s.srcPos := rfl
@[simp] theorem withCt_snkBits (s : State) (ct : Vector Word 257) : (s.withCt ct).snkBits = s.snkBits := rfl
@[simp] theorem withCt_draws (s : State) (ct : Vector Word 257) : (s.withCt ct).draws = s.draws := rfl
@[simp] theorem withCt_host (s : State) (ct : Vector Word 257) : (s.withCt ct).host = s.host := rfl
@[simp] theorem withCt_rdata (s : State) (ct : Vector Word 257) : (s.withCt ct).rdata = s.rdata := rfl
@[simp] theorem withCt_freeIx (s : State) (ct : Vector Word 257) : (s.withCt ct).freeIx = s.freeIx := rfl

@[simp] theorem withTree_ct (s : State) (node : Vector Node 513) (root : NodeIx) (nnodes : BitVec 10) : (s.withTree node root nnodes).ct = s.ct := rfl
@[simp] theorem withTree_node (s : State) (node : Vector Node 513) (root : NodeIx) (nnodes : BitVec 10) : (s.withTree node root nnodes).node = node := rfl
@[simp] theorem withTree_root (s : State) (node : Vector Node 513) (root : NodeIx) (nnodes : BitVec 10) : (s.withTree node root nnodes).root = root := rfl
@[simp] theorem withTree_nnodes (s : State) (node : Vector Node 513) (root : NodeIx) (nnodes : BitVec 10) : (s.withTree node root nnodes).nnodes = nnodes := rfl
@[simp] theorem withTree_code (s : State) (node : Vector Node 513) (root : NodeIx) (nnodes : BitVec 10) : (s.withTree node root nnodes).code = s.code := rfl
@[simp] theorem withTree_cur (s : State) (node : Vector Node 513) (root : NodeIx) (nnodes : BitVec 10) : (s.withTree node root nnodes).cur = s.cur := rfl
@[simp] theorem withTree_seq (s : State) (node : Vector Node 513) (root : NodeIx) (nnodes : BitVec 10) : (s.withTree node root nnodes).seq = s.seq := rfl
@[simp] theorem withTree_done (s : State) (node : Vector Node 513) (root : NodeIx) (nnodes : BitVec 10) : (s.withTree node root nnodes).done = s.done := rfl
@[simp] theorem withTree_err (s : State) (node : Vector Node 513) (root : NodeIx) (nnodes : BitVec 10) : (s.withTree node root nnodes).err = s.err := rfl
@[simp] theorem withTree_treeValid (s : State) (node : Vector Node 513) (root : NodeIx) (nnodes : BitVec 10) : (s.withTree node root nnodes).treeValid = s.treeValid := rfl
@[simp] theorem withTree_codesValid (s : State) (node : Vector Node 513) (root : NodeIx) (nnodes : BitVec 10) : (s.withTree node root nnodes).codesValid = s.codesValid := rfl
@[simp] theorem withTree_tsel (s : State) (node : Vector Node 513) (root : NodeIx) (nnodes : BitVec 10) : (s.withTree node root nnodes).tsel = s.tsel := rfl
@[simp] theorem withTree_inFlight (s : State) (node : Vector Node 513) (root : NodeIx) (nnodes : BitVec 10) : (s.withTree node root nnodes).inFlight = s.inFlight := rfl
@[simp] theorem withTree_magicTree (s : State) (node : Vector Node 513) (root : NodeIx) (nnodes : BitVec 10) : (s.withTree node root nnodes).magicTree = s.magicTree := rfl
@[simp] theorem withTree_ioCanFail (s : State) (node : Vector Node 513) (root : NodeIx) (nnodes : BitVec 10) : (s.withTree node root nnodes).ioCanFail = s.ioCanFail := rfl
@[simp] theorem withTree_srcBits (s : State) (node : Vector Node 513) (root : NodeIx) (nnodes : BitVec 10) : (s.withTree node root nnodes).srcBits = s.srcBits := rfl
@[simp] theorem withTree_srcPos (s : State) (node : Vector Node 513) (root : NodeIx) (nnodes : BitVec 10) : (s.withTree node root nnodes).srcPos = s.srcPos := rfl
@[simp] theorem withTree_snkBits (s : State) (node : Vector Node 513) (root : NodeIx) (nnodes : BitVec 10) : (s.withTree node root nnodes).snkBits = s.snkBits := rfl
@[simp] theorem withTree_draws (s : State) (node : Vector Node 513) (root : NodeIx) (nnodes : BitVec 10) : (s.withTree node root nnodes).draws = s.draws := rfl
@[simp] theorem withTree_host (s : State) (node : Vector Node 513) (root : NodeIx) (nnodes : BitVec 10) : (s.withTree node root nnodes).host = s.host := rfl
@[simp] theorem withTree_rdata (s : State) (node : Vector Node 513) (root : NodeIx) (nnodes : BitVec 10) : (s.withTree node root nnodes).rdata = s.rdata := rfl
@[simp] theorem withTree_freeIx (s : State) (node : Vector Node 513) (root : NodeIx) (nnodes : BitVec 10) : (s.withTree node root nnodes).freeIx = s.freeIx := rfl

@[simp] theorem withValid_ct (s : State) (t : Bool) (c : Bool) : (s.withValid t c).ct = s.ct := rfl
@[simp] theorem withValid_node (s : State) (t : Bool) (c : Bool) : (s.withValid t c).node = s.node := rfl
@[simp] theorem withValid_root (s : State) (t : Bool) (c : Bool) : (s.withValid t c).root = s.root := rfl
@[simp] theorem withValid_nnodes (s : State) (t : Bool) (c : Bool) : (s.withValid t c).nnodes = s.nnodes := rfl
@[simp] theorem withValid_code (s : State) (t : Bool) (c : Bool) : (s.withValid t c).code = s.code := rfl
@[simp] theorem withValid_cur (s : State) (t : Bool) (c : Bool) : (s.withValid t c).cur = s.cur := rfl
@[simp] theorem withValid_seq (s : State) (t : Bool) (c : Bool) : (s.withValid t c).seq = s.seq := rfl
@[simp] theorem withValid_done (s : State) (t : Bool) (c : Bool) : (s.withValid t c).done = s.done := rfl
@[simp] theorem withValid_err (s : State) (t : Bool) (c : Bool) : (s.withValid t c).err = s.err := rfl
@[simp] theorem withValid_treeValid (s : State) (t : Bool) (c : Bool) : (s.withValid t c).treeValid = t := rfl
@[simp] theorem withValid_codesValid (s : State) (t : Bool) (c : Bool) : (s.withValid t c).codesValid = c := rfl
@[simp] theorem withValid_tsel (s : State) (t : Bool) (c : Bool) : (s.withValid t c).tsel = s.tsel := rfl
@[simp] theorem withValid_inFlight (s : State) (t : Bool) (c : Bool) : (s.withValid t c).inFlight = s.inFlight := rfl
@[simp] theorem withValid_magicTree (s : State) (t : Bool) (c : Bool) : (s.withValid t c).magicTree = s.magicTree := rfl
@[simp] theorem withValid_ioCanFail (s : State) (t : Bool) (c : Bool) : (s.withValid t c).ioCanFail = s.ioCanFail := rfl
@[simp] theorem withValid_srcBits (s : State) (t : Bool) (c : Bool) : (s.withValid t c).srcBits = s.srcBits := rfl
@[simp] theorem withValid_srcPos (s : State) (t : Bool) (c : Bool) : (s.withValid t c).srcPos = s.srcPos := rfl
@[simp] theorem withValid_snkBits (s : State) (t : Bool) (c : Bool) : (s.withValid t c).snkBits = s.snkBits := rfl
@[simp] theorem withValid_draws (s : State) (t : Bool) (c : Bool) : (s.withValid t c).draws = s.draws := rfl
@[simp] theorem withValid_host (s : State) (t : Bool) (c : Bool) : (s.withValid t c).host = s.host := rfl
@[simp] theorem withValid_rdata (s : State) (t : Bool) (c : Bool) : (s.withValid t c).rdata = s.rdata := rfl
@[simp] theorem withValid_freeIx (s : State) (t : Bool) (c : Bool) : (s.withValid t c).freeIx = s.freeIx := rfl

@[simp] theorem withCode_ct (s : State) (code : Vector Code 257) : (s.withCode code).ct = s.ct := rfl
@[simp] theorem withCode_node (s : State) (code : Vector Code 257) : (s.withCode code).node = s.node := rfl
@[simp] theorem withCode_root (s : State) (code : Vector Code 257) : (s.withCode code).root = s.root := rfl
@[simp] theorem withCode_nnodes (s : State) (code : Vector Code 257) : (s.withCode code).nnodes = s.nnodes := rfl
@[simp] theorem withCode_code (s : State) (code : Vector Code 257) : (s.withCode code).code = code := rfl
@[simp] theorem withCode_cur (s : State) (code : Vector Code 257) : (s.withCode code).cur = s.cur := rfl
@[simp] theorem withCode_seq (s : State) (code : Vector Code 257) : (s.withCode code).seq = s.seq := rfl
@[simp] theorem withCode_done (s : State) (code : Vector Code 257) : (s.withCode code).done = s.done := rfl
@[simp] theorem withCode_err (s : State) (code : Vector Code 257) : (s.withCode code).err = s.err := rfl
@[simp] theorem withCode_treeValid (s : State) (code : Vector Code 257) : (s.withCode code).treeValid = s.treeValid := rfl
@[simp] theorem withCode_codesValid (s : State) (code : Vector Code 257) : (s.withCode code).codesValid = s.codesValid := rfl
@[simp] theorem withCode_tsel (s : State) (code : Vector Code 257) : (s.withCode code).tsel = s.tsel := rfl
@[simp] theorem withCode_inFlight (s : State) (code : Vector Code 257) : (s.withCode code).inFlight = s.inFlight := rfl
@[simp] theorem withCode_magicTree (s : State) (code : Vector Code 257) : (s.withCode code).magicTree = s.magicTree := rfl
@[simp] theorem withCode_ioCanFail (s : State) (code : Vector Code 257) : (s.withCode code).ioCanFail = s.ioCanFail := rfl
@[simp] theorem withCode_srcBits (s : State) (code : Vector Code 257) : (s.withCode code).srcBits = s.srcBits := rfl
@[simp] theorem withCode_srcPos (s : State) (code : Vector Code 257) : (s.withCode code).srcPos = s.srcPos := rfl
@[simp] theorem withCode_snkBits (s : State) (code : Vector Code 257) : (s.withCode code).snkBits = s.snkBits := rfl
@[simp] theorem withCode_draws (s : State) (code : Vector Code 257) : (s.withCode code).draws = s.draws := rfl
@[simp] theorem withCode_host (s : State) (code : Vector Code 257) : (s.withCode code).host = s.host := rfl
@[simp] theorem withCode_rdata (s : State) (code : Vector Code 257) : (s.withCode code).rdata = s.rdata := rfl
@[simp] theorem withCode_freeIx (s : State) (code : Vector Code 257) : (s.withCode code).freeIx = s.freeIx := rfl

@[simp] theorem withCur_ct (s : State) (cur : NodeIx) : (s.withCur cur).ct = s.ct := rfl
@[simp] theorem withCur_node (s : State) (cur : NodeIx) : (s.withCur cur).node = s.node := rfl
@[simp] theorem withCur_root (s : State) (cur : NodeIx) : (s.withCur cur).root = s.root := rfl
@[simp] theorem withCur_nnodes (s : State) (cur : NodeIx) : (s.withCur cur).nnodes = s.nnodes := rfl
@[simp] theorem withCur_code (s : State) (cur : NodeIx) : (s.withCur cur).code = s.code := rfl
@[simp] theorem withCur_cur (s : State) (cur : NodeIx) : (s.withCur cur).cur = cur := rfl
@[simp] theorem withCur_seq (s : State) (cur : NodeIx) : (s.withCur cur).seq = s.seq := rfl
@[simp] theorem withCur_done (s : State) (cur : NodeIx) : (s.withCur cur).done = s.done := rfl
@[simp] theorem withCur_err (s : State) (cur : NodeIx) : (s.withCur cur).err = s.err := rfl
@[simp] theorem withCur_treeValid (s : State) (cur : NodeIx) : (s.withCur cur).treeValid = s.treeValid := rfl
@[simp] theorem withCur_codesValid (s : State) (cur : NodeIx) : (s.withCur cur).codesValid = s.codesValid := rfl
@[simp] theorem withCur_tsel (s : State) (cur : NodeIx) : (s.withCur cur).tsel = s.tsel := rfl
@[simp] theorem withCur_inFlight (s : State) (cur : NodeIx) : (s.withCur cur).inFlight = s.inFlight := rfl
@[simp] theorem withCur_magicTree (s : State) (cur : NodeIx) : (s.withCur cur).magicTree = s.magicTree := rfl
@[simp] theorem withCur_ioCanFail (s : State) (cur : NodeIx) : (s.withCur cur).ioCanFail = s.ioCanFail := rfl
@[simp] theorem withCur_srcBits (s : State) (cur : NodeIx) : (s.withCur cur).srcBits = s.srcBits := rfl
@[simp] theorem withCur_srcPos (s : State) (cur : NodeIx) : (s.withCur cur).srcPos = s.srcPos := rfl
@[simp] theorem withCur_snkBits (s : State) (cur : NodeIx) : (s.withCur cur).snkBits = s.snkBits := rfl
@[simp] theorem withCur_draws (s : State) (cur : NodeIx) : (s.withCur cur).draws = s.draws := rfl
@[simp] theorem withCur_host (s : State) (cur : NodeIx) : (s.withCur cur).host = s.host := rfl
@[simp] theorem withCur_rdata (s : State) (cur : NodeIx) : (s.withCur cur).rdata = s.rdata := rfl
@[simp] theorem withCur_freeIx (s : State) (cur : NodeIx) : (s.withCur cur).freeIx = s.freeIx := rfl

@[simp] theorem withTsel_ct (s : State) (v : BitVec 16) : (s.withTsel v).ct = s.ct := rfl
@[simp] theorem withTsel_node (s : State) (v : BitVec 16) : (s.withTsel v).node = s.node := rfl
@[simp] theorem withTsel_root (s : State) (v : BitVec 16) : (s.withTsel v).root = s.root := rfl
@[simp] theorem withTsel_nnodes (s : State) (v : BitVec 16) : (s.withTsel v).nnodes = s.nnodes := rfl
@[simp] theorem withTsel_code (s : State) (v : BitVec 16) : (s.withTsel v).code = s.code := rfl
@[simp] theorem withTsel_cur (s : State) (v : BitVec 16) : (s.withTsel v).cur = s.cur := rfl
@[simp] theorem withTsel_seq (s : State) (v : BitVec 16) : (s.withTsel v).seq = s.seq := rfl
@[simp] theorem withTsel_done (s : State) (v : BitVec 16) : (s.withTsel v).done = s.done := rfl
@[simp] theorem withTsel_err (s : State) (v : BitVec 16) : (s.withTsel v).err = s.err := rfl
@[simp] theorem withTsel_treeValid (s : State) (v : BitVec 16) : (s.withTsel v).treeValid = s.treeValid := rfl
@[simp] theorem withTsel_codesValid (s : State) (v : BitVec 16) : (s.withTsel v).codesValid = s.codesValid := rfl
@[simp] theorem withTsel_tsel (s : State) (v : BitVec 16) : (s.withTsel v).tsel = v := rfl
@[simp] theorem withTsel_inFlight (s : State) (v : BitVec 16) : (s.withTsel v).inFlight = s.inFlight := rfl
@[simp] theorem withTsel_magicTree (s : State) (v : BitVec 16) : (s.withTsel v).magicTree = s.magicTree := rfl
@[simp] theorem withTsel_ioCanFail (s : State) (v : BitVec 16) : (s.withTsel v).ioCanFail = s.ioCanFail := rfl
@[simp] theorem withTsel_srcBits (s : State) (v : BitVec 16) : (s.withTsel v).srcBits = s.srcBits := rfl
@[simp] theorem withTsel_srcPos (s : State) (v : BitVec 16) : (s.withTsel v).srcPos = s.srcPos := rfl
@[simp] theorem withTsel_snkBits (s : State) (v : BitVec 16) : (s.withTsel v).snkBits = s.snkBits := rfl
@[simp] theorem withTsel_draws (s : State) (v : BitVec 16) : (s.withTsel v).draws = s.draws := rfl
@[simp] theorem withTsel_host (s : State) (v : BitVec 16) : (s.withTsel v).host = s.host := rfl
@[simp] theorem withTsel_rdata (s : State) (v : BitVec 16) : (s.withTsel v).rdata = s.rdata := rfl
@[simp] theorem withTsel_freeIx (s : State) (v : BitVec 16) : (s.withTsel v).freeIx = s.freeIx := rfl

@[simp] theorem withInFlight_ct (s : State) (c : Option PortCall) : (s.withInFlight c).ct = s.ct := rfl
@[simp] theorem withInFlight_node (s : State) (c : Option PortCall) : (s.withInFlight c).node = s.node := rfl
@[simp] theorem withInFlight_root (s : State) (c : Option PortCall) : (s.withInFlight c).root = s.root := rfl
@[simp] theorem withInFlight_nnodes (s : State) (c : Option PortCall) : (s.withInFlight c).nnodes = s.nnodes := rfl
@[simp] theorem withInFlight_code (s : State) (c : Option PortCall) : (s.withInFlight c).code = s.code := rfl
@[simp] theorem withInFlight_cur (s : State) (c : Option PortCall) : (s.withInFlight c).cur = s.cur := rfl
@[simp] theorem withInFlight_seq (s : State) (c : Option PortCall) : (s.withInFlight c).seq = s.seq := rfl
@[simp] theorem withInFlight_done (s : State) (c : Option PortCall) : (s.withInFlight c).done = s.done := rfl
@[simp] theorem withInFlight_err (s : State) (c : Option PortCall) : (s.withInFlight c).err = s.err := rfl
@[simp] theorem withInFlight_treeValid (s : State) (c : Option PortCall) : (s.withInFlight c).treeValid = s.treeValid := rfl
@[simp] theorem withInFlight_codesValid (s : State) (c : Option PortCall) : (s.withInFlight c).codesValid = s.codesValid := rfl
@[simp] theorem withInFlight_tsel (s : State) (c : Option PortCall) : (s.withInFlight c).tsel = s.tsel := rfl
@[simp] theorem withInFlight_inFlight (s : State) (c : Option PortCall) : (s.withInFlight c).inFlight = c := rfl
@[simp] theorem withInFlight_magicTree (s : State) (c : Option PortCall) : (s.withInFlight c).magicTree = s.magicTree := rfl
@[simp] theorem withInFlight_ioCanFail (s : State) (c : Option PortCall) : (s.withInFlight c).ioCanFail = s.ioCanFail := rfl
@[simp] theorem withInFlight_srcBits (s : State) (c : Option PortCall) : (s.withInFlight c).srcBits = s.srcBits := rfl
@[simp] theorem withInFlight_srcPos (s : State) (c : Option PortCall) : (s.withInFlight c).srcPos = s.srcPos := rfl
@[simp] theorem withInFlight_snkBits (s : State) (c : Option PortCall) : (s.withInFlight c).snkBits = s.snkBits := rfl
@[simp] theorem withInFlight_draws (s : State) (c : Option PortCall) : (s.withInFlight c).draws = s.draws := rfl
@[simp] theorem withInFlight_host (s : State) (c : Option PortCall) : (s.withInFlight c).host = s.host := rfl
@[simp] theorem withInFlight_rdata (s : State) (c : Option PortCall) : (s.withInFlight c).rdata = s.rdata := rfl
@[simp] theorem withInFlight_freeIx (s : State) (c : Option PortCall) : (s.withInFlight c).freeIx = s.freeIx := rfl

@[simp] theorem withSrcPos_ct (s : State) (pos : Nat) : (s.withSrcPos pos).ct = s.ct := rfl
@[simp] theorem withSrcPos_node (s : State) (pos : Nat) : (s.withSrcPos pos).node = s.node := rfl
@[simp] theorem withSrcPos_root (s : State) (pos : Nat) : (s.withSrcPos pos).root = s.root := rfl
@[simp] theorem withSrcPos_nnodes (s : State) (pos : Nat) : (s.withSrcPos pos).nnodes = s.nnodes := rfl
@[simp] theorem withSrcPos_code (s : State) (pos : Nat) : (s.withSrcPos pos).code = s.code := rfl
@[simp] theorem withSrcPos_cur (s : State) (pos : Nat) : (s.withSrcPos pos).cur = s.cur := rfl
@[simp] theorem withSrcPos_seq (s : State) (pos : Nat) : (s.withSrcPos pos).seq = s.seq := rfl
@[simp] theorem withSrcPos_done (s : State) (pos : Nat) : (s.withSrcPos pos).done = s.done := rfl
@[simp] theorem withSrcPos_err (s : State) (pos : Nat) : (s.withSrcPos pos).err = s.err := rfl
@[simp] theorem withSrcPos_treeValid (s : State) (pos : Nat) : (s.withSrcPos pos).treeValid = s.treeValid := rfl
@[simp] theorem withSrcPos_codesValid (s : State) (pos : Nat) : (s.withSrcPos pos).codesValid = s.codesValid := rfl
@[simp] theorem withSrcPos_tsel (s : State) (pos : Nat) : (s.withSrcPos pos).tsel = s.tsel := rfl
@[simp] theorem withSrcPos_inFlight (s : State) (pos : Nat) : (s.withSrcPos pos).inFlight = s.inFlight := rfl
@[simp] theorem withSrcPos_magicTree (s : State) (pos : Nat) : (s.withSrcPos pos).magicTree = s.magicTree := rfl
@[simp] theorem withSrcPos_ioCanFail (s : State) (pos : Nat) : (s.withSrcPos pos).ioCanFail = s.ioCanFail := rfl
@[simp] theorem withSrcPos_srcBits (s : State) (pos : Nat) : (s.withSrcPos pos).srcBits = s.srcBits := rfl
@[simp] theorem withSrcPos_srcPos (s : State) (pos : Nat) : (s.withSrcPos pos).srcPos = pos := rfl
@[simp] theorem withSrcPos_snkBits (s : State) (pos : Nat) : (s.withSrcPos pos).snkBits = s.snkBits := rfl
@[simp] theorem withSrcPos_draws (s : State) (pos : Nat) : (s.withSrcPos pos).draws = s.draws := rfl
@[simp] theorem withSrcPos_host (s : State) (pos : Nat) : (s.withSrcPos pos).host = s.host := rfl
@[simp] theorem withSrcPos_rdata (s : State) (pos : Nat) : (s.withSrcPos pos).rdata = s.rdata := rfl
@[simp] theorem withSrcPos_freeIx (s : State) (pos : Nat) : (s.withSrcPos pos).freeIx = s.freeIx := rfl

@[simp] theorem withSnk_ct (s : State) (bits : List Bool) : (s.withSnk bits).ct = s.ct := rfl
@[simp] theorem withSnk_node (s : State) (bits : List Bool) : (s.withSnk bits).node = s.node := rfl
@[simp] theorem withSnk_root (s : State) (bits : List Bool) : (s.withSnk bits).root = s.root := rfl
@[simp] theorem withSnk_nnodes (s : State) (bits : List Bool) : (s.withSnk bits).nnodes = s.nnodes := rfl
@[simp] theorem withSnk_code (s : State) (bits : List Bool) : (s.withSnk bits).code = s.code := rfl
@[simp] theorem withSnk_cur (s : State) (bits : List Bool) : (s.withSnk bits).cur = s.cur := rfl
@[simp] theorem withSnk_seq (s : State) (bits : List Bool) : (s.withSnk bits).seq = s.seq := rfl
@[simp] theorem withSnk_done (s : State) (bits : List Bool) : (s.withSnk bits).done = s.done := rfl
@[simp] theorem withSnk_err (s : State) (bits : List Bool) : (s.withSnk bits).err = s.err := rfl
@[simp] theorem withSnk_treeValid (s : State) (bits : List Bool) : (s.withSnk bits).treeValid = s.treeValid := rfl
@[simp] theorem withSnk_codesValid (s : State) (bits : List Bool) : (s.withSnk bits).codesValid = s.codesValid := rfl
@[simp] theorem withSnk_tsel (s : State) (bits : List Bool) : (s.withSnk bits).tsel = s.tsel := rfl
@[simp] theorem withSnk_inFlight (s : State) (bits : List Bool) : (s.withSnk bits).inFlight = s.inFlight := rfl
@[simp] theorem withSnk_magicTree (s : State) (bits : List Bool) : (s.withSnk bits).magicTree = s.magicTree := rfl
@[simp] theorem withSnk_ioCanFail (s : State) (bits : List Bool) : (s.withSnk bits).ioCanFail = s.ioCanFail := rfl
@[simp] theorem withSnk_srcBits (s : State) (bits : List Bool) : (s.withSnk bits).srcBits = s.srcBits := rfl
@[simp] theorem withSnk_srcPos (s : State) (bits : List Bool) : (s.withSnk bits).srcPos = s.srcPos := rfl
@[simp] theorem withSnk_snkBits (s : State) (bits : List Bool) : (s.withSnk bits).snkBits = bits := rfl
@[simp] theorem withSnk_draws (s : State) (bits : List Bool) : (s.withSnk bits).draws = s.draws := rfl
@[simp] theorem withSnk_host (s : State) (bits : List Bool) : (s.withSnk bits).host = s.host := rfl
@[simp] theorem withSnk_rdata (s : State) (bits : List Bool) : (s.withSnk bits).rdata = s.rdata := rfl
@[simp] theorem withSnk_freeIx (s : State) (bits : List Bool) : (s.withSnk bits).freeIx = s.freeIx := rfl

@[simp] theorem withDraws_ct (s : State) (ds : List Draw) : (s.withDraws ds).ct = s.ct := rfl
@[simp] theorem withDraws_node (s : State) (ds : List Draw) : (s.withDraws ds).node = s.node := rfl
@[simp] theorem withDraws_root (s : State) (ds : List Draw) : (s.withDraws ds).root = s.root := rfl
@[simp] theorem withDraws_nnodes (s : State) (ds : List Draw) : (s.withDraws ds).nnodes = s.nnodes := rfl
@[simp] theorem withDraws_code (s : State) (ds : List Draw) : (s.withDraws ds).code = s.code := rfl
@[simp] theorem withDraws_cur (s : State) (ds : List Draw) : (s.withDraws ds).cur = s.cur := rfl
@[simp] theorem withDraws_seq (s : State) (ds : List Draw) : (s.withDraws ds).seq = s.seq := rfl
@[simp] theorem withDraws_done (s : State) (ds : List Draw) : (s.withDraws ds).done = s.done := rfl
@[simp] theorem withDraws_err (s : State) (ds : List Draw) : (s.withDraws ds).err = s.err := rfl
@[simp] theorem withDraws_treeValid (s : State) (ds : List Draw) : (s.withDraws ds).treeValid = s.treeValid := rfl
@[simp] theorem withDraws_codesValid (s : State) (ds : List Draw) : (s.withDraws ds).codesValid = s.codesValid := rfl
@[simp] theorem withDraws_tsel (s : State) (ds : List Draw) : (s.withDraws ds).tsel = s.tsel := rfl
@[simp] theorem withDraws_inFlight (s : State) (ds : List Draw) : (s.withDraws ds).inFlight = s.inFlight := rfl
@[simp] theorem withDraws_magicTree (s : State) (ds : List Draw) : (s.withDraws ds).magicTree = s.magicTree := rfl
@[simp] theorem withDraws_ioCanFail (s : State) (ds : List Draw) : (s.withDraws ds).ioCanFail = s.ioCanFail := rfl
@[simp] theorem withDraws_srcBits (s : State) (ds : List Draw) : (s.withDraws ds).srcBits = s.srcBits := rfl
@[simp] theorem withDraws_srcPos (s : State) (ds : List Draw) : (s.withDraws ds).srcPos = s.srcPos := rfl
@[simp] theorem withDraws_snkBits (s : State) (ds : List Draw) : (s.withDraws ds).snkBits = s.snkBits := rfl
@[simp] theorem withDraws_draws (s : State) (ds : List Draw) : (s.withDraws ds).draws = ds := rfl
@[simp] theorem withDraws_host (s : State) (ds : List Draw) : (s.withDraws ds).host = s.host := rfl
@[simp] theorem withDraws_rdata (s : State) (ds : List Draw) : (s.withDraws ds).rdata = s.rdata := rfl
@[simp] theorem withDraws_freeIx (s : State) (ds : List Draw) : (s.withDraws ds).freeIx = s.freeIx := rfl

@[simp] theorem withFree_ct (s : State) (n : Nat) : (s.withFree n).ct = s.ct := rfl
@[simp] theorem withFree_node (s : State) (n : Nat) : (s.withFree n).node = s.node := rfl
@[simp] theorem withFree_root (s : State) (n : Nat) : (s.withFree n).root = s.root := rfl
@[simp] theorem withFree_nnodes (s : State) (n : Nat) : (s.withFree n).nnodes = s.nnodes := rfl
@[simp] theorem withFree_code (s : State) (n : Nat) : (s.withFree n).code = s.code := rfl
@[simp] theorem withFree_cur (s : State) (n : Nat) : (s.withFree n).cur = s.cur := rfl
@[simp] theorem withFree_seq (s : State) (n : Nat) : (s.withFree n).seq = s.seq := rfl
@[simp] theorem withFree_done (s : State) (n : Nat) : (s.withFree n).done = s.done := rfl
@[simp] theorem withFree_err (s : State) (n : Nat) : (s.withFree n).err = s.err := rfl
@[simp] theorem withFree_treeValid (s : State) (n : Nat) : (s.withFree n).treeValid = s.treeValid := rfl
@[simp] theorem withFree_codesValid (s : State) (n : Nat) : (s.withFree n).codesValid = s.codesValid := rfl
@[simp] theorem withFree_tsel (s : State) (n : Nat) : (s.withFree n).tsel = s.tsel := rfl
@[simp] theorem withFree_inFlight (s : State) (n : Nat) : (s.withFree n).inFlight = s.inFlight := rfl
@[simp] theorem withFree_magicTree (s : State) (n : Nat) : (s.withFree n).magicTree = s.magicTree := rfl
@[simp] theorem withFree_ioCanFail (s : State) (n : Nat) : (s.withFree n).ioCanFail = s.ioCanFail := rfl
@[simp] theorem withFree_srcBits (s : State) (n : Nat) : (s.withFree n).srcBits = s.srcBits := rfl
@[simp] theorem withFree_srcPos (s : State) (n : Nat) : (s.withFree n).srcPos = s.srcPos := rfl
@[simp] theorem withFree_snkBits (s : State) (n : Nat) : (s.withFree n).snkBits = s.snkBits := rfl
@[simp] theorem withFree_draws (s : State) (n : Nat) : (s.withFree n).draws = s.draws := rfl
@[simp] theorem withFree_host (s : State) (n : Nat) : (s.withFree n).host = s.host := rfl
@[simp] theorem withFree_rdata (s : State) (n : Nat) : (s.withFree n).rdata = s.rdata := rfl
@[simp] theorem withFree_freeIx (s : State) (n : Nat) : (s.withFree n).freeIx = n := rfl

@[simp] theorem withHost_ct (s : State) (es : List HostEvent) : (s.withHost es).ct = s.ct := rfl
@[simp] theorem withHost_node (s : State) (es : List HostEvent) : (s.withHost es).node = s.node := rfl
@[simp] theorem withHost_root (s : State) (es : List HostEvent) : (s.withHost es).root = s.root := rfl
@[simp] theorem withHost_nnodes (s : State) (es : List HostEvent) : (s.withHost es).nnodes = s.nnodes := rfl
@[simp] theorem withHost_code (s : State) (es : List HostEvent) : (s.withHost es).code = s.code := rfl
@[simp] theorem withHost_cur (s : State) (es : List HostEvent) : (s.withHost es).cur = s.cur := rfl
@[simp] theorem withHost_seq (s : State) (es : List HostEvent) : (s.withHost es).seq = s.seq := rfl
@[simp] theorem withHost_done (s : State) (es : List HostEvent) : (s.withHost es).done = s.done := rfl
@[simp] theorem withHost_err (s : State) (es : List HostEvent) : (s.withHost es).err = s.err := rfl
@[simp] theorem withHost_treeValid (s : State) (es : List HostEvent) : (s.withHost es).treeValid = s.treeValid := rfl
@[simp] theorem withHost_codesValid (s : State) (es : List HostEvent) : (s.withHost es).codesValid = s.codesValid := rfl
@[simp] theorem withHost_tsel (s : State) (es : List HostEvent) : (s.withHost es).tsel = s.tsel := rfl
@[simp] theorem withHost_inFlight (s : State) (es : List HostEvent) : (s.withHost es).inFlight = s.inFlight := rfl
@[simp] theorem withHost_magicTree (s : State) (es : List HostEvent) : (s.withHost es).magicTree = s.magicTree := rfl
@[simp] theorem withHost_ioCanFail (s : State) (es : List HostEvent) : (s.withHost es).ioCanFail = s.ioCanFail := rfl
@[simp] theorem withHost_srcBits (s : State) (es : List HostEvent) : (s.withHost es).srcBits = s.srcBits := rfl
@[simp] theorem withHost_srcPos (s : State) (es : List HostEvent) : (s.withHost es).srcPos = s.srcPos := rfl
@[simp] theorem withHost_snkBits (s : State) (es : List HostEvent) : (s.withHost es).snkBits = s.snkBits := rfl
@[simp] theorem withHost_draws (s : State) (es : List HostEvent) : (s.withHost es).draws = s.draws := rfl
@[simp] theorem withHost_host (s : State) (es : List HostEvent) : (s.withHost es).host = es := rfl
@[simp] theorem withHost_rdata (s : State) (es : List HostEvent) : (s.withHost es).rdata = s.rdata := rfl
@[simp] theorem withHost_freeIx (s : State) (es : List HostEvent) : (s.withHost es).freeIx = s.freeIx := rfl

@[simp] theorem withRdata_ct (s : State) (v : Word) : (s.withRdata v).ct = s.ct := rfl
@[simp] theorem withRdata_node (s : State) (v : Word) : (s.withRdata v).node = s.node := rfl
@[simp] theorem withRdata_root (s : State) (v : Word) : (s.withRdata v).root = s.root := rfl
@[simp] theorem withRdata_nnodes (s : State) (v : Word) : (s.withRdata v).nnodes = s.nnodes := rfl
@[simp] theorem withRdata_code (s : State) (v : Word) : (s.withRdata v).code = s.code := rfl
@[simp] theorem withRdata_cur (s : State) (v : Word) : (s.withRdata v).cur = s.cur := rfl
@[simp] theorem withRdata_seq (s : State) (v : Word) : (s.withRdata v).seq = s.seq := rfl
@[simp] theorem withRdata_done (s : State) (v : Word) : (s.withRdata v).done = s.done := rfl
@[simp] theorem withRdata_err (s : State) (v : Word) : (s.withRdata v).err = s.err := rfl
@[simp] theorem withRdata_treeValid (s : State) (v : Word) : (s.withRdata v).treeValid = s.treeValid := rfl
@[simp] theorem withRdata_codesValid (s : State) (v : Word) : (s.withRdata v).codesValid = s.codesValid := rfl
@[simp] theorem withRdata_tsel (s : State) (v : Word) : (s.withRdata v).tsel = s.tsel := rfl
@[simp] theorem withRdata_inFlight (s : State) (v : Word) : (s.withRdata v).inFlight = s.inFlight := rfl
@[simp] theorem withRdata_magicTree (s : State) (v : Word) : (s.withRdata v).magicTree = s.magicTree := rfl
@[simp] theorem withRdata_ioCanFail (s : State) (v : Word) : (s.withRdata v).ioCanFail = s.ioCanFail := rfl
@[simp] theorem withRdata_srcBits (s : State) (v : Word) : (s.withRdata v).srcBits = s.srcBits := rfl
@[simp] theorem withRdata_srcPos (s : State) (v : Word) : (s.withRdata v).srcPos = s.srcPos := rfl
@[simp] theorem withRdata_snkBits (s : State) (v : Word) : (s.withRdata v).snkBits = s.snkBits := rfl
@[simp] theorem withRdata_draws (s : State) (v : Word) : (s.withRdata v).draws = s.draws := rfl
@[simp] theorem withRdata_host (s : State) (v : Word) : (s.withRdata v).host = s.host := rfl
@[simp] theorem withRdata_rdata (s : State) (v : Word) : (s.withRdata v).rdata = v := rfl
@[simp] theorem withRdata_freeIx (s : State) (v : Word) : (s.withRdata v).freeIx = s.freeIx := rfl

@[simp] theorem withStreams_ct (s : State) (bits : List Bool) : (s.withStreams bits).ct = s.ct := rfl
@[simp] theorem withStreams_node (s : State) (bits : List Bool) : (s.withStreams bits).node = s.node := rfl
@[simp] theorem withStreams_root (s : State) (bits : List Bool) : (s.withStreams bits).root = s.root := rfl
@[simp] theorem withStreams_nnodes (s : State) (bits : List Bool) : (s.withStreams bits).nnodes = s.nnodes := rfl
@[simp] theorem withStreams_code (s : State) (bits : List Bool) : (s.withStreams bits).code = s.code := rfl
@[simp] theorem withStreams_cur (s : State) (bits : List Bool) : (s.withStreams bits).cur = s.cur := rfl
@[simp] theorem withStreams_seq (s : State) (bits : List Bool) : (s.withStreams bits).seq = s.seq := rfl
@[simp] theorem withStreams_done (s : State) (bits : List Bool) : (s.withStreams bits).done = s.done := rfl
@[simp] theorem withStreams_err (s : State) (bits : List Bool) : (s.withStreams bits).err = s.err := rfl
@[simp] theorem withStreams_treeValid (s : State) (bits : List Bool) : (s.withStreams bits).treeValid = s.treeValid := rfl
@[simp] theorem withStreams_codesValid (s : State) (bits : List Bool) : (s.withStreams bits).codesValid = s.codesValid := rfl
@[simp] theorem withStreams_tsel (s : State) (bits : List Bool) : (s.withStreams bits).tsel = s.tsel := rfl
@[simp] theorem withStreams_inFlight (s : State) (bits : List Bool) : (s.withStreams bits).inFlight = s.inFlight := rfl
@[simp] theorem withStreams_magicTree (s : State) (bits : List Bool) : (s.withStreams bits).magicTree = s.magicTree := rfl
@[simp] theorem withStreams_ioCanFail (s : State) (bits : List Bool) : (s.withStreams bits).ioCanFail = s.ioCanFail := rfl
@[simp] theorem withStreams_srcBits (s : State) (bits : List Bool) : (s.withStreams bits).srcBits = bits := rfl
@[simp] theorem withStreams_srcPos (s : State) (bits : List Bool) : (s.withStreams bits).srcPos = 0 := rfl
@[simp] theorem withStreams_snkBits (s : State) (bits : List Bool) : (s.withStreams bits).snkBits = [] := rfl
@[simp] theorem withStreams_draws (s : State) (bits : List Bool) : (s.withStreams bits).draws = s.draws := rfl
@[simp] theorem withStreams_host (s : State) (bits : List Bool) : (s.withStreams bits).host = s.host := rfl
@[simp] theorem withStreams_rdata (s : State) (bits : List Bool) : (s.withStreams bits).rdata = s.rdata := rfl
@[simp] theorem withStreams_freeIx (s : State) (bits : List Bool) : (s.withStreams bits).freeIx = s.freeIx := rfl

end Sys2Proof.Machine.State
end

