-- ==== Sys2Proof/Laws/Operands.lean ====
section
/-! SUPPORT. The tables: reading after writing. -/

namespace Sys2Proof.Machine

theorem ctAt_ctSet (ct : Vector Word 257) (v u : Nat) (w : Word) (h : v < 257) :
    ctAt (ctSet ct v w) u = if u = v then w else ctAt ct u := by
  simp only [ctAt, ctSet, Vector.getElem?_setIfInBounds]
  by_cases e : v = u
  · subst e; simp [h]
  · simp [e, Ne.symm e]

@[simp] theorem ctAt_ctSet_self (ct : Vector Word 257) (v : Nat) (w : Word) (h : v < 257) :
    ctAt (ctSet ct v w) v = w := by simp [ctAt_ctSet _ _ _ _ h]

theorem ctAt_ctSet_of_ne (ct : Vector Word 257) (v u : Nat) (w : Word) (h : u ≠ v) :
    ctAt (ctSet ct v w) u = ctAt ct u := by
  simp [ctAt, ctSet, Ne.symm h]

@[simp] theorem ctAt_replicate (v : Nat) : ctAt (Vector.replicate 257 0#32) v = 0#32 := by
  simp only [ctAt, Vector.getElem?_replicate]
  split <;> rfl

theorem codeAt_codeSet (code : Vector Code 257) (v u : Nat) (c : Code) (h : v < 257) :
    codeAt (codeSet code v c) u = if u = v then c else codeAt code u := by
  simp only [codeAt, codeSet, Vector.getElem?_setIfInBounds]
  by_cases e : v = u
  · subst e; simp [h]
  · simp [e, Ne.symm e]

@[simp] theorem codeAt_replicate (v : Nat) : codeAt (Vector.replicate 257 ⟨0#9, 0#256⟩) v = ⟨0#9, 0#256⟩ := by
  simp only [codeAt, Vector.getElem?_replicate]
  split <;> rfl

theorem getElem?_nodeSet (node : Vector Node 513) (k : NodeIx) (n : Node) (j : Nat) (h : k.toNat < 513) :
    (nodeSet node k n)[j]? = if j = k.toNat then some n else node[j]? := by
  simp only [nodeSet, Vector.getElem?_setIfInBounds]
  by_cases e : k.toNat = j
  · subst e; simp [h]
  · simp [e, Ne.symm e]

/-- What `nodeAt` reads: a record of the tree and nothing else. -/
theorem nodeAt_eq_some {s : State} {k : NodeIx} {n : Node} :
    nodeAt s k = some n ↔ k < s.nnodes ∧ s.node[k.toNat]? = some n := by
  unfold nodeAt
  split <;> simp_all

theorem nodeAt_congr {s t : State} (hn : t.node = s.node) (hc : t.nnodes = s.nnodes) (k : NodeIx) :
    nodeAt t k = nodeAt s k := by
  simp [nodeAt, hn, hc]

@[simp] theorem leafNode_leaf (v : Sym) (w : Weight) : (leafNode v w).leaf = true := rfl
@[simp] theorem leafNode_value (v : Sym) (w : Weight) : (leafNode v w).value = v := rfl
@[simp] theorem leafNode_weight (v : Sym) (w : Weight) : (leafNode v w).weight = w := rfl
@[simp] theorem leafNode_left (v : Sym) (w : Weight) : (leafNode v w).left = nil := rfl
@[simp] theorem leafNode_right (v : Sym) (w : Weight) : (leafNode v w).right = nil := rfl
@[simp] theorem internalNode_leaf (w : Weight) (l r : NodeIx) : (internalNode w l r).leaf = false := rfl
@[simp] theorem internalNode_value (w : Weight) (l r : NodeIx) : (internalNode w l r).value = internalValue := rfl
@[simp] theorem internalNode_weight (w : Weight) (l r : NodeIx) : (internalNode w l r).weight = w := rfl
@[simp] theorem internalNode_left (w : Weight) (l r : NodeIx) : (internalNode w l r).left = l := rfl
@[simp] theorem internalNode_right (w : Weight) (l r : NodeIx) : (internalNode w l r).right = r := rfl

@[simp] theorem Code.path_length (c : Code) : c.path.length = c.len.toNat := by simp [Code.path]

theorem codeOfPath_len (p : List Bool) (h : p.length ≤ 256) : (codeOfPath p).len.toNat = p.length := by
  simp only [codeOfPath, BitVec.toNat_ofNat]
  omega

end Sys2Proof.Machine
end

