-- ==== Sys2Proof/Laws/Ops.lean ====
section
/-! SUPPORT. What each shared operation can do, said once. -/

namespace Sys2Proof.Machine

/-! ## Sequencing -/

@[simp] theorem andThen_ok {α β : Type} (a : α) (s : State) (f : α → State → Res β) :
    (Res.ok a s).andThen f = f a s := rfl

@[simp] theorem andThen_raised {α β : Type} (e : Err) (s : State) (f : α → State → Res β) :
    (Res.raised e s : Res α).andThen f = .raised e s := rfl

@[simp] theorem andThen_waits {α β : Type} (c : PortCall) (s : State) (f : α → State → Res β) :
    (Res.waits c s : Res α).andThen f = .waits c s := rfl

@[simp] theorem andThen_broken {α β : Type} (b : Fault) (f : α → State → Res β) :
    (Res.broken b : Res α).andThen f = .broken b := rfl

/-- Every way `r` can end leaves a state with `P`. -/
def Res.Ends {α : Type} (P : State → Prop) : Res α → Prop
  | .ok _ s => P s
  | .raised _ s => P s
  | .waits _ s => P s
  | .broken _ => True

@[simp] theorem ends_ok {α : Type} (P : State → Prop) (a : α) (s : State) : (Res.ok a s).Ends P ↔ P s := Iff.rfl
@[simp] theorem ends_raised {α : Type} (P : State → Prop) (e : Err) (s : State) :
    (Res.raised e s : Res α).Ends P ↔ P s := Iff.rfl
@[simp] theorem ends_waits {α : Type} (P : State → Prop) (c : PortCall) (s : State) :
    (Res.waits c s : Res α).Ends P ↔ P s := Iff.rfl
@[simp] theorem ends_broken {α : Type} (P : State → Prop) (f : Fault) : (Res.broken f : Res α).Ends P ↔ True :=
  Iff.rfl

/-- The rule for sequencing: what holds after the first part, whichever way it ends, and is kept by what follows. -/
theorem ends_andThen {α β : Type} {P Q : State → Prop} {r : Res α} {f : α → State → Res β} (hr : r.Ends P)
    (hPQ : ∀ s, P s → Q s) (hf : ∀ a s, r = .ok a s → P s → (f a s).Ends Q) : (r.andThen f).Ends Q := by
  cases r with
  | ok a s => exact hf a s rfl hr
  | raised e s => exact hPQ s hr
  | waits c s => exact hPQ s hr
  | broken b => trivial

theorem ends_mono {α : Type} {P Q : State → Prop} {r : Res α} (hr : r.Ends P) (h : ∀ s, P s → Q s) : r.Ends Q := by
  cases r with
  | ok a s => exact h s hr
  | raised e s => exact h s hr
  | waits c s => exact h s hr
  | broken b => trivial

/-- What sequencing answers when it answers `ok`. -/
theorem andThen_eq_ok {α β : Type} {r : Res α} {f : α → State → Res β} {b : β} {t : State} :
    r.andThen f = .ok b t ↔ ∃ a s, r = .ok a s ∧ f a s = .ok b t := by
  cases r <;> simp

/-- It does not end in a fault. -/
def Res.Sound {α : Type} : Res α → Prop
  | .ok _ _ => True
  | .raised _ _ => True
  | .waits _ _ => True
  | .broken _ => False

theorem sound_andThen {α β : Type} {r : Res α} {f : α → State → Res β} (hr : r.Sound)
    (hf : ∀ a s, r = .ok a s → (f a s).Sound) : (r.andThen f).Sound := by
  cases r with
  | ok a s => exact hf a s rfl
  | raised e s => trivial
  | waits c s => trivial
  | broken b => exact hr

/-! ## The environment's choice -/

/-- Everything `takeDraw` can do. -/
theorem takeDraw_cases (s : State) :
    ∃ ds, (takeDraw s = (.answer, s.withDraws ds) ∨ takeDraw s = (.silent, s.withDraws ds) ∨
      (s.ioCanFail = true ∧ takeDraw s = (.ioErr, s.withDraws ds))) := by
  unfold takeDraw
  split
  · exact ⟨s.draws, .inl rfl⟩
  · exact ⟨_, .inl rfl⟩
  · rename_i ds _
    refine ⟨ds, ?_⟩
    by_cases h : s.ioCanFail = true
    · exact .inr (.inr ⟨h, by simp [h]⟩)
    · exact .inl (by simp [h])
  · exact ⟨_, .inr (.inl rfl)⟩

/-- Where every port answers, so does the next call. -/
theorem takeDraw_of_portsAnswer {s : State} (h : s.PortsAnswer) :
    takeDraw s = (.answer, s.withDraws s.draws.tail) := by
  unfold takeDraw
  split
  · rename_i hd
    simp only [hd, List.tail_nil, Prod.mk.injEq, true_and]
    cases s
    simp_all [State.withDraws]
  · rename_i ds hd; simp [hd]
  · rename_i ds hd
    have hf : s.ioCanFail = false := by
      have := h .ioErr (by simp [hd])
      simpa using this
    simp [hd, hf]
  · rename_i ds hd
    have := h .silent (by simp [hd])
    simp at this

theorem portsAnswer_congr {s t : State} (hd : t.draws = s.draws) (hf : t.ioCanFail = s.ioCanFail) :
    t.PortsAnswer ↔ s.PortsAnswer := by simp [State.PortsAnswer, hd, hf]

theorem portsAnswer_tail {s : State} (h : s.PortsAnswer) : (s.withDraws s.draws.tail).PortsAnswer :=
  fun d hd => h d (List.mem_of_mem_tail hd)

/-! ## The source -/

theorem srcNext_eq_some {n : Nat} {s : State} {bits : List Bool} :
    srcNext n s = some bits ↔ s.srcPos + n ≤ s.srcBits.length ∧ bits = s.unread.take n := by
  unfold srcNext State.unread
  split
  · simp_all [eq_comm]
  · simp_all

/-- Everything `SrcRead(n)` can do (R53). -/
theorem srcRead_cases (n : Nat) (s : State) :
    ∃ ds, (srcRead n s = .waits (.read n) (s.withDraws ds)) ∨
      (s.ioCanFail = true ∧ srcRead n s = .ok .ioErr (srcAfterError (s.withDraws ds))) ∨
      (s.srcPos + n ≤ s.srcBits.length ∧
        srcRead n s = .ok (.value (ofBits n (s.unread.take n))) ((s.withDraws ds).withSrcPos (s.srcPos + n))) ∨
      (s.srcBits.length < s.srcPos + n ∧
        srcRead n s = .ok .endOfData ((s.withDraws ds).withSrcPos s.srcBits.length)) := by
  obtain ⟨ds, h | h | ⟨hf, h⟩⟩ := takeDraw_cases s
  · refine ⟨ds, .inr (.inr ?_)⟩
    by_cases hp : s.srcPos + n ≤ s.srcBits.length
    · exact .inl ⟨hp, by simp [srcRead, h, srcNext, srcAfterRead, hp, State.unread]⟩
    · exact .inr ⟨by omega, by simp [srcRead, h, srcNext, srcAfterRead, hp]⟩
  · exact ⟨ds, .inl (by simp [srcRead, h])⟩
  · exact ⟨ds, .inr (.inl ⟨hf, by simp [srcRead, h]⟩)⟩

/-- `SrcRead(n)` on a source that answers and has `n` bits left (R53). -/
theorem srcRead_value {n : Nat} {s : State} (h : s.PortsAnswer) (hn : s.srcPos + n ≤ s.srcBits.length) :
    srcRead n s =
      .ok (.value (ofBits n (s.unread.take n))) ((s.withDraws s.draws.tail).withSrcPos (s.srcPos + n)) := by
  simp [srcRead, takeDraw_of_portsAnswer h, srcNext, srcAfterRead, hn, State.unread]

/-- `SrcRead(n)` on a source that answers and has fewer than `n` bits left (R53). -/
theorem srcRead_endOfData {n : Nat} {s : State} (h : s.PortsAnswer) (hn : s.srcBits.length < s.srcPos + n) :
    srcRead n s = .ok .endOfData ((s.withDraws s.draws.tail).withSrcPos s.srcBits.length) := by
  have hp : ¬ s.srcPos + n ≤ s.srcBits.length := by omega
  simp [srcRead, takeDraw_of_portsAnswer h, srcNext, srcAfterRead, hp]

/-- The source's position stays within the source (R51). -/
def PosKept (s t : State) : Prop := s.srcPos ≤ s.srcBits.length → t.srcPos ≤ t.srcBits.length

/-- A read touches nothing but the source's position, which stays within the source, the pending draws and the
counter of free values. -/
def SourceMoved (s t : State) : Prop :=
  t = ((s.withSrcPos t.srcPos).withDraws t.draws).withFree t.freeIx ∧ PosKept s t

theorem sourceMoved_refl (s : State) : SourceMoved s s := ⟨rfl, id⟩

theorem sourceMoved_trans {s t u : State} (h : SourceMoved s t) (h' : SourceMoved t u) : SourceMoved s u := by
  refine ⟨?_, h'.2 ∘ h.2⟩
  have h := h.1
  have h' := h'.1
  rw [h', h]
  rfl

theorem srcRead_moved (n : Nat) (s : State) : (srcRead n s).Ends (SourceMoved s) := by
  obtain ⟨ds, h | ⟨-, h⟩ | ⟨hp, h⟩ | ⟨-, h⟩⟩ := srcRead_cases n s <;> rw [h] <;> refine ⟨rfl, fun hs => ?_⟩
  · exact hs
  · simp only [srcAfterError, State.withFree_srcPos, State.withSrcPos_srcPos, State.withFree_srcBits,
      State.withSrcPos_srcBits]
    exact Nat.le_of_lt_succ (Nat.mod_lt _ (Nat.succ_pos _))
  · exact hp
  · exact Nat.le_refl _

theorem srcRead_sound (n : Nat) (s : State) : (srcRead n s).Sound := by
  obtain ⟨ds, h | ⟨-, h⟩ | ⟨-, h⟩ | ⟨-, h⟩⟩ := srcRead_cases n s <;> rw [h] <;> trivial

theorem readField_sound {α : Type} {n : Nat} {e : State → Res α} {v : BitVec n → State → Res α} {s : State}
    (he : ∀ t, SourceMoved s t → (e t).Sound) (hv : ∀ x t, SourceMoved s t → (v x t).Sound) :
    (readField n e v s).Sound := by
  refine sound_andThen (srcRead_sound n s) fun a t h => ?_
  have hm := srcRead_moved n s
  rw [h] at hm
  cases a with
  | ioErr => trivial
  | endOfData => exact he t hm
  | value x => exact hv x t hm

/-- The rule for a field read: its continuations start in a state the read has left. -/
theorem readField_ends {α : Type} {P : State → Prop} {n : Nat} {e : State → Res α} {v : BitVec n → State → Res α}
    {s : State} (hP : ∀ t, SourceMoved s t → P t) (he : ∀ t, SourceMoved s t → (e t).Ends P)
    (hv : ∀ x t, SourceMoved s t → (v x t).Ends P) : (readField n e v s).Ends P := by
  refine ends_andThen (srcRead_moved n s) hP ?_
  intro a t _ ht
  cases a with
  | ioErr => exact hP t ht
  | endOfData => exact he t ht
  | value x => exact hv x t ht

theorem readField_value {α : Type} {n : Nat} {e : State → Res α} {v : BitVec n → State → Res α} {s : State}
    (h : s.PortsAnswer) (hn : s.srcPos + n ≤ s.srcBits.length) :
    readField n e v s = v (ofBits n (s.unread.take n)) ((s.withDraws s.draws.tail).withSrcPos (s.srcPos + n)) := by
  simp [readField, srcRead_value h hn]

theorem readField_endOfData {α : Type} {n : Nat} {e : State → Res α} {v : BitVec n → State → Res α} {s : State}
    (h : s.PortsAnswer) (hn : s.srcBits.length < s.srcPos + n) :
    readField n e v s = e ((s.withDraws s.draws.tail).withSrcPos s.srcBits.length) := by
  simp [readField, srcRead_endOfData h hn]

/-- `SrcRewind()` on a source that answers (R55). -/
theorem srcRewind_done {s : State} (h : s.PortsAnswer) :
    srcRewind s = .ok .done ((s.withDraws s.draws.tail).withSrcPos 0) := by
  simp [srcRewind, takeDraw_of_portsAnswer h]

theorem srcRewind_moved (s : State) : (srcRewind s).Ends (SourceMoved s) := by
  obtain ⟨ds, h | h | ⟨-, h⟩⟩ := takeDraw_cases s <;> simp only [srcRewind, h] <;> refine ⟨rfl, fun hs => ?_⟩
  · exact Nat.zero_le _
  · exact hs
  · simp only [srcAfterError, State.withFree_srcPos, State.withSrcPos_srcPos, State.withFree_srcBits,
      State.withSrcPos_srcBits]
    exact Nat.le_of_lt_succ (Nat.mod_lt _ (Nat.succ_pos _))

/-! ## The sink -/

/-- A write touches nothing but the sink, which only grows (R52), the pending draws and the counter of free
values. -/
def SinkGrew (s t : State) : Prop :=
  (∃ added, t.snkBits = s.snkBits ++ added) ∧ t = ((s.withSnk t.snkBits).withDraws t.draws).withFree t.freeIx

theorem sinkGrew_refl (s : State) : SinkGrew s s := ⟨⟨[], by simp⟩, rfl⟩

theorem sinkGrew_trans {s t u : State} (h : SinkGrew s t) (h' : SinkGrew t u) : SinkGrew s u := by
  obtain ⟨⟨a, ha⟩, h⟩ := h
  obtain ⟨⟨b, hb⟩, h'⟩ := h'
  refine ⟨⟨a ++ b, by rw [hb, ha, List.append_assoc]⟩, ?_⟩
  rw [h', h]
  rfl

/-- Everything `SnkWrite` can do (R56). -/
theorem snkWrite_cases {n : Nat} (v : BitVec n) (s : State) :
    ∃ ds, (snkWrite v s = .waits (.write (binBits v)) (s.withDraws ds)) ∨
      (s.ioCanFail = true ∧ snkWrite v s = .ok .ioErr (snkAfterError (binBits v) (s.withDraws ds))) ∨
      snkWrite v s = .ok .done ((s.withDraws ds).withSnk (s.snkBits ++ binBits v)) := by
  obtain ⟨ds, h | h | ⟨hf, h⟩⟩ := takeDraw_cases s
  · exact ⟨ds, .inr (.inr (by simp [snkWrite, h, snkAfterWrite]))⟩
  · exact ⟨ds, .inl (by simp [snkWrite, h])⟩
  · exact ⟨ds, .inr (.inl ⟨hf, by simp [snkWrite, h]⟩)⟩

theorem snkWrite_grew {n : Nat} (v : BitVec n) (s : State) : (snkWrite v s).Ends (SinkGrew s) := by
  obtain ⟨ds, h | ⟨-, h⟩ | h⟩ := snkWrite_cases v s
  · rw [h]; exact ⟨⟨[], by simp⟩, rfl⟩
  · rw [h]; exact ⟨⟨_, rfl⟩, rfl⟩
  · rw [h]; exact ⟨⟨_, rfl⟩, rfl⟩

theorem put_grew {n : Nat} (v : BitVec n) (s : State) : (put v s).Ends (SinkGrew s) := by
  refine ends_andThen (snkWrite_grew v s) (fun _ h => h) ?_
  intro a t _ ht
  cases a <;> exact ht

theorem put_sound {n : Nat} (v : BitVec n) (s : State) : (put v s).Sound := by
  obtain ⟨ds, h | ⟨-, h⟩ | h⟩ := snkWrite_cases v s <;> simp only [put, h] <;> trivial

/-- A write on a sink that answers (R56). -/
theorem put_answered {n : Nat} {s : State} (v : BitVec n) (h : s.PortsAnswer) :
    put v s = .ok () ((s.withDraws s.draws.tail).withSnk (s.snkBits ++ binBits v)) := by
  simp [put, snkWrite, takeDraw_of_portsAnswer h, snkAfterWrite]

theorem binBits_ofBool (b : Bool) : binBits (BitVec.ofBool b) = [b] := by cases b <;> decide

theorem putBits_grew (bits : List Bool) (s : State) : (putBits bits s).Ends (SinkGrew s) := by
  induction bits generalizing s with
  | nil => exact sinkGrew_refl s
  | cons b bits ih =>
    refine ends_andThen (put_grew _ s) (fun _ h => h) ?_
    intro _ t _ ht
    exact ends_mono (ih t) fun _ h => sinkGrew_trans ht h

theorem putBits_sound (bits : List Bool) (s : State) : (putBits bits s).Sound := by
  induction bits generalizing s with
  | nil => trivial
  | cons b bits ih => exact sound_andThen (put_sound _ s) fun _ t _ => ih t

/-- A bit string written on a sink that answers: all its bits reach the sink in order, one draw each (R57). -/
theorem putBits_answered (bits : List Bool) {s : State} (h : s.PortsAnswer) :
    putBits bits s = .ok () ((s.withDraws (s.draws.drop bits.length)).withSnk (s.snkBits ++ bits)) := by
  induction bits generalizing s with
  | nil => simp [putBits, State.withDraws, State.withSnk]
  | cons b bits ih =>
    have h' : ((s.withDraws s.draws.tail).withSnk (s.snkBits ++ [b])).PortsAnswer := portsAnswer_tail h
    rw [putBits, put_answered _ h, andThen_ok, binBits_ofBool, ih h']
    simp [State.withDraws, State.withSnk]

/-! ## Errors -/

@[simp] theorem enterError_seq (e : Err) (s : State) : (enterError e s).seq = .error := rfl
@[simp] theorem enterError_done (e : Err) (s : State) : (enterError e s).done = false := rfl
@[simp] theorem enterError_err (e : Err) (s : State) : (enterError e s).err = e.reg := rfl

/-- Taking an error writes `STATE`, `DONE` and `ERR` and nothing else (R190). -/
theorem enterError_eq (e : Err) (s : State) : enterError e s = { s with seq := .error, done := false, err := e.reg } :=
  rfl

theorem err_kind_range (e : Err) : 1 ≤ e.reg.kind ∧ e.reg.kind ≤ 8 := by
  cases e with
  | mk kind sub info => cases kind <;> simp [Err.reg, ErrKind.code]

/-- Leaving the error state discards every table and every flag that vouches for one (R174, R195). -/
theorem discardTables_eq (s : State) :
    discardTables s =
      { s with ct := Vector.replicate 257 0, root := nil, nnodes := 0, cur := nil, treeValid := false,
               codesValid := false, err := ⟨0, 0, 0⟩ } := rfl

/-! ## Commands -/

theorem runCommand_busy {op : BitVec 4} {p : Bool} {body : State → Res Unit} {s : State} (h : s.seq = .busy) :
    runCommand op p body s = .next s := by simp [runCommand, h]

theorem runCommand_error {op : BitVec 4} {p : Bool} {body : State → Res Unit} {s : State} (h : s.seq = .error) :
    runCommand op p body s = .next s := by simp [runCommand, h]

theorem runCommand_idle {op : BitVec 4} {body : State → Res Unit} {s : State} (h : s.seq = .idle) :
    runCommand op true body s = complete (body (s.withSeq .busy false)) := by simp [runCommand, h]

theorem runCommand_refused {op : BitVec 4} {body : State → Res Unit} {s : State} (h : s.seq = .idle) :
    runCommand op false body s = .next (enterError (outOfSequence op) (s.withSeq .idle false)) := by
  simp [runCommand, h]

/-- An accepted command whose pseudocode runs to its end (R170). -/
theorem runCommand_ok {op : BitVec 4} {p : Bool} {body : State → Res Unit} {s t : State} (h : s.seq = .idle)
    (hp : p = true) (hb : body (s.withSeq .busy false) = .ok () t) : runCommand op p body s = .next (t.withSeq .idle true) := by
  rw [hp, runCommand_idle h, hb, complete]

/-- An accepted command whose pseudocode raises an error (R170, R190). -/
theorem runCommand_raised {op : BitVec 4} {p : Bool} {body : State → Res Unit} {e : Err} {s t : State} (h : s.seq = .idle)
    (hp : p = true) (hb : body (s.withSeq .busy false) = .raised e t) : runCommand op p body s = .next (enterError e t) := by
  rw [hp, runCommand_idle h, hb, complete]

/-- An accepted command whose port call is never answered (R225). -/
theorem runCommand_waits {op : BitVec 4} {p : Bool} {body : State → Res Unit} {c : PortCall} {s t : State} (h : s.seq = .idle)
    (hp : p = true) (hb : body (s.withSeq .busy false) = .waits c t) :
    runCommand op p body s = .next (t.withInFlight (some c)) := by
  rw [hp, runCommand_idle h, hb, complete]

/-- Everything a command can do that answers a next state (R170). -/
theorem runCommand_cases {op : BitVec 4} {p : Bool} {body : State → Res Unit} {s t : State}
    (h : runCommand op p body s = .next t) :
    (s.seq ≠ .idle ∧ t = s) ∨
    (s.seq = .idle ∧ p = false ∧ t = enterError (outOfSequence op) (s.withSeq .idle false)) ∨
    (s.seq = .idle ∧ p = true ∧
      ((∃ s', body (s.withSeq .busy false) = .ok () s' ∧ t = s'.withSeq .idle true) ∨
       (∃ e s', body (s.withSeq .busy false) = .raised e s' ∧ t = enterError e s') ∨
       (∃ c s', body (s.withSeq .busy false) = .waits c s' ∧ t = s'.withInFlight (some c)))) := by
  cases hs : s.seq with
  | busy => rw [runCommand_busy hs] at h; cases h; exact .inl ⟨by simp, rfl⟩
  | error => rw [runCommand_error hs] at h; cases h; exact .inl ⟨by simp, rfl⟩
  | idle =>
    cases p with
    | false => rw [runCommand_refused hs] at h; cases h; exact .inr (.inl ⟨rfl, rfl, rfl⟩)
    | true =>
      rw [runCommand_idle hs] at h
      refine .inr (.inr ⟨rfl, rfl, ?_⟩)
      cases hb : body (s.withSeq .busy false) with
      | ok a s' => rw [hb] at h; cases h; exact .inl ⟨s', rfl, rfl⟩
      | raised e s' => rw [hb] at h; cases h; exact .inr (.inl ⟨e, s', rfl, rfl⟩)
      | waits c s' => rw [hb] at h; cases h; exact .inr (.inr ⟨c, s', rfl, rfl⟩)
      | broken f => rw [hb] at h; cases h

/-- A command ends in a state whose tables its pseudocode has left: the rule from a body to its command. -/
theorem runCommand_ends {op : BitVec 4} {p : Bool} {body : State → Res Unit} {s t : State} {P : State → Prop}
    (h : runCommand op p body s = .next t) (h0 : P s) (hseq : ∀ u q d, P u → P (u.withSeq q d))
    (herr : ∀ u e, P u → P (u.withErr e)) (hfl : ∀ u c, P u → P (u.withInFlight c))
    (hb : (body (s.withSeq .busy false)).Ends P) : P t := by
  obtain ⟨-, rfl⟩ | ⟨-, -, rfl⟩ | ⟨-, -, ⟨s', e', rfl⟩ | ⟨e, s', e', rfl⟩ | ⟨c, s', e', rfl⟩⟩ := runCommand_cases h
  · exact h0
  · exact hseq _ _ _ (herr _ _ (hseq _ _ _ h0))
  · rw [e'] at hb; exact hseq _ _ _ hb
  · rw [e'] at hb; exact hseq _ _ _ (herr _ _ hb)
  · rw [e'] at hb; exact hfl _ _ hb

/-- Everything a transfer can do that answers a next state (log entry 7). -/
theorem runTransfer_cases {body : State → Res Unit} {s t : State} (h : runTransfer body s = .next t) :
    (s.seq ≠ .idle ∧ t = s) ∨
    (s.seq = .idle ∧
      ((body s = .ok () t) ∨ (∃ e s', body s = .raised e s' ∧ t = enterError e s') ∨
       (∃ c s', body s = .waits c s' ∧ t = (s'.withSeq .busy false).withInFlight (some c)))) := by
  cases hs : s.seq with
  | busy => simp [runTransfer, hs] at h; exact .inl ⟨by simp, h.symm⟩
  | error => simp [runTransfer, hs] at h; exact .inl ⟨by simp, h.symm⟩
  | idle =>
    refine .inr ⟨rfl, ?_⟩
    simp only [runTransfer, hs] at h
    cases hb : body s with
    | ok a s' => rw [hb] at h; cases h; exact .inl rfl
    | raised e s' => rw [hb] at h; cases h; exact .inr (.inl ⟨e, s', rfl, rfl⟩)
    | waits c s' => rw [hb] at h; cases h; exact .inr (.inr ⟨c, s', rfl, rfl⟩)
    | broken f => rw [hb] at h; cases h

@[simp] theorem thenRun_next (s : State) (f : State → Host.Outcome State Fault Refusal) :
    thenRun (.next s) f = f s := rfl

theorem thenRun_eq_next {r : Host.Outcome State Fault Refusal} {f : State → Host.Outcome State Fault Refusal}
    {t : State} : thenRun r f = .next t ↔ ∃ s, r = .next s ∧ f s = .next t := by
  cases r <;> simp [thenRun]

end Sys2Proof.Machine
end

