-- ==== Sys2Proof/Laws/Build.lean ====
section
/-! SUPPORT. BUILD: the order of the merge, the list that holds `live`, and what every pass of the loop keeps. -/

namespace Sys2Proof.Machine

/-! ## The order -/

theorem less_iff {a b : Live} :
    less a b = true ↔ a.1.toNat < b.1.toNat ∨ (a.1.toNat = b.1.toNat ∧ a.2.toNat < b.2.toNat) := by
  simp [less, BitVec.lt_def, ← BitVec.toNat_inj]

theorem less_trans {a b c : Live} (h : less a b = true) (h' : less b c = true) : less a c = true := by
  rw [less_iff] at *
  omega

theorem less_total {a b : Live} (h : a.2 ≠ b.2) (hn : less a b = false) : less b a = true := by
  have hn' : ¬ less a b = true := by simp [hn]
  have : a.2.toNat ≠ b.2.toNat := fun e => h (BitVec.eq_of_toNat_eq e)
  rw [less_iff] at hn' ⊢
  omega

theorem less_weight {a b : Live} (h : less a b = true) : a.1.toNat ≤ b.1.toNat := by
  rw [less_iff] at h
  omega

theorem less_ne {a b : Live} (h : less a b = true) : a.2 ≠ b.2 ∨ a.1 ≠ b.1 := by
  rw [less_iff] at h
  by_contra hc
  push Not at hc
  rw [hc.1, hc.2] at h
  omega

/-! ## The list -/

theorem insertLive_perm (x : Live) (l : List Live) : (insertLive x l).Perm (x :: l) := by
  induction l with
  | nil => exact .refl _
  | cons y ys ih =>
    rw [insertLive]
    split
    · exact .refl _
    · exact (ih.cons y).trans (.swap ..)

theorem mem_insertLive {x y : Live} {l : List Live} : y ∈ insertLive x l ↔ y = x ∨ y ∈ l := by
  rw [(insertLive_perm x l).mem_iff, List.mem_cons]

theorem insertLive_length (x : Live) (l : List Live) : (insertLive x l).length = l.length + 1 :=
  (insertLive_perm x l).length_eq

/-- In ascending order of `less`. -/
abbrev Ascending (l : List Live) : Prop := l.Pairwise fun a b => less a b = true

theorem insertLive_ascending {x : Live} {l : List Live} (h : Ascending l) (hx : ∀ y ∈ l, x.2 ≠ y.2) :
    Ascending (insertLive x l) := by
  induction l with
  | nil => simp [insertLive, Ascending]
  | cons y ys ih =>
    obtain ⟨hy, hys⟩ := List.pairwise_cons.mp h
    rw [insertLive]
    split
    · rename_i hlt
      refine List.pairwise_cons.mpr ⟨?_, h⟩
      intro z hz
      obtain rfl | hz := List.mem_cons.mp hz
      · exact hlt
      · exact less_trans hlt (hy z hz)
    · rename_i hlt
      refine List.pairwise_cons.mpr ⟨?_, ih hys fun z hz => hx z (List.mem_cons_of_mem _ hz)⟩
      intro z hz
      obtain rfl | hz := mem_insertLive.mp hz
      · exact less_total (hx y (List.mem_cons_self ..)) (by simpa using hlt)
      · exact hy z hz

/-- The leaf of index `i` as the order sees it (R110, R111). -/
def leafLive (ct : Vector Word 257) (i : Nat) : Live := ((ctAt ct i).setWidth 41, BitVec.ofNat 10 i)

theorem initialLive_perm (ct : Vector Word 257) (l : List Nat) :
    (l.foldr (fun i live => insertLive (leafLive ct i) live) []).Perm (l.map (leafLive ct)) := by
  induction l with
  | nil => exact .refl _
  | cons i l ih => exact (insertLive_perm _ _).trans (ih.cons _)

theorem initialLive_ascending (ct : Vector Word 257) (l : List Nat) (hl : l.Nodup) (hr : ∀ i ∈ l, i < 1024) :
    Ascending (l.foldr (fun i live => insertLive (leafLive ct i) live) []) := by
  induction l with
  | nil => exact .nil
  | cons i l ih =>
    obtain ⟨hi, hl⟩ := List.nodup_cons.mp hl
    refine insertLive_ascending (ih hl fun j hj => hr j (List.mem_cons_of_mem _ hj)) fun y hy => ?_
    rw [(initialLive_perm ct l).mem_iff, List.mem_map] at hy
    obtain ⟨j, hj, rfl⟩ := hy
    intro e
    have := congrArg BitVec.toNat e
    simp only [leafLive, BitVec.toNat_ofNat] at this
    have h1 := hr i (List.mem_cons_self ..)
    have h2 := hr j (List.mem_cons_of_mem _ hj)
    rw [Nat.mod_eq_of_lt h1, Nat.mod_eq_of_lt h2] at this
    exact hi (this ▸ hj)

/-- The leaves are where the pseudocode puts them (R110). -/
theorem buildLeaves_get (ct : Vector Word 257) (node : Vector Node 513) (k : Nat) (hk : k < 257) :
    (buildLeaves ct node)[k]? = some (buildLeaf ct k) := by
  have h : ∀ n ≤ 257, ∀ k < n,
      ((List.range n).foldl (fun node i => nodeSet node (BitVec.ofNat 10 i) (buildLeaf ct i)) node)[k]? =
        some (buildLeaf ct k) := by
    intro n
    induction n with
    | zero => intro _ k hk; omega
    | succ n ih =>
      intro hn k hk
      rw [List.range_succ, List.foldl_append, List.foldl_cons, List.foldl_nil,
        getElem?_nodeSet _ _ _ _ (by simp only [BitVec.toNat_ofNat]; omega)]
      have e : (BitVec.ofNat 10 n).toNat = n := by simp only [BitVec.toNat_ofNat]; omega
      rw [e]
      by_cases h : k = n
      · rw [if_pos h, h]
      · rw [if_neg h]; exact ih (by omega) k (by omega)
  exact h 257 (Nat.le_refl _) k hk

/-! ## The loop -/

/-- The child of no record from 257 up to `hi`. -/
def NoChild (node : Vector Node 513) (hi j : Nat) : Prop :=
  ∀ p n, 257 ≤ p → p < hi → node[p]? = some n → n.left.toNat ≠ j ∧ n.right.toNat ≠ j

/-- What every pass of BUILD's loop keeps; `total` is the sum of all weights (R114). -/
structure MergeInv (ct : Vector Word 257) (total : Nat) (m : Merging) : Prop where
  count : m.live.length + m.next.toNat = 514
  lower : 257 ≤ m.next.toNat
  upper : m.next.toNat ≤ 513
  sorted : Ascending m.live
  weighed : ∀ x ∈ m.live, x.2.toNat < m.next.toNat ∧ ∃ n, m.node[x.2.toNat]? = some n ∧ n.weight = x.1
  sum : (m.live.map fun x => x.1.toNat).sum = total
  leaves : ∀ k, k < 257 → m.node[k]? = some (buildLeaf ct k)
  internals : ∀ k, 257 ≤ k → k < m.next.toNat → ∃ w l r a b, m.node[k]? = some (internalNode w l r) ∧
    l.toNat < k ∧ r.toNat < k ∧ m.node[l.toNat]? = some a ∧ m.node[r.toNat]? = some b ∧
    less (a.weight, l) (b.weight, r) = true ∧ w.toNat = a.weight.toNat + b.weight.toNat ∧
    ∀ j c, j < k → m.node[j]? = some c → NoChild m.node k j → j = l.toNat ∨ j = r.toNat ∨
      (less (a.weight, l) (c.weight, BitVec.ofNat 10 j) = true ∧ less (b.weight, r) (c.weight, BitVec.ofNat 10 j) = true)
  unmerged : ∀ j, j < m.next.toNat → ((∃ x ∈ m.live, x.2.toNat = j) ↔ NoChild m.node m.next.toNat j)
  oneParent : ∀ j p q n n', 257 ≤ p → p < m.next.toNat → m.node[p]? = some n → (n.left.toNat = j ∨ n.right.toNat = j) →
    257 ≤ q → q < m.next.toNat → m.node[q]? = some n' → (n'.left.toNat = j ∨ n'.right.toNat = j) → p = q
  bound : ∀ k n, 257 ≤ k → k < m.next.toNat → m.node[k]? = some n → ∀ a b rest, m.live = a :: b :: rest →
    n.weight.toNat ≤ a.1.toNat + b.1.toNat
  rising : ∀ j k n n', 257 ≤ j → j ≤ k → k < m.next.toNat → m.node[j]? = some n → m.node[k]? = some n' →
    n.weight.toNat ≤ n'.weight.toNat

/-- One pass (R110). -/
def merged (m : Merging) (a b : Live) (rest : List Live) : Merging :=
  { node := nodeSet m.node m.next (internalNode (a.1 + b.1) a.2 b.2)
    live := insertLive (a.1 + b.1, m.next) rest
    next := m.next + 1 }

theorem merged_inv {ct : Vector Word 257} {total : Nat} {m : Merging} {a b : Live} {rest : List Live}
    (h : MergeInv ct total m) (ht : total < 2 ^ 41) (hl : m.live = a :: b :: rest) :
    MergeInv ct total (merged m a b rest) := by
  have hcount := h.count
  have hsorted := h.sorted
  have hsum := h.sum
  rw [hl] at hcount hsorted hsum
  simp only [List.length_cons, List.map_cons, List.sum_cons] at hcount hsum
  obtain ⟨ha, hsorted'⟩ := List.pairwise_cons.mp hsorted
  obtain ⟨hb, hrest⟩ := List.pairwise_cons.mp hsorted'
  have hab := ha b (List.mem_cons_self ..)
  have hma : a ∈ m.live := by simp [hl]
  have hmb : b ∈ m.live := by simp [hl]
  have hmr : ∀ x ∈ rest, x ∈ m.live := fun x hx => by simp [hl, hx]
  obtain ⟨ha1, na, ha2, ha3⟩ := h.weighed a hma
  obtain ⟨hb1, nb, hb2, hb3⟩ := h.weighed b hmb
  have hlower := h.lower
  have hnext : (m.next + 1).toNat = m.next.toNat + 1 := by
    rw [BitVec.toNat_add, show BitVec.toNat (1 : NodeIx) = 1 from rfl]
    omega
  have hw : (a.1 + b.1).toNat = a.1.toNat + b.1.toNat := by
    rw [BitVec.toNat_add]
    omega
  have hself : (nodeSet m.node m.next (internalNode (a.1 + b.1) a.2 b.2))[m.next.toNat]? =
      some (internalNode (a.1 + b.1) a.2 b.2) := by
    rw [getElem?_nodeSet _ _ _ _ (by omega), if_pos rfl]
  have hold : ∀ j, j ≠ m.next.toNat → (nodeSet m.node m.next (internalNode (a.1 + b.1) a.2 b.2))[j]? = m.node[j]? := by
    intro j hj
    rw [getElem?_nodeSet _ _ _ _ (by omega), if_neg hj]
  -- nothing live has the same index as another
  have hidx : ∀ x ∈ rest, x.2 ≠ a.2 ∧ x.2 ≠ b.2 := by
    intro x hx
    obtain ⟨-, n, hn1, hn2⟩ := h.weighed x (hmr x hx)
    constructor
    · intro e
      rw [e, ha2] at hn1
      cases hn1
      exact (less_ne (ha x (List.mem_cons_of_mem _ hx))).elim (fun h => h e.symm) fun h => h (by rw [← ha3, hn2])
    · intro e
      rw [e, hb2] at hn1
      cases hn1
      exact (less_ne (hb x hx)).elim (fun h => h e.symm) fun h => h (by rw [← hb3, hn2])
  have hnewChild : ∀ (k j : Nat), k ≤ m.next.toNat →
      (NoChild (nodeSet m.node m.next (internalNode (a.1 + b.1) a.2 b.2)) k j ↔ NoChild m.node k j) := by
    intro k j hk
    constructor <;> intro hh p n h1 h2 h3
    · exact hh p n h1 h2 (by rw [hold p (by omega)]; exact h3)
    · exact hh p n h1 h2 (by rw [← hold p (by omega)]; exact h3)
  refine ⟨?_, ?_, ?_, ?_, ?_, ?_, ?_, ?_, ?_, ?_, ?_, ?_⟩
  · simp only [merged, insertLive_length, hnext]; omega
  · simp only [merged, hnext]; omega
  · simp only [merged, hnext]; omega
  · refine insertLive_ascending hrest fun y hy e => ?_
    have := (h.weighed y (hmr y hy)).1
    rw [← e] at this
    simp at this
  · intro x hx
    simp only [merged, hnext] at hx ⊢
    obtain rfl | hx := mem_insertLive.mp hx
    · exact ⟨by show m.next.toNat < _; omega, _, hself, rfl⟩
    · obtain ⟨h1, n, h2, h3⟩ := h.weighed x (hmr x hx)
      exact ⟨by omega, n, by rw [hold _ (by omega)]; exact h2, h3⟩
  · simp only [merged]
    rw [((insertLive_perm (a.1 + b.1, m.next) rest).map _).sum_eq, List.map_cons, List.sum_cons, hw]
    omega
  · intro k hk
    simp only [merged]
    rw [hold k (by omega)]
    exact h.leaves k hk
  · intro k h1 h2
    simp only [merged, hnext] at h2 ⊢
    by_cases hk : k = m.next.toNat
    · subst hk
      refine ⟨a.1 + b.1, a.2, b.2, na, nb, hself, ha1, hb1, by rw [hold _ (by omega)]; exact ha2,
        by rw [hold _ (by omega)]; exact hb2, by rw [ha3, hb3]; exact hab, by rw [hw, ha3, hb3], ?_⟩
      intro j c hj hc hno
      rw [hnewChild _ _ (Nat.le_refl _)] at hno
      rw [hold j (by omega)] at hc
      obtain ⟨x, hx, rfl⟩ := (h.unmerged j hj).mpr hno
      obtain ⟨-, n, hn1, hn2⟩ := h.weighed x hx
      rw [hc] at hn1
      cases hn1
      have hxe : (c.weight, BitVec.ofNat 10 x.2.toNat) = x := by simp [hn2]
      rw [hxe, ha3, hb3]
      rw [hl] at hx
      obtain rfl | hx := List.mem_cons.mp hx
      · exact .inl rfl
      obtain rfl | hx := List.mem_cons.mp hx
      · exact .inr (.inl rfl)
      exact .inr (.inr ⟨ha x (List.mem_cons_of_mem _ hx), hb x hx⟩)
    · obtain ⟨w, l, r, x, y, e1, e2, e3, e4, e5, e6, e7, e8⟩ := h.internals k h1 (by omega)
      refine ⟨w, l, r, x, y, by rw [hold k hk]; exact e1, e2, e3, by rw [hold _ (by omega)]; exact e4,
        by rw [hold _ (by omega)]; exact e5, e6, e7, ?_⟩
      intro j c hj hc hno
      rw [hnewChild _ _ (by omega)] at hno
      rw [hold j (by omega)] at hc
      exact e8 j c hj hc hno
  · intro j hj
    simp only [merged, hnext] at hj ⊢
    have hno' : NoChild (nodeSet m.node m.next (internalNode (a.1 + b.1) a.2 b.2)) (m.next.toNat + 1) j ↔
        NoChild m.node m.next.toNat j ∧ a.2.toNat ≠ j ∧ b.2.toNat ≠ j := by
      rw [← hnewChild _ _ (Nat.le_refl _)]
      constructor
      · intro hh
        exact ⟨fun p n h1 h2 h3 => hh p n h1 (by omega) h3, hh _ _ hlower (by omega) hself⟩
      · rintro ⟨h1, h2⟩ p n h3 h4 h5
        by_cases hp : p = m.next.toNat
        · subst hp; rw [hself] at h5; cases h5; exact h2
        · exact h1 p n h3 (by omega) h5
    rw [hno']
    by_cases hjn : j = m.next.toNat
    · subst hjn
      constructor
      · intro _
        refine ⟨fun p n h1 h2 h3 => ?_, by omega, by omega⟩
        obtain ⟨w, l, r, x, y, e1, e2, e3, -⟩ := h.internals p h1 h2
        rw [e1] at h3
        cases h3
        simp only [internalNode_left, internalNode_right]
        omega
      · intro _
        exact ⟨_, mem_insertLive.mpr (.inl rfl), rfl⟩
    · rw [← h.unmerged j (by omega)]
      constructor
      · rintro ⟨x, hx, rfl⟩
        obtain rfl | hx := mem_insertLive.mp hx
        · exact absurd rfl hjn
        · obtain ⟨i1, i2⟩ := hidx x hx
          exact ⟨⟨x, hmr x hx, rfl⟩, fun e => i1 (BitVec.eq_of_toNat_eq e.symm),
            fun e => i2 (BitVec.eq_of_toNat_eq e.symm)⟩
      · rintro ⟨⟨x, hx, rfl⟩, i1, i2⟩
        rw [hl] at hx
        obtain rfl | hx := List.mem_cons.mp hx
        · exact absurd rfl i1
        obtain rfl | hx := List.mem_cons.mp hx
        · exact absurd rfl i2
        exact ⟨x, mem_insertLive.mpr (.inr hx), rfl⟩
  · intro j p q n n' p1 p2 p3 p4 q1 q2 q3 q4
    simp only [merged, hnext] at p2 p3 q2 q3
    have key : ∀ {p n}, 257 ≤ p → p < m.next.toNat → m.node[p]? = some n → (n.left.toNat = j ∨ n.right.toNat = j) →
        a.2.toNat ≠ j ∧ b.2.toNat ≠ j := by
      intro p n p1 p2 p3 p4
      have hpj : j < m.next.toNat := by
        obtain ⟨w, l, r, x, y, e1, e2, e3, -⟩ := h.internals p p1 p2
        rw [e1] at p3
        cases p3
        simp only [internalNode_left, internalNode_right] at p4
        omega
      have hnot : ¬ NoChild m.node m.next.toNat j := fun hh => by
        have := hh p n p1 p2 p3
        omega
      rw [← h.unmerged j hpj] at hnot
      exact ⟨fun e => hnot ⟨a, hma, e⟩, fun e => hnot ⟨b, hmb, e⟩⟩
    by_cases hp : p = m.next.toNat <;> by_cases hq : q = m.next.toNat
    · omega
    · subst hp
      rw [hself] at p3
      cases p3
      rw [hold q hq] at q3
      have := key q1 (by omega) q3 q4
      simp only [internalNode_left, internalNode_right] at p4
      omega
    · subst hq
      rw [hself] at q3
      cases q3
      rw [hold p hp] at p3
      have := key p1 (by omega) p3 p4
      simp only [internalNode_left, internalNode_right] at q4
      omega
    · rw [hold p hp] at p3
      rw [hold q hq] at q3
      exact h.oneParent j p q n n' p1 (by omega) p3 p4 q1 (by omega) q3 q4
  · intro k n h1 h2 h3 x y zs hxy
    simp only [merged, hnext] at h2 h3 hxy
    have hge : ∀ z ∈ insertLive (a.1 + b.1, m.next) rest, b.1.toNat ≤ z.1.toNat := by
      intro z hz
      obtain rfl | hz := mem_insertLive.mp hz
      · simp only [hw]; omega
      · exact less_weight (hb z hz)
    have hx := hge x (by simp [hxy])
    have hy := hge y (by simp [hxy])
    have hle := less_weight hab
    by_cases hk : k = m.next.toNat
    · subst hk
      rw [hself] at h3
      cases h3
      simp only [internalNode_weight, hw]
      omega
    · rw [hold k hk] at h3
      have := h.bound k n h1 (by omega) h3 a b rest hl
      omega
  · intro j k n n' h1 h2 h3 h4 h5
    simp only [merged, hnext] at h3 h4 h5
    by_cases hk : k = m.next.toNat
    · by_cases hj : j = m.next.toNat
      · subst hk; subst hj
        rw [h4] at h5
        cases h5
        exact Nat.le_refl _
      · subst hk
        rw [hself] at h5
        cases h5
        rw [hold j hj] at h4
        simpa only [internalNode_weight, hw] using h.bound j n h1 (by omega) h4 a b rest hl
    · rw [hold k hk] at h5
      rw [hold j (by omega)] at h4
      exact h.rising j k n n' h1 h2 (by omega) h4 h5

theorem mergeLoop_inv {ct : Vector Word 257} {total : Nat} (fuel : Nat) {m : Merging} (h : MergeInv ct total m)
    (ht : total < 2 ^ 41) : MergeInv ct total (mergeLoop fuel m) := by
  induction fuel generalizing m with
  | zero => exact h
  | succ fuel ih =>
    rw [mergeLoop]
    split
    · rename_i a b rest hl
      exact ih (merged_inv h ht hl)
    · exact h

/-- The loop has passes enough (R114). -/
theorem mergeLoop_length (fuel : Nat) {m : Merging} (h : m.live.length ≤ fuel + 1) :
    (mergeLoop fuel m).live.length ≤ 1 := by
  induction fuel generalizing m with
  | zero => simpa [mergeLoop] using h
  | succ fuel ih =>
    rw [mergeLoop]
    split
    · rename_i a b rest hl
      rw [hl] at h
      refine ih ?_
      simp only [insertLive_length]
      simp only [List.length_cons] at h
      omega
    · rename_i hl
      match hm : m.live with
      | [] => simp
      | [_] => simp
      | a :: b :: rest => exact absurd hm (hl a b rest)

/-- The sum of the counts, the pseudo-EOF's included (R114). -/
def totalCount (ct : Vector Word 257) : Nat := ((List.range 257).map fun v => (ctAt ct v).toNat).sum

theorem totalCount_lt (ct : Vector Word 257) : totalCount ct < 2 ^ 41 := by
  have h : ∀ l : List Nat, (l.map fun v => (ctAt ct v).toNat).sum ≤ l.length * (2 ^ 32 - 1) := by
    intro l
    induction l with
    | nil => simp
    | cons v l ih =>
      simp only [List.map_cons, List.sum_cons, List.length_cons]
      have := (ctAt ct v).isLt
      omega
  have := h (List.range 257)
  simp only [List.length_range] at this
  rw [totalCount]
  omega

/-- The state of the loop at its start meets the invariant. -/
theorem initial_inv {ct : Vector Word 257} {node : Vector Node 513} {live : List Live} {next : NodeIx}
    (hperm : live.Perm ((List.range 257).map (leafLive ct))) (hsorted : Ascending live)
    (hn : next.toNat = 257) : MergeInv ct (totalCount ct) { node := buildLeaves ct node, live := live, next := next } := by
  have hix : ∀ i < 257, (leafLive ct i).2.toNat = i := by
    intro i hi
    simp only [leafLive, BitVec.toNat_ofNat]
    omega
  have hmem : ∀ x, x ∈ live ↔ ∃ i < 257, leafLive ct i = x := by
    intro x
    rw [hperm.mem_iff]
    simp
  refine ⟨?_, ?_, ?_, ?_, ?_, ?_, ?_, ?_, ?_, ?_, ?_, ?_⟩
  · simp only [hperm.length_eq, List.length_map, List.length_range, hn]
  · simp only [hn, Nat.le_refl]
  · simp only [hn]; omega
  · exact hsorted
  · intro x hx
    obtain ⟨i, hi, rfl⟩ := (hmem x).mp hx
    simp only [hn, hix i hi]
    exact ⟨hi, _, buildLeaves_get ct node i hi, rfl⟩
  · simp only [(hperm.map _).sum_eq, List.map_map, totalCount]
    congr 1
  · intro k hk
    dsimp only
    rw [buildLeaves_get ct node k hk]
  · intro k h1 h2
    simp only [hn] at h2
    omega
  · intro j hj
    simp only [hn] at hj ⊢
    constructor
    · intro _ p n h1 h2 _
      omega
    · intro _
      exact ⟨_, (hmem _).mpr ⟨j, hj, rfl⟩, hix j hj⟩
  · intro j p q n n' p1 p2
    simp only [hn] at p2
    omega
  · intro k n h1 h2
    simp only [hn] at h2
    omega
  · intro j k n n' h1 h2 h3
    simp only [hn] at h3
    omega

theorem start_inv (ct : Vector Word 257) (node : Vector Node 513) :
    MergeInv ct (totalCount ct) { node := buildLeaves ct node, live := initialLive ct, next := 257 } :=
  initial_inv (initialLive_perm ct (List.range 257))
    (initialLive_ascending ct _ List.nodup_range fun i hi => by have := List.mem_range.mp hi; omega) rfl

/-- BUILD's loop over a count table. -/
def buildMerges (ct : Vector Word 257) (node : Vector Node 513) : Merging :=
  mergeLoop 257 { node := buildLeaves ct node, live := initialLive ct, next := 257 }

/-- What BUILD's loop ends with: the invariant, 513 nodes, and the root last (R110, R114). -/
theorem buildMerges_spec (ct : Vector Word 257) (node : Vector Node 513) :
    MergeInv ct (totalCount ct) (buildMerges ct node) ∧ (buildMerges ct node).next = 513 ∧
      ∃ w, (buildMerges ct node).live = [(w, 512)] := by
  have h := mergeLoop_inv 257 (start_inv ct node) (totalCount_lt ct)
  have h0 := start_inv ct node
  have hlen := mergeLoop_length 257 (m := { node := buildLeaves ct node, live := initialLive ct, next := 257 })
    (by have := h0.count; have := h0.lower; simp only at *; omega)
  change MergeInv ct (totalCount ct) (buildMerges ct node) at h
  change (buildMerges ct node).live.length ≤ 1 at hlen
  have hc := h.count
  have hu := h.upper
  have hnext : (buildMerges ct node).next = 513 := BitVec.eq_of_toNat_eq (by
    rw [show BitVec.toNat (513 : NodeIx) = 513 from rfl]; omega)
  refine ⟨h, hnext, ?_⟩
  have hn : (buildMerges ct node).next.toNat = 513 := by rw [hnext]; rfl
  obtain ⟨x, hx, hx2⟩ := (h.unmerged 512 (by omega)).mpr (by
    intro p n h1 h2 h3
    obtain ⟨w, l, r, a, b, e1, e2, e3, -⟩ := h.internals p h1 h2
    rw [e1] at h3
    cases h3
    simp only [internalNode_left, internalNode_right]
    omega)
  match hl : (buildMerges ct node).live with
  | [] => rw [hl] at hx; cases hx
  | [y] =>
    rw [hl, List.mem_singleton] at hx
    subst hx
    refine ⟨x.1, ?_⟩
    have : x.2 = 512 := BitVec.eq_of_toNat_eq (by rw [hx2]; rfl)
    rw [← this]
  | y :: z :: rest => rw [hl] at hlen; simp at hlen

/-- BUILD's pseudocode answers `ok` in every state (R116), and this is what it leaves. -/
theorem buildBody_eq (s : State) :
    buildBody s = .ok () (((s.withCt (ctSet s.ct 256 1)).withTree (buildMerges (ctSet s.ct 256 1) s.node).node 512
      513).withValid true false) := by
  obtain ⟨-, hn, w, hl⟩ := buildMerges_spec (ctSet s.ct 256 1) s.node
  rw [buildMerges] at hn hl
  rw [buildBody]
  simp only [hn, hl]
  rfl

/-- The tree BUILD leaves is valid (R24, R114). -/
theorem treeInv_of_merges {ct : Vector Word 257} {total : Nat} {m : Merging} {s : State} (h : MergeInv ct total m)
    (hn : m.next = 513) (hl : ∃ w, m.live = [(w, 512)]) (hnode : s.node = m.node) (hroot : s.root = 512)
    (hnn : s.nnodes = 513) : TreeInv s := by
  have hn' : m.next.toNat = 513 := by rw [hn]; rfl
  have hnn' : s.nnodes.toNat = 513 := by rw [hnn]; rfl
  have hr' : s.root.toNat = 512 := by rw [hroot]; rfl
  obtain ⟨w, hl⟩ := hl
  have hget : ∀ {k : NodeIx} {n : Node}, nodeAt s k = some n ↔ k.toNat < 513 ∧ m.node[k.toNat]? = some n := by
    intro k n
    rw [nodeAt_eq_some, BitVec.lt_def, hnn', hnode]
  have hshape : ∀ {k : NodeIx} {n : Node}, nodeAt s k = some n → n.leaf = false → 257 ≤ k.toNat := by
    intro k n hk hlf
    obtain ⟨hlt, he⟩ := hget.mp hk
    by_contra hc
    rw [h.leaves _ (by omega)] at he
    cases he
    cases hlf
  refine ⟨by omega, by rw [hnn'], by omega, by omega, ?_, ?_, ?_⟩
  · intro k n hk
    obtain ⟨hlt, he⟩ := hget.mp hk
    by_cases hk' : k.toNat < 257
    · rw [h.leaves _ hk'] at he
      cases he
      refine .inl ⟨rfl, rfl, rfl, ?_⟩
      rw [BitVec.le_def, show BitVec.toNat pseudoEof = 256 from rfl]
      simp only [buildLeaf, leafNode_value, BitVec.toNat_ofNat]
      omega
    · obtain ⟨w, l, r, a, b, e1, e2, e3, e4, e5, e6, -⟩ := h.internals k.toNat (by omega) (by omega)
      rw [e1] at he
      cases he
      refine .inr ⟨rfl, rfl, ?_, BitVec.lt_def.mpr e2, BitVec.lt_def.mpr e3⟩
      intro e
      simp only [internalNode_left, internalNode_right] at e
      subst e
      rw [e4] at e5
      cases e5
      exact (less_ne e6).elim (fun h => h rfl) fun h => h rfl
  · intro k hk
    have hk' := BitVec.lt_def.mp hk
    have hno : ¬ NoChild m.node m.next.toNat k.toNat := by
      rw [← h.unmerged _ (by omega), hl]
      rintro ⟨x, hx, hx2⟩
      rw [List.mem_singleton] at hx
      subst hx
      have : BitVec.toNat (512 : NodeIx) = 512 := rfl
      simp only [this] at hx2
      omega
    unfold NoChild at hno
    push Not at hno
    obtain ⟨p, n, h1, h2, h3, h4⟩ := hno
    have h4' : n.left.toNat = k.toNat ∨ n.right.toNat = k.toNat := by
      by_cases e : n.left.toNat = k.toNat
      · exact .inl e
      · exact .inr (h4 e)
    have hp : (BitVec.ofNat 10 p).toNat = p := by simp only [BitVec.toNat_ofNat]; omega
    have hlf : n.leaf = false := by
      obtain ⟨w, l, r, a, b, e1, -⟩ := h.internals p h1 h2
      rw [e1] at h3
      cases h3
      rfl
    refine ⟨BitVec.ofNat 10 p, n, hget.mpr ⟨by omega, by rw [hp]; exact h3⟩, hlf,
      h4'.imp (fun e => BitVec.eq_of_toNat_eq e) fun e => BitVec.eq_of_toNat_eq e, ?_⟩
    intro p' n' hp' hl' hc'
    obtain ⟨hlt, he⟩ := hget.mp hp'
    apply BitVec.eq_of_toNat_eq
    rw [hp]
    exact h.oneParent k.toNat _ _ n' n (hshape hp' hl') (by omega) he (hc'.imp (congrArg _) (congrArg _)) h1 h2 h3 h4'
  · obtain ⟨w, l, r, a, b, e1, -⟩ := h.internals 512 (by omega) (by omega)
    exact ⟨_, hget.mpr ⟨by omega, by rw [hr']; exact e1⟩, rfl⟩

end Sys2Proof.Machine
end

