-- ==== Sys2Proof/Laws/Calls.lean ====
section
/-! SUPPORT. Which port calls an operation makes, and where it stands when one of them is not answered well. -/

namespace Sys2Proof.Machine

/-! ## Runs that stop at a call -/

/-- The next `n` port calls are answered without an error. -/
def Answers (n : Nat) (s : State) : Prop := ∀ d ∈ s.draws.take n, d = .answer ∨ (d = .ioErr ∧ s.ioCanFail = false)

theorem answers_of_portsAnswer {s : State} (h : s.PortsAnswer) (n : Nat) : Answers n s :=
  fun d hd => h d (List.mem_of_mem_take hd)

theorem answers_of_replicate {n : Nat} {s : State} {ds : List Draw} (h : s.draws = List.replicate n .answer ++ ds) :
    Answers n s := by
  intro d hd
  rw [h, List.take_left' (List.length_replicate ..)] at hd
  exact .inl (List.eq_of_mem_replicate hd)

theorem answers_le {m n : Nat} {s : State} (h : Answers n s) (hm : m ≤ n) : Answers m s :=
  fun d hd => h d (List.mem_of_mem_take (i := m) (by rwa [List.take_take, Nat.min_eq_left hm]))

theorem answers_drop {m n : Nat} {s u : State} (h : Answers (m + n) s) (hd : u.draws = s.draws.drop m)
    (hf : u.ioCanFail = s.ioCanFail) : Answers n u := by
  intro d hm
  rw [hd, List.take_drop] at hm
  rw [hf]
  exact h d (List.mem_of_mem_drop hm)

theorem answers_congr {n : Nat} {s t : State} (h : Answers n s) (hd : t.draws = s.draws)
    (hf : t.ioCanFail = s.ioCanFail) : Answers n t := by
  intro d hm
  rw [hd] at hm
  rw [hf]
  exact h d hm

/-- Where the next call is answered, so it is. -/
theorem takeDraw_of_answers {n : Nat} {s : State} (h : Answers (n + 1) s) :
    takeDraw s = (.answer, s.withDraws s.draws.tail) := by
  have h1 := h
  unfold Answers at h1
  unfold takeDraw
  split <;> rename_i hd
  · simp only [hd, List.tail_nil, Prod.mk.injEq, true_and]
    cases s
    simp_all [State.withDraws]
  · simp [hd]
  · have hf : s.ioCanFail = false := by simpa using h1 .ioErr (by simp [hd])
    simp [hd, hf]
  · have := h1 .silent (by simp [hd])
    simp at this

/-- A draw that ends an operation: no answer, or `IOERR` where a port can fail. -/
def Ends (s : State) (d : Draw) : Prop := d = .silent ∨ (d = .ioErr ∧ s.ioCanFail = true)

/-- The streams after `IOERR` at a port (R53, R55, R56). -/
def afterIoErr (c : PortCall) (s : State) : State :=
  match c with
  | .write bits => snkAfterError bits s
  | .read _ | .rewind => srcAfterError s

/-- How an operation ends at a call this draw is for (R184, R225). -/
def stopAt {α : Type} (d : Draw) (c : PortCall) (s : State) : Res α :=
  if d = .silent then .waits c s else .raised ⟨.io, ioSub c, 0⟩ (afterIoErr c s)

@[simp] theorem stopAt_andThen {α β : Type} (d : Draw) (c : PortCall) (s : State) (f : α → State → Res β) :
    (stopAt d c s : Res α).andThen f = stopAt d c s := by
  unfold stopAt; split <;> rfl

/-- What no port call changes: the source's bits, whether a port can fail, `STATE`, `DONE`. -/
def fixed (s : State) : List Bool × Bool × Seq × Bool := (s.srcBits, s.ioCanFail, s.seq, s.done)

/-- The streams after these calls, all answered. -/
structure After (s : State) (cs : List Call) (u : State) : Prop where
  pos : u.srcPos = s.posAfter cs
  sink : u.snkBits = s.snkBits ++ bitsSent cs
  same : fixed u = fixed s

theorem fixed_eq {s u : State} (h : fixed u = fixed s) :
    u.srcBits = s.srcBits ∧ u.ioCanFail = s.ioCanFail ∧ u.seq = s.seq ∧ u.done = s.done := by
  simpa [fixed] using h

theorem After.source {s u : State} {cs : List Call} (h : After s cs u) : u.srcBits = s.srcBits := (fixed_eq h.same).1
theorem After.fails {s u : State} {cs : List Call} (h : After s cs u) : u.ioCanFail = s.ioCanFail :=
  (fixed_eq h.same).2.1

theorem after_nil (s : State) : After s [] s := ⟨rfl, by simp [bitsSent], rfl⟩

theorem After.trans {s t u : State} {cs cs' : List Call} (h : After s cs t) (h' : After t cs' u) :
    After s (cs ++ cs') u := by
  refine ⟨?_, ?_, h'.same.trans h.same⟩
  · rw [h'.pos, State.posAfter, State.posAfter, List.foldl_append, h.source, h.pos]; rfl
  · rw [h'.sink, h.sink, bitsSent, bitsSent, bitsSent, List.flatMap_append, List.append_assoc]

/-- Only the streams' parts of the two states matter. -/
theorem After.congr {s s' u : State} {cs : List Call} (h : After s cs u) (h1 : s'.srcPos = s.srcPos)
    (h2 : s'.snkBits = s.snkBits) (h3 : fixed s' = fixed s) : After s' cs u := by
  refine ⟨?_, by rw [h.sink, h2], h.same.trans h3.symm⟩
  rw [h.pos, State.posAfter, State.posAfter, h1, (fixed_eq h3).1]

theorem After.of_same {s u u' : State} {cs : List Call} (h : After s cs u) (h1 : u'.srcPos = u.srcPos)
    (h2 : u'.snkBits = u.snkBits) (h3 : fixed u' = fixed u) : After s cs u' :=
  ⟨h1.trans h.pos, h2.trans h.sink, h3.trans h.same⟩

/-- The result `r` of an operation that starts in `s` and makes these calls: answered on the first of them, it stops
at the next if that one is not. -/
def StopsIn {α : Type} (r : Res α) (s : State) (cs : List Call) : Prop :=
  ∀ (k : Nat) (c : PortCall) (cur : NodeIx) (d : Draw) (ds : List Draw), cs[k]? = some (c, cur) → Ends s d →
    Answers k s → s.draws.drop k = d :: ds →
    ∃ u, r = stopAt d c u ∧ u.draws = ds ∧ u.cur = cur ∧ After s (cs.take k) u

/-- Answered on all these calls, it runs on to a result and a state with `Q`. -/
def Passes {α : Type} (r : Res α) (s : State) (cs : List Call) (Q : α → State → Prop) : Prop :=
  Answers cs.length s → ∃ a u, r = .ok a u ∧ u.draws = s.draws.drop cs.length ∧ After s cs u ∧ Q a u

/-- Answered on all these calls, it raises `e` in a state with `R`. -/
def Raises {α : Type} (r : Res α) (s : State) (cs : List Call) (e : Err) (R : State → Prop) : Prop :=
  Answers cs.length s → ∃ u, r = .raised e u ∧ u.draws = s.draws.drop cs.length ∧ After s cs u ∧ R u

theorem stops_nil {α : Type} (r : Res α) (s : State) : StopsIn r s [] := by
  intro k c cur d ds h
  simp at h

theorem stops_append_left {α : Type} {r : Res α} {s : State} {cs cs' : List Call} (h : StopsIn r s (cs ++ cs')) :
    StopsIn r s cs := by
  intro k c cur d ds hc hd ha hds
  have hk : k < cs.length := (List.getElem?_eq_some_iff.mp hc).1
  obtain ⟨u, e, h1, h2, h3⟩ := h k c cur d ds (by rw [List.getElem?_append_left hk]; exact hc) hd ha hds
  exact ⟨u, e, h1, h2, by rwa [List.take_append_of_le_length (by omega)] at h3⟩

/-- Only the streams and the draws of the starting state matter. -/
theorem stops_congr {α : Type} {r : Res α} {s s' : State} {cs : List Call} (h : StopsIn r s cs)
    (h0 : s'.draws = s.draws) (h1 : s'.srcPos = s.srcPos)
    (h2 : s'.snkBits = s.snkBits) (h3 : fixed s' = fixed s) : StopsIn r s' cs := by
  have h4 := (fixed_eq h3).2.1
  intro k c cur d ds hc hd ha hds
  obtain ⟨u, e, e1, e2, e3⟩ := h k c cur d ds hc (hd.imp_right fun h => ⟨h.1, h4.symm.trans h.2⟩)
    (answers_congr ha h0.symm h4.symm) (by rw [← h0]; exact hds)
  exact ⟨u, e, e1, e2, e3.congr h1 h2 h3⟩

/-- What an operation's first part stops at, it stops at. -/
theorem stops_andThen_left {α β : Type} {r : Res α} {f : α → State → Res β} {s : State} {cs : List Call}
    (h : StopsIn r s cs) : StopsIn (r.andThen f) s cs := by
  intro k c cur d ds hc hd ha hds
  obtain ⟨u, e, h'⟩ := h k c cur d ds hc hd ha hds
  exact ⟨u, by rw [e, stopAt_andThen], h'⟩

/-- The rule for sequencing: the second part's calls follow the first part's. -/
theorem stops_andThen {α β : Type} {r : Res α} {f : α → State → Res β} {s : State} {cs cs' : List Call}
    {Q : α → State → Prop} (hs : StopsIn r s cs) (hp : Passes r s cs Q)
    (hf : ∀ a t, Q a t → After s cs t → StopsIn (f a t) t cs') : StopsIn (r.andThen f) s (cs ++ cs') := by
  intro k c cur d ds hc hd ha hds
  by_cases hk : k < cs.length
  · rw [List.getElem?_append_left hk] at hc
    obtain ⟨u, e, h1, h2, h3⟩ := hs k c cur d ds hc hd ha hds
    exact ⟨u, by rw [e, stopAt_andThen], h1, h2, by rwa [List.take_append_of_le_length (by omega)]⟩
  · rw [List.getElem?_append_right (by omega)] at hc
    obtain ⟨j, rfl⟩ : ∃ j, k = cs.length + j := ⟨k - cs.length, by omega⟩
    rw [Nat.add_sub_cancel_left] at hc
    obtain ⟨a, t, e, ht, hA, hQ⟩ := hp (answers_le ha (by omega))
    obtain ⟨u, e', h1, h2, h3⟩ := hf a t hQ hA j c cur d ds hc (hd.imp_right fun h => ⟨h.1, hA.fails.trans h.2⟩)
      (answers_drop ha ht hA.fails) (by rw [ht, List.drop_drop]; exact hds)
    refine ⟨u, by rw [e, andThen_ok, e'], h1, h2, ?_⟩
    rw [List.take_append, List.take_of_length_le (by omega), Nat.add_sub_cancel_left]
    exact hA.trans h3

theorem passes_andThen {α β : Type} {r : Res α} {f : α → State → Res β} {s : State} {cs cs' : List Call}
    {Q : α → State → Prop} {R : β → State → Prop} (hp : Passes r s cs Q)
    (hf : ∀ a t, Q a t → After s cs t → Passes (f a t) t cs' R) : Passes (r.andThen f) s (cs ++ cs') R := by
  intro ha
  rw [List.length_append] at ha ⊢
  obtain ⟨a, t, e, ht, hA, hQ⟩ := hp (answers_le ha (by omega))
  obtain ⟨b, u, e', h1, h2, h3⟩ := hf a t hQ hA (answers_drop ha ht hA.fails)
  exact ⟨b, u, by rw [e, andThen_ok, e'], by rw [h1, ht, List.drop_drop], hA.trans h2, h3⟩

theorem raises_andThen {α β : Type} {r : Res α} {f : α → State → Res β} {s : State} {cs cs' : List Call}
    {Q : α → State → Prop} {e : Err} {R : State → Prop} (hp : Passes r s cs Q)
    (hf : ∀ a t, Q a t → After s cs t → Raises (f a t) t cs' e R) : Raises (r.andThen f) s (cs ++ cs') e R := by
  intro ha
  rw [List.length_append] at ha ⊢
  obtain ⟨a, t, e, ht, hA, hQ⟩ := hp (answers_le ha (by omega))
  obtain ⟨u, e', h1, h2, h3⟩ := hf a t hQ hA (answers_drop ha ht hA.fails)
  exact ⟨u, by rw [e, andThen_ok, e'], by rw [h1, ht, List.drop_drop], hA.trans h2, h3⟩

theorem raises_andThen_left {α β : Type} {r : Res α} {f : α → State → Res β} {s : State} {cs : List Call} {e : Err}
    {R : State → Prop} (h : Raises r s cs e R) : Raises (r.andThen f) s cs e R := by
  intro ha
  obtain ⟨u, e, h'⟩ := h ha
  exact ⟨u, by rw [e, andThen_raised], h'⟩

/-- No call: what is answered at once, the streams and the draws as they were. -/
theorem passes_ok {α : Type} {Q : α → State → Prop} {a : α} {s t : State} (hd : t.draws = s.draws) (hA : After s [] t)
    (h : Q a t) : Passes (.ok a t) s [] Q := fun _ => ⟨a, t, rfl, hd, hA, h⟩

theorem raises_now {α : Type} {R : State → Prop} (e : Err) (s : State) (h : R s) :
    Raises (.raised e s : Res α) s [] e R := fun _ => ⟨s, rfl, rfl, after_nil s, h⟩

theorem passes_mono {α : Type} {r : Res α} {s : State} {cs : List Call} {Q R : α → State → Prop}
    (h : Passes r s cs Q) (hQ : ∀ a t, Q a t → R a t) : Passes r s cs R := by
  intro ha
  obtain ⟨a, u, e, h1, h2, h3⟩ := h ha
  exact ⟨a, u, e, h1, h2, hQ a u h3⟩

theorem raises_mono {α : Type} {r : Res α} {s : State} {cs : List Call} {e : Err} {Q R : State → Prop}
    (h : Raises r s cs e Q) (hQ : ∀ t, Q t → R t) : Raises r s cs e R := by
  intro ha
  obtain ⟨u, e, h1, h2, h3⟩ := h ha
  exact ⟨u, e, h1, h2, hQ u h3⟩

/-! ## The ports -/

theorem takeDraw_ends {s : State} {d : Draw} {ds : List Draw} (hd : Ends s d) (h : s.draws = d :: ds) :
    takeDraw s = (d, s.withDraws ds) := by
  obtain rfl | ⟨rfl, hf⟩ := hd
  · simp [takeDraw, h]
  · simp [takeDraw, h, hf]

/-- The state after a read of `n` bits is answered with a value, and with end-of-data. -/
abbrev readOn (n : Nat) (s : State) : State := (s.withDraws s.draws.tail).withSrcPos (s.srcPos + n)
abbrev readOut (s : State) : State := (s.withDraws s.draws.tail).withSrcPos s.srcBits.length

/-- A field read that is answered runs the continuation for the answer. -/
theorem readField_cons {α : Type} {n m : Nat} {e : State → Res α} {v : BitVec n → State → Res α} {s : State}
    (h : Answers (m + 1) s) :
    (s.srcPos + n ≤ s.srcBits.length →
      readField n e v s = v (ofBits n (s.unread.take n)) (readOn n s) ∧ After s [(.read n, s.cur)] (readOn n s)) ∧
    (s.srcBits.length < s.srcPos + n →
      readField n e v s = e (readOut s) ∧ After s [(.read n, s.cur)] (readOut s)) := by
  constructor <;> intro hn
  · exact ⟨by simp [readField, srcRead, takeDraw_of_answers h, srcNext, srcAfterRead, hn, State.unread],
      by simp [State.posAfter]; omega, by simp [bitsSent], rfl⟩
  · have hp : ¬ s.srcPos + n ≤ s.srcBits.length := by omega
    exact ⟨by simp [readField, srcRead, takeDraw_of_answers h, srcNext, srcAfterRead, hp],
      by simp [State.posAfter]; omega, by simp [bitsSent], rfl⟩

theorem answers_tail {n : Nat} {s u : State} (h : Answers (n + 1) s) (hd : u.draws = s.draws.tail)
    (hf : u.ioCanFail = s.ioCanFail) : Answers n u :=
  answers_drop (m := 1) (by rwa [Nat.add_comm]) (by rw [hd, List.drop_one]) hf

theorem readField_stop {α : Type} {n : Nat} {e : State → Res α} {v : BitVec n → State → Res α} {s : State} {d : Draw}
    {ds : List Draw} (hd : Ends s d) (h : s.draws = d :: ds) :
    readField n e v s = stopAt d (.read n) (s.withDraws ds) := by
  obtain rfl | ⟨rfl, -⟩ := id hd
  · simp [readField, srcRead, takeDraw_ends hd h, stopAt]
  · simp only [readField, srcRead, takeDraw_ends hd h, stopAt]; rfl

/-- The rules for a field read: one call, then those of the continuation. -/
theorem stops_readField {α : Type} {n : Nat} {e : State → Res α} {v : BitVec n → State → Res α} {s : State}
    {cs : List Call}
    (hv : s.srcPos + n ≤ s.srcBits.length → StopsIn (v (ofBits n (s.unread.take n)) (readOn n s)) (readOn n s) cs)
    (he : s.srcBits.length < s.srcPos + n → StopsIn (e (readOut s)) (readOut s) cs) :
    StopsIn (readField n e v s) s ((.read n, s.cur) :: cs) := by
  intro k c cur d ds hc hd ha hds
  cases k with
  | zero =>
    simp only [List.getElem?_cons_zero, Option.some.injEq, Prod.mk.injEq] at hc
    obtain ⟨rfl, rfl⟩ := hc
    exact ⟨_, readField_stop hd hds, rfl, rfl, rfl, by simp [bitsSent], rfl⟩
  | succ k =>
    rw [List.getElem?_cons_succ] at hc
    have hr := readField_cons (e := e) (v := v) (n := n) ha
    have ht : s.draws.tail.drop k = d :: ds := by rw [List.drop_tail, hds]
    by_cases hn : s.srcPos + n ≤ s.srcBits.length
    · obtain ⟨u, e', h1, h2, h3⟩ := hv hn k c cur d ds hc hd (answers_tail ha rfl rfl) ht
      exact ⟨u, by rw [(hr.1 hn).1, e'], h1, h2, (hr.1 hn).2.trans h3⟩
    · obtain ⟨u, e', h1, h2, h3⟩ := he (by omega) k c cur d ds hc hd (answers_tail ha rfl rfl) ht
      exact ⟨u, by rw [(hr.2 (by omega)).1, e'], h1, h2, (hr.2 (by omega)).2.trans h3⟩

theorem passes_readField {α : Type} {n : Nat} {e : State → Res α} {v : BitVec n → State → Res α} {s : State}
    {cs : List Call} {Q : α → State → Prop} (hn : s.srcPos + n ≤ s.srcBits.length)
    (hv : Passes (v (ofBits n (s.unread.take n)) (readOn n s)) (readOn n s) cs Q) :
    Passes (readField n e v s) s ((.read n, s.cur) :: cs) Q := by
  intro ha
  have hr := (readField_cons (e := e) (v := v) (n := n) ha).1 hn
  obtain ⟨a, u, e', h1, h2, h3⟩ := hv (answers_tail ha rfl rfl)
  exact ⟨a, u, by rw [hr.1, e'], by rw [h1, List.length_cons]; simp, hr.2.trans h2, h3⟩

theorem raises_readField {α : Type} {n : Nat} {e : State → Res α} {v : BitVec n → State → Res α} {s : State}
    {cs : List Call} {err : Err} {R : State → Prop}
    (hv : s.srcPos + n ≤ s.srcBits.length →
      Raises (v (ofBits n (s.unread.take n)) (readOn n s)) (readOn n s) cs err R)
    (he : s.srcBits.length < s.srcPos + n → Raises (e (readOut s)) (readOut s) cs err R) :
    Raises (readField n e v s) s ((.read n, s.cur) :: cs) err R := by
  intro ha
  have hr := readField_cons (e := e) (v := v) (n := n) ha
  by_cases hn : s.srcPos + n ≤ s.srcBits.length
  · obtain ⟨u, e', h1, h2, h3⟩ := hv hn (answers_tail ha rfl rfl)
    exact ⟨u, by rw [(hr.1 hn).1, e'], by rw [h1, List.length_cons]; simp, (hr.1 hn).2.trans h2, h3⟩
  · obtain ⟨u, e', h1, h2, h3⟩ := he (by omega) (answers_tail ha rfl rfl)
    exact ⟨u, by rw [(hr.2 (by omega)).1, e'], by rw [h1, List.length_cons]; simp, (hr.2 (by omega)).2.trans h2, h3⟩

/-- What a write of bits leaves: the same state but for the sink and the draws. -/
def OnlySink (s t : State) : Prop := t = (s.withSnk t.snkBits).withDraws t.draws

theorem onlySink_refl (s : State) : OnlySink s s := rfl

theorem OnlySink.trans {s t u : State} (h : OnlySink s t) (h' : OnlySink t u) : OnlySink s u := by
  unfold OnlySink at *
  rw [h', h]
  rfl

theorem OnlySink.kept {s t : State} (h : OnlySink s t) : t.cur = s.cur ∧ t.code = s.code ∧ t.node = s.node ∧
    t.nnodes = s.nnodes ∧ t.root = s.root ∧ t.srcBits = s.srcBits ∧ t.srcPos = s.srcPos := by
  rw [h]; exact ⟨rfl, rfl, rfl, rfl, rfl, rfl, rfl⟩

theorem calls_congr {s t : State} (h : t.cur = s.cur) (cs : List PortCall) : calls t cs = calls s cs := by
  rw [calls, calls, h]

theorem calls_append (s : State) (a b : List PortCall) : calls s (a ++ b) = calls s a ++ calls s b :=
  List.map_append

theorem stops_put {n : Nat} (v : BitVec n) (s : State) : StopsIn (put v s) s (calls s [.write (binBits v)]) := by
  intro k c cur d ds hc hd _ hds
  cases k with
  | zero =>
    simp only [calls, List.map_cons, List.getElem?_cons_zero, Option.some.injEq, Prod.mk.injEq] at hc
    obtain ⟨rfl, rfl⟩ := hc
    refine ⟨s.withDraws ds, ?_, rfl, rfl, rfl, by simp [bitsSent], rfl⟩
    obtain rfl | ⟨rfl, -⟩ := id hd
    · simp [put, snkWrite, takeDraw_ends hd hds, stopAt]
    · simp only [put, snkWrite, takeDraw_ends hd hds, stopAt]; rfl
  | succ k => simp [calls] at hc

theorem passes_put {n : Nat} (v : BitVec n) (s : State) :
    Passes (put v s) s (calls s [.write (binBits v)]) fun _ => OnlySink s := by
  intro ha
  exact ⟨(), (s.withDraws s.draws.tail).withSnk (s.snkBits ++ binBits v),
    by simp [put, snkWrite, takeDraw_of_answers ha, snkAfterWrite], by simp [calls],
    ⟨rfl, by simp [bitsSent, calls], rfl⟩, rfl⟩

/-- A bit string is written one bit a call (R57). -/
theorem putBits_calls (bits : List Bool) (s : State) :
    StopsIn (putBits bits s) s (calls s (bitWrites bits)) ∧
    Passes (putBits bits s) s (calls s (bitWrites bits)) fun _ => OnlySink s := by
  induction bits generalizing s with
  | nil => exact ⟨stops_nil _ s, passes_ok rfl (after_nil s) (onlySink_refl s)⟩
  | cons b bits ih =>
    have hp := passes_put (BitVec.ofBool b) s
    have hs := stops_put (BitVec.ofBool b) s
    rw [binBits_ofBool] at hp hs
    have e : calls s (bitWrites (b :: bits)) = calls s [.write [b]] ++ calls s (bitWrites bits) := rfl
    rw [e, putBits]
    refine ⟨stops_andThen hs hp fun _ t ht _ => ?_, passes_andThen hp fun _ t ht _ => ?_⟩
    · rw [← calls_congr ht.kept.1]
      exact (ih t).1
    · rw [← calls_congr ht.kept.1]
      exact passes_mono (ih t).2 fun _ _ h => ht.trans h

/-! ## Commands and transfers -/

/-- Where an accepted instruction stands when a call is never answered, or answered `IOERR` (R184, R190, R225). -/
def stoppedAt (d : Draw) (c : PortCall) (u : State) : State :=
  if d = .silent then u.withInFlight (some c) else enterError ⟨.io, ioSub c, 0⟩ (afterIoErr c u)

/-- An accepted command whose calls these are stops at the next of them that is not answered. -/
theorem runCommand_stops {op : BitVec 4} {p : Bool} {body : State → Res Unit} {s : State} {cs : List Call} {k : Nat}
    {c : PortCall} {cur : NodeIx} {d : Draw} {ds : List Draw} (hs : s.seq = .idle) (hp : p = true)
    (hb : StopsIn (body (s.withSeq .busy false)) (s.withSeq .busy false) cs) (hc : cs[k]? = some (c, cur))
    (hd : Ends s d) (hds : s.draws = List.replicate k .answer ++ d :: ds) :
    ∃ u, body (s.withSeq .busy false) = stopAt d c u ∧ runCommand op p body s = .next (stoppedAt d c u) ∧
      u.draws = ds ∧ u.cur = cur ∧ After (s.withSeq .busy false) (cs.take k) u := by
  obtain ⟨u, e, h1, h2, h3⟩ := hb k c cur d ds hc hd (answers_of_replicate hds)
    (by rw [State.withSeq_draws, hds, List.drop_left' (List.length_replicate ..)])
  refine ⟨u, e, ?_, h1, h2, h3⟩
  rw [hp, runCommand_idle hs, e, stopAt, stoppedAt]
  split <;> rfl

/-- So does a transfer. -/
theorem runTransfer_stops {body : State → Res Unit} {s : State} {cs : List Call} {k : Nat} {c : PortCall}
    {cur : NodeIx} {d : Draw} {ds : List Draw} (hs : s.seq = .idle) (hb : StopsIn (body s) s cs)
    (hc : cs[k]? = some (c, cur)) (hd : Ends s d) (hds : s.draws = List.replicate k .answer ++ d :: ds) :
    ∃ u, runTransfer body s = .next (stoppedAt d c (u.withSeq .busy false)) ∧ u.draws = ds ∧ u.cur = cur ∧
      After s (cs.take k) u := by
  obtain ⟨u, e, h1, h2, h3⟩ := hb k c cur d ds hc hd (answers_of_replicate hds)
    (by rw [hds, List.drop_left' (List.length_replicate ..)])
  refine ⟨u, ?_, h1, h2, h3⟩
  by_cases h : d = .silent
  · simp only [runTransfer, hs, e, stopAt, stoppedAt, if_pos h]
  · simp only [runTransfer, hs, e, stopAt, stoppedAt, if_neg h]
    cases c <;> rfl

/-- REWIND's one call (R172). -/
theorem rewindBody_stops (s : State) : StopsIn (rewindBody s) s (calls s [.rewind]) := by
  intro k c cur d ds hc hd _ hds
  cases k with
  | zero =>
    simp only [calls, List.map_cons, List.getElem?_cons_zero, Option.some.injEq, Prod.mk.injEq] at hc
    obtain ⟨rfl, rfl⟩ := hc
    refine ⟨s.withDraws ds, ?_, rfl, rfl, rfl, by simp [bitsSent], rfl⟩
    obtain rfl | ⟨rfl, -⟩ := id hd
    · simp [rewindBody, srcRewind, takeDraw_ends hd hds, stopAt]
    · simp only [rewindBody, srcRewind, takeDraw_ends hd hds, stopAt]; rfl
  | succ k => simp [calls] at hc

end Sys2Proof.Machine
end

