-- ==== Sys2Proof/Laws/Words.lean ====
section
/-! SUPPORT. Cutting a bit string into fields and words. -/

namespace Sys2Proof

theorem takeBits_append {n : Nat} (a b : List Bool) (h : a.length = n) : takeBits n (a ++ b) = .ok (a, b) := by
  subst h
  simp [takeBits]

namespace Machine

@[simp] theorem wordsOf_binBits_append (b : Byte) (rest : List Bool) :
    wordsOf (binBits b ++ rest) = b :: wordsOf rest := by
  have h : ∀ l : List Bool, l.length = 8 → wordsOf (l ++ rest) = ofBits 8 l :: wordsOf rest := by
    intro l hl
    match l, hl with
    | [a, b, c, d, e, f, g, h], _ => rfl
  rw [h _ (binBits_length b), ofBits_binBits]

/-- The words of a source of whole words (R82). -/
theorem wordsOf_bitsOfBytes_append (bs : List Byte) (rest : List Bool) :
    wordsOf (bitsOfBytes bs ++ rest) = bs ++ wordsOf rest := by
  induction bs with
  | nil => rfl
  | cons b bs ih => rw [bitsOfBytes_cons, List.append_assoc, wordsOf_binBits_append, ih, List.cons_append]

@[simp] theorem wordsOf_bitsOfBytes (bs : List Byte) : wordsOf (bitsOfBytes bs) = bs := by
  simpa [wordsOf] using wordsOf_bitsOfBytes_append bs []

/-- Fewer than 8 bits hold no word (R101). -/
theorem wordsOf_short (l : List Bool) (h : l.length < 8) : wordsOf l = [] := by
  match l, h with
  | [], _ | [_], _ | [_, _], _ | [_, _, _], _ | [_, _, _, _], _ | [_, _, _, _, _], _ | [_, _, _, _, _, _], _
  | [_, _, _, _, _, _, _], _ => rfl
  | _ :: _ :: _ :: _ :: _ :: _ :: _ :: _ :: _, h => simp at h; omega

/-- Eight bits or more begin with a word (R100). -/
theorem wordsOf_long (l : List Bool) (h : 8 ≤ l.length) :
    wordsOf l = ofBits 8 (l.take 8) :: wordsOf (l.drop 8) := by
  match l, h with
  | a :: b :: c :: d :: e :: f :: g :: i :: rest, _ => rfl

theorem wordsOf_length_le (bits : List Bool) : (wordsOf bits).length ≤ bits.length := by
  induction hn : bits.length using Nat.strongRecOn generalizing bits with
  | ind n ih =>
    by_cases h8 : 8 ≤ bits.length
    · have := ih (bits.drop 8).length (by simp; omega) (bits.drop 8) rfl
      rw [wordsOf_long bits h8]
      simp at *
      omega
    · rw [wordsOf_short bits (by omega)]
      simp

@[simp] theorem unread_length (s : State) : s.unread.length = s.srcBits.length - s.srcPos := by
  simp [State.unread]

end Machine

end Sys2Proof
end

