-- ==== Sys2Proof/Laws/Tree.lean ====
section
/-! SUPPORT. The tree a state holds, and the three walks over it: GENCODES, WRTREE, DECODE. -/

namespace Sys2Proof.Machine

/-! ## Reading the tree -/

theorem treeAt_congr {s t : State} (hn : t.node = s.node) (hc : t.nnodes = s.nnodes) (fuel : Nat) (k : NodeIx) :
    treeAt t fuel k = treeAt s fuel k := by
  induction fuel generalizing k with
  | zero => rfl
  | succ fuel ih => simp only [treeAt, nodeAt_congr hn hc, ih]

theorem tree_congr {s t : State} (hn : t.node = s.node) (hr : t.root = s.root) (hc : t.nnodes = s.nnodes) :
    t.tree = s.tree := by
  rw [State.tree, State.tree, hr, hc, treeAt_congr hn hc]

/-- What a record says of the tree under it. -/
theorem treeAt_succ_eq_some {s : State} {fuel : Nat} {k : NodeIx} {T : Tree} :
    treeAt s (fuel + 1) k = some T ↔
      ∃ n, nodeAt s k = some n ∧
        ((n.leaf = true ∧ T = .leaf n.value) ∨
         (n.leaf = false ∧ ∃ l r, treeAt s fuel n.left = some l ∧ treeAt s fuel n.right = some r ∧ T = .node l r)) := by
  rw [treeAt]
  constructor
  · intro h
    split at h
    · cases h
    · rename_i n hn
      refine ⟨n, hn, ?_⟩
      split at h
      · rename_i hl
        exact .inl ⟨hl, (Option.some.inj h).symm⟩
      · rename_i hl
        split at h
        · rename_i l r h1 h2
          exact .inr ⟨by simpa using hl, l, r, h1, h2, (Option.some.inj h).symm⟩
        · cases h
  · rintro ⟨n, hn, ⟨hl, rfl⟩ | ⟨hl, l, r, h1, h2, rfl⟩⟩ <;> simp only [hn, hl]
    · rfl
    · simp only [Bool.false_eq_true, if_false, h1, h2]

/-- More fuel reads the same tree. -/
theorem treeAt_mono {s : State} {fuel more : Nat} {k : NodeIx} {T : Tree} (h : treeAt s fuel k = some T)
    (hm : fuel ≤ more) : treeAt s more k = some T := by
  induction fuel generalizing more k T with
  | zero => simp [treeAt] at h
  | succ fuel ih =>
    obtain ⟨more, rfl⟩ : ∃ m, more = m + 1 := ⟨more - 1, by omega⟩
    rw [treeAt_succ_eq_some] at h ⊢
    obtain ⟨n, hn, h | ⟨hl, l, r, h1, h2, rfl⟩⟩ := h
    · exact ⟨n, hn, .inl h⟩
    · exact ⟨n, hn, .inr ⟨hl, l, r, ih h1 (by omega), ih h2 (by omega), rfl⟩⟩

/-- Under every record of a valid tree there is a tree no deeper than the record's index (R24, item 2). -/
theorem treeAt_of_inv {s : State} (h : TreeInv s) (k : NodeIx) (hk : k < s.nnodes) :
    ∃ T, treeAt s (k.toNat + 1) k = some T := by
  have hcap := h.atMostCap
  obtain ⟨m, hm⟩ : ∃ m, m = k.toNat := ⟨_, rfl⟩
  induction m using Nat.strongRecOn generalizing k with
  | ind m ih =>
    have hlt : k.toNat < 513 := by
      have := BitVec.lt_def.mp hk
      simp only [Config.nodeCap] at hcap
      omega
    have hn : nodeAt s k = some s.node[k.toNat] := by rw [nodeAt, if_pos hk, Vector.getElem?_eq_getElem hlt]
    set n := s.node[k.toNat]
    obtain ⟨hl, -⟩ | ⟨hl, -, -, h1, h2⟩ := h.shape k n hn
    · exact ⟨.leaf n.value, by rw [treeAt_succ_eq_some]; exact ⟨n, hn, .inl ⟨hl, rfl⟩⟩⟩
    · have h1' := BitVec.lt_def.mp h1
      have h2' := BitVec.lt_def.mp h2
      have hk' := BitVec.lt_def.mp hk
      obtain ⟨l, hL⟩ := ih n.left.toNat (by omega) n.left (BitVec.lt_def.mpr (by omega)) rfl
      obtain ⟨r, hR⟩ := ih n.right.toNat (by omega) n.right (BitVec.lt_def.mpr (by omega)) rfl
      refine ⟨.node l r, ?_⟩
      rw [treeAt_succ_eq_some]
      exact ⟨n, hn, .inr ⟨hl, l, r, treeAt_mono hL (by omega), treeAt_mono hR (by omega), rfl⟩⟩

/-- A valid tree is there to be read (R23, R24). -/
theorem tree_of_inv {s : State} (h : TreeInv s) : ∃ T, s.tree = some T := by
  have hr := h.rootLast
  obtain ⟨T, hT⟩ := treeAt_of_inv h s.root (BitVec.lt_def.mpr (by omega))
  exact ⟨T, by rw [State.tree, ← hr]; exact hT⟩

/-- The tree invariants read the records, `ROOT` and `NNODES` alone. -/
theorem treeInv_congr {s t : State} (hn : t.node = s.node) (hr : t.root = s.root) (hc : t.nnodes = s.nnodes)
    (h : TreeInv s) : TreeInv t := by
  have hat : ∀ k, nodeAt t k = nodeAt s k := nodeAt_congr hn hc
  exact ⟨by rw [hc]; exact h.atLeastThree, by rw [hc]; exact h.atMostCap, by rw [hc]; exact h.isOdd,
    by rw [hc, hr]; exact h.rootLast, by simp only [hat]; exact h.shape,
    by simp only [hat, hr]; exact h.oneParent, by simp only [hat, hr]; exact h.rootInternal⟩

/-- The code-table invariant reads the tree, `TREE_VALID` and `CODE` alone. -/
theorem codesInv_congr {s t : State} (hn : t.node = s.node) (hr : t.root = s.root) (hc : t.nnodes = s.nnodes)
    (hv : t.treeValid = s.treeValid) (hcode : t.code = s.code) (h : CodesInv s) : CodesInv t := by
  obtain ⟨h1, T, hT, h2⟩ := h
  exact ⟨by rw [hv]; exact h1, T, (tree_congr hn hr hc).trans hT, by rw [hcode]; exact h2⟩

/-- Every leaf of a valid tree bears a symbol (R24, item 1). -/
theorem treeAt_symbols {s : State} (h : TreeInv s) {fuel : Nat} {k : NodeIx} {T : Tree}
    (hT : treeAt s fuel k = some T) : ∀ p ∈ T.paths, p.2 ≤ pseudoEof := by
  induction fuel generalizing k T with
  | zero => simp [treeAt] at hT
  | succ fuel ih =>
    obtain ⟨n, hn, ⟨hl, rfl⟩ | ⟨hl, l, r, h1, h2, rfl⟩⟩ := treeAt_succ_eq_some.mp hT
    · intro p hp
      simp only [Tree.paths, List.mem_singleton] at hp
      subst hp
      obtain ⟨-, -, -, hv⟩ | ⟨hl', -⟩ := h.shape k n hn
      · exact hv
      · rw [hl] at hl'; cases hl'
    · intro p hp
      simp only [Tree.paths, List.mem_append, List.mem_map] at hp
      obtain ⟨q, hq, rfl⟩ | ⟨q, hq, rfl⟩ := hp
      · exact ih h1 q hq
      · exact ih h2 q hq

/-! ## How many nodes a valid tree has -/

/-- The children of a record of the tree. -/
def children (s : State) (k : NodeIx) : List NodeIx :=
  match nodeAt s k with
  | none => []
  | some n => if n.leaf then [] else [n.left, n.right]

/-- The records a walk from `k` meets, in preorder. -/
def indices (s : State) : Nat → NodeIx → List NodeIx
  | 0, _ => []
  | fuel + 1, k => k :: (children s k).flatMap (indices s fuel)

theorem indices_length {s : State} {fuel : Nat} {k : NodeIx} {T : Tree} (hT : treeAt s fuel k = some T) :
    (indices s fuel k).length = T.size := by
  induction fuel generalizing k T with
  | zero => simp [treeAt] at hT
  | succ fuel ih =>
    obtain ⟨n, hn, ⟨hl, rfl⟩ | ⟨hl, l, r, h1, h2, rfl⟩⟩ := treeAt_succ_eq_some.mp hT
    · simp [indices, children, hn, hl, Tree.size]
    · simp [indices, children, hn, hl, Tree.size, ih h1, ih h2]

/-- Every record met but the first is met as a child, as often as its parents are. -/
theorem indices_perm {s : State} {fuel : Nat} {k : NodeIx} {T : Tree} (hT : treeAt s fuel k = some T) :
    (indices s fuel k).Perm (k :: (indices s fuel k).flatMap (children s)) := by
  induction fuel generalizing k T with
  | zero => simp [treeAt] at hT
  | succ fuel ih =>
    obtain ⟨n, hn, ⟨hl, rfl⟩ | ⟨hl, l, r, h1, h2, rfl⟩⟩ := treeAt_succ_eq_some.mp hT
    · simp [indices, children, hn, hl]
    · have hc : children s k = [n.left, n.right] := by simp [children, hn, hl]
      have e : indices s (fuel + 1) k = k :: (indices s fuel n.left ++ indices s fuel n.right) := by
        simp [indices, hc]
      rw [e]
      refine List.Perm.cons k ?_
      rw [List.flatMap_cons, hc, List.flatMap_append]
      refine ((ih h1).append (ih h2)).trans ?_
      simp only [List.cons_append, List.nil_append]
      exact .cons _ List.perm_middle

theorem indices_valid {s : State} {fuel : Nat} {k : NodeIx} {T : Tree} (hT : treeAt s fuel k = some T) :
    ∀ j ∈ indices s fuel k, ∃ n, nodeAt s j = some n := by
  induction fuel generalizing k T with
  | zero => simp [treeAt] at hT
  | succ fuel ih =>
    obtain ⟨n, hn, ⟨hl, rfl⟩ | ⟨hl, l, r, h1, h2, rfl⟩⟩ := treeAt_succ_eq_some.mp hT
    · simp [indices, children, hn, hl]
    · intro j hj
      simp only [indices, children, hn, hl, Bool.false_eq_true, if_false, List.flatMap_cons, List.flatMap_nil,
        List.append_nil, List.mem_cons, List.mem_append] at hj
      obtain rfl | hj | hj := hj
      · exact ⟨n, hn⟩
      · exact ih h1 j hj
      · exact ih h2 j hj

/-- A walk over a valid tree meets every record exactly once (R24). -/
theorem indices_count {s : State} (h : TreeInv s) {T : Tree} (hT : s.tree = some T) (j : NodeIx)
    (hj : j ≤ s.root) : (indices s s.nnodes.toNat s.root).count j = 1 := by
  obtain ⟨d, hd⟩ : ∃ d, d = s.root.toNat - j.toNat := ⟨_, rfl⟩
  have hj' := BitVec.le_def.mp hj
  -- a record's children lie below it, and are two
  have hch : ∀ p, (∃ n, nodeAt s p = some n) → ∀ i, (children s p).count i =
      if (∃ n, nodeAt s p = some n ∧ n.leaf = false ∧ (n.left = i ∨ n.right = i)) then 1 else 0 := by
    rintro p ⟨n, hn⟩ i
    obtain ⟨hl, -⟩ | ⟨hl, -, hne, -⟩ := h.shape p n hn
    · rw [if_neg (by rintro ⟨m, hm, hml, -⟩; rw [hn] at hm; cases hm; rw [hl] at hml; cases hml)]
      simp [children, hn, hl]
    · have hc : children s p = [n.left, n.right] := by simp [children, hn, hl]
      rw [hc]
      by_cases e1 : n.left = i
      · rw [if_pos ⟨n, hn, hl, .inl e1⟩]
        simp [← e1, Ne.symm hne]
      · by_cases e2 : n.right = i
        · rw [if_pos ⟨n, hn, hl, .inr e2⟩]
          simp [← e2, hne]
        · rw [if_neg (by rintro ⟨m, hm, -, hc⟩; rw [hn] at hm; cases hm; exact hc.elim e1 e2)]
          simp [e1, e2]
  have hperm := indices_perm hT
  have hvalid := indices_valid hT
  have hcount : ∀ i, (indices s s.nnodes.toNat s.root).count i =
      (if s.root = i then 1 else 0) +
        ((indices s s.nnodes.toNat s.root).map fun p => (children s p).count i).sum := by
    intro i
    conv_lhs => rw [hperm.count_eq]
    rw [List.count_cons, List.count_flatMap, Nat.add_comm]
    simp [Function.comp_def]
  have hzero : ∀ (l : List NodeIx) (f : NodeIx → Nat), (∀ p ∈ l, f p = 0) → (l.map f).sum = 0 := by
    intro l f hf
    induction l with
    | nil => rfl
    | cons a l ih => simp [hf a (by simp), ih fun p hp => hf p (by simp [hp])]
  have hone : ∀ (l : List NodeIx) (f : NodeIx → Nat) (q : NodeIx), (∀ p ∈ l, f p = if p = q then 1 else 0) →
      (l.map f).sum = l.count q := by
    intro l f q hf
    induction l with
    | nil => rfl
    | cons a l ih =>
      rw [List.map_cons, List.sum_cons, hf a (by simp), ih fun p hp => hf p (by simp [hp]), List.count_cons]
      by_cases e : a = q <;> simp [e, Nat.add_comm]
  induction d using Nat.strongRecOn generalizing j with
  | ind d ih =>
    rw [hcount]
    by_cases e : s.root = j
    · subst e
      rw [if_pos rfl, hzero]
      intro p hp
      obtain ⟨m, hm⟩ := hvalid p hp
      rw [hch p ⟨m, hm⟩, if_neg]
      rintro ⟨n, hn, hl, hc⟩
      have hp' := BitVec.lt_def.mp (nodeAt_eq_some.mp hn).1
      obtain ⟨hl', -⟩ | ⟨-, -, -, h1, h2⟩ := h.shape p n hn
      · rw [hl] at hl'; cases hl'
      · have h1 := BitVec.lt_def.mp h1
        have h2 := BitVec.lt_def.mp h2
        have := h.rootLast
        obtain hc | hc := hc <;> rw [← hc] at this <;> omega
    · have hlt : j.toNat < s.root.toNat := by
        have : j.toNat ≠ s.root.toNat := fun hc => e (BitVec.eq_of_toNat_eq hc.symm)
        omega
      obtain ⟨q, n, hn, hl, hc, huniq⟩ := h.oneParent j (BitVec.lt_def.mpr hlt)
      rw [if_neg e, hone _ _ q, Nat.zero_add]
      · have hq := BitVec.lt_def.mp (nodeAt_eq_some.mp hn).1
        have hjq : j.toNat < q.toNat := by
          obtain ⟨hl', -⟩ | ⟨-, -, -, h1, h2⟩ := h.shape q n hn
          · rw [hl] at hl'; cases hl'
          · have h1 := BitVec.lt_def.mp h1
            have h2 := BitVec.lt_def.mp h2
            obtain rfl | rfl := hc <;> omega
        have := h.rootLast
        exact ih (s.root.toNat - q.toNat) (by omega) q (BitVec.le_def.mpr (by omega)) rfl (by omega)
      · intro p hp
        rw [hch p (hvalid p hp)]
        by_cases epq : p = q
        · subst epq
          rw [if_pos ⟨n, hn, hl, hc⟩, if_pos rfl]
        · rw [if_neg, if_neg epq]
          rintro ⟨m, hm, hml, hmc⟩
          exact epq (huniq p m hm hml hmc)

/-- A valid tree has exactly the records of the arena (R23, R24). -/
theorem tree_size {s : State} (h : TreeInv s) {T : Tree} (hT : s.tree = some T) : T.size = s.nnodes.toNat := by
  rw [← indices_length hT]
  have hr := h.rootLast
  have hcount := indices_count h hT
  have hvalid := indices_valid hT
  have hlt : s.nnodes.toNat ≤ 1023 := by omega
  have hmem : ∀ j : NodeIx, j ∈ indices s s.nnodes.toNat s.root ↔ j ≤ s.root := by
    intro j
    constructor
    · intro hj
      obtain ⟨n, hn⟩ := hvalid j hj
      have := BitVec.lt_def.mp (nodeAt_eq_some.mp hn).1
      exact BitVec.le_def.mpr (by omega)
    · intro hj
      exact List.one_le_count_iff.mp (by rw [hcount j hj])
  have hnodup : (indices s s.nnodes.toNat s.root).Nodup :=
    List.nodup_iff_count_le_one.mpr fun j => by
      by_cases hj : j ∈ indices s s.nnodes.toNat s.root
      · rw [hcount j ((hmem j).mp hj)]
      · rw [List.count_eq_zero_of_not_mem hj]; omega
  have hperm : ((indices s s.nnodes.toNat s.root).map BitVec.toNat).Perm (List.range s.nnodes.toNat) := by
    rw [List.perm_ext_iff_of_nodup (hnodup.map fun _ _ e => BitVec.eq_of_toNat_eq e) List.nodup_range]
    intro i
    simp only [List.mem_map, List.mem_range]
    constructor
    · rintro ⟨j, hj, rfl⟩
      have := BitVec.le_def.mp ((hmem j).mp hj)
      omega
    · intro hi
      have e : (BitVec.ofNat 10 i).toNat = i := by simp only [BitVec.toNat_ofNat]; omega
      exact ⟨BitVec.ofNat 10 i, (hmem _).mpr (BitVec.le_def.mpr (by omega)), e⟩
  simpa using hperm.length_eq

theorem Tree.size_eq (T : Tree) : T.size = 2 * T.internals + 1 := by
  induction T with
  | leaf v => rfl
  | node l r ihl ihr => simp only [Tree.size, Tree.internals]; omega

/-- No leaf is deeper than there are internal nodes (R122). -/
theorem paths_length_le (T : Tree) : ∀ p ∈ T.paths, p.1.length ≤ T.internals := by
  induction T with
  | leaf v => simp [Tree.paths]
  | node l r ihl ihr =>
    intro p hp
    simp only [Tree.paths, List.mem_append, List.mem_map] at hp
    obtain ⟨q, hq, rfl⟩ | ⟨q, hq, rfl⟩ := hp
    · have := ihl q hq; simp only [List.length_cons, Tree.internals]; omega
    · have := ihr q hq; simp only [List.length_cons, Tree.internals]; omega

/-- No leaf's path is the beginning of another leaf's (R125). -/
theorem paths_prefixFree (T : Tree) : PrefixFree T.paths := by
  induction T with
  | leaf v => simp [PrefixFree, Tree.paths]
  | node l r ihl ihr =>
    intro p hp q hq hpq
    simp only [Tree.paths, List.mem_append, List.mem_map] at hp hq
    obtain ⟨p, hp, rfl⟩ | ⟨p, hp, rfl⟩ := hp <;> obtain ⟨q, hq, rfl⟩ | ⟨q, hq, rfl⟩ := hq
    · rw [ihl p hp q hq (List.cons_prefix_cons.mp hpq).2]
    · simp at hpq
    · simp at hpq
    · rw [ihr p hp q hq (List.cons_prefix_cons.mp hpq).2]

/-- A valid tree is one RDTREE accepts (R141, R142). -/
theorem fits_of_inv {s : State} (h : TreeInv s) {T : Tree} (hT : s.tree = some T) : T.Fits := by
  have h3 := h.atLeastThree
  have h4 := h.atMostCap
  rw [← tree_size h hT] at h3 h4
  have := T.size_eq
  exact ⟨by omega, h4, treeAt_symbols h hT⟩

/-! ## GENCODES -/

/-- The code table after the leaves of a tree are written from left to right, their paths continuing `path`. -/
def writePaths (path : List Bool) (code : Vector Code 257) (leaves : List (List Bool × Sym)) : Vector Code 257 :=
  leaves.foldl (fun code p => codeSet code p.2.toNat (codeOfPath (path ++ p.1))) code

/-- The walk over a tree that is there writes its leaves' paths (R120, R123). -/
theorem walk_tree {s : State} {fuel : Nat} {k : NodeIx} {T : Tree} (path : List Bool) (code : Vector Code 257)
    (hT : treeAt s fuel k = some T) (hs : ∀ p ∈ T.paths, p.2 ≤ pseudoEof) :
    walk s fuel k path code = .ok (writePaths path code T.paths) := by
  induction fuel generalizing k T path code with
  | zero => simp [treeAt] at hT
  | succ fuel ih =>
    obtain ⟨n, hn, ⟨hl, rfl⟩ | ⟨hl, l, r, h1, h2, rfl⟩⟩ := treeAt_succ_eq_some.mp hT
    · have hv : n.value ≤ pseudoEof := hs ([], n.value) (by simp [Tree.paths])
      simp only [walk, hn, hl, if_true, if_pos hv]
      simp [writePaths, Tree.paths]
    · have hl' : ∀ p ∈ l.paths, p.2 ≤ pseudoEof := fun p hp =>
        hs (false :: p.1, p.2) (by simp [Tree.paths, hp])
      have hr' : ∀ p ∈ r.paths, p.2 ≤ pseudoEof := fun p hp => hs (true :: p.1, p.2) (by simp [Tree.paths, hp])
      simp only [walk, hn, hl, Bool.false_eq_true, if_false, ih _ _ h1 hl', ih _ _ h2 hr']
      simp [writePaths, Tree.paths, List.foldl_append, List.foldl_map]

/-- The last leaf that bears a symbol gives the symbol its code (R28, R123). -/
theorem codeAt_writePaths (path : List Bool) (code : Vector Code 257) (leaves : List (List Bool × Sym)) (v : Sym)
    (hs : ∀ p ∈ leaves, p.2 ≤ pseudoEof) :
    codeAt (writePaths path code leaves) v.toNat =
      match (leaves.filter fun p => decide (p.2 = v)).getLast? with
      | none => codeAt code v.toNat
      | some p => codeOfPath (path ++ p.1) := by
  induction leaves using List.reverseRecOn generalizing code with
  | nil => rfl
  | append_singleton ps p ih =>
    have hp : p.2.toNat < 257 := by
      have := BitVec.le_def.mp (hs p (by simp))
      simp [pseudoEof] at this
      omega
    have hw : writePaths path code (ps ++ [p]) =
        codeSet (writePaths path code ps) p.2.toNat (codeOfPath (path ++ p.1)) := by
      simp [writePaths, List.foldl_append]
    rw [hw, codeAt_codeSet _ _ _ _ hp]
    by_cases e : p.2 = v
    · subst e
      simp [List.filter_append]
    · rw [if_neg (fun h => e (BitVec.eq_of_toNat_eq h.symm)), ih _ fun q hq => hs q (by simp [hq])]
      simp [List.filter_append, e]

/-- GENCODES on a tree that is there: every entry of the new table is the code the tree gives the symbol. -/
theorem walk_codeOf {s : State} {T : Tree} (hT : s.tree = some T) (hs : ∀ p ∈ T.paths, p.2 ≤ pseudoEof) :
    ∃ code, walk s s.nnodes.toNat s.root [] (Vector.replicate 257 ⟨0, 0⟩) = .ok code ∧
      ∀ v : Sym, codeAt code v.toNat = T.codeOf v := by
  refine ⟨_, walk_tree [] _ hT hs, fun v => ?_⟩
  rw [codeAt_writePaths _ _ _ _ hs, Tree.codeOf, Tree.lastPath]
  cases (T.paths.filter fun p => decide (p.2 = v)).getLast? with
  | none => exact codeAt_replicate _
  | some p => rfl

/-! ## WRTREE -/

theorem putTree_grew (fuel : Nat) (k : NodeIx) (s : State) : (putTree fuel k s).Ends (SinkGrew s) := by
  induction fuel generalizing k s with
  | zero => trivial
  | succ fuel ih =>
    rw [putTree]
    split
    · trivial
    · split
      · refine ends_andThen (put_grew _ s) (fun _ h => h) fun _ t _ ht => ?_
        exact ends_mono (put_grew _ t) fun _ h => sinkGrew_trans ht h
      · refine ends_andThen (put_grew _ s) (fun _ h => h) fun _ t _ ht => ?_
        refine ends_andThen (ends_mono (ih _ t) fun _ h => sinkGrew_trans ht h) (fun _ h => h) fun _ u _ hu => ?_
        exact ends_mono (ih _ u) fun _ h => sinkGrew_trans hu h

theorem putTree_sound {fuel : Nat} {k : NodeIx} {s : State} {T : Tree} (hT : treeAt s fuel k = some T) :
    (putTree fuel k s).Sound := by
  induction fuel generalizing k s T with
  | zero => simp [treeAt] at hT
  | succ fuel ih =>
    obtain ⟨n, hn, ⟨hl, rfl⟩ | ⟨hl, l, r, h1, h2, rfl⟩⟩ := treeAt_succ_eq_some.mp hT
    · simp only [putTree, hn, hl, if_true, putLeaf]
      exact sound_andThen (put_sound _ s) fun _ t _ => put_sound _ t
    · simp only [putTree, hn, hl, Bool.false_eq_true, if_false, putInternal]
      refine sound_andThen (put_sound _ s) fun _ t ht => ?_
      have gt := put_grew 0#1 s
      rw [ht] at gt
      have ct : t.node = s.node ∧ t.nnodes = s.nnodes := by rw [gt.2]; exact ⟨rfl, rfl⟩
      refine sound_andThen (ih ((treeAt_congr ct.1 ct.2 _ _).trans h1)) fun _ u hu => ?_
      have gu := putTree_grew fuel n.left t
      rw [hu] at gu
      have cu : u.node = t.node ∧ u.nnodes = t.nnodes := by rw [gu.2]; exact ⟨rfl, rfl⟩
      exact ih ((treeAt_congr (cu.1.trans ct.1) (cu.2.trans ct.2) _ _).trans h2)

/-- Writing a tree that is there, on a sink that answers: its tokens in preorder (R132). -/
theorem putTree_answered {fuel : Nat} {k : NodeIx} {s : State} {T : Tree} (hp : s.PortsAnswer)
    (hT : treeAt s fuel k = some T) :
    ∃ n, putTree fuel k s = .ok () ((s.withDraws (s.draws.drop n)).withSnk (s.snkBits ++ T.header)) := by
  induction fuel generalizing k s T with
  | zero => simp [treeAt] at hT
  | succ fuel ih =>
    obtain ⟨n, hn, ⟨hl, rfl⟩ | ⟨hl, l, r, h1, h2, rfl⟩⟩ := treeAt_succ_eq_some.mp hT
    · refine ⟨2, ?_⟩
      simp only [putTree, hn, hl, if_true, putLeaf]
      rw [put_answered _ hp, andThen_ok, put_answered _ (by exact portsAnswer_tail hp)]
      simp [Tree.header, State.withDraws, State.withSnk, binBits]
      rw [← List.drop_one, ← List.drop_one, List.drop_drop]
    · simp only [putTree, hn, hl, Bool.false_eq_true, if_false, putInternal]
      rw [put_answered _ hp, andThen_ok]
      set s₁ := (s.withDraws s.draws.tail).withSnk (s.snkBits ++ binBits 0#1) with hs₁
      have h1' : treeAt s₁ fuel n.left = some l := (treeAt_congr (s := s) (t := s₁) rfl rfl _ _).trans h1
      obtain ⟨a, ha⟩ := ih (s := s₁) (portsAnswer_tail hp) h1'
      rw [ha, andThen_ok]
      set s₂ := (s₁.withDraws (s₁.draws.drop a)).withSnk (s₁.snkBits ++ l.header) with hs₂
      have h2' : treeAt s₂ fuel n.right = some r := (treeAt_congr (s := s) (t := s₂) rfl rfl _ _).trans h2
      obtain ⟨b, hb⟩ := ih (s := s₂) (fun d hd => portsAnswer_tail hp d (List.mem_of_mem_drop hd)) h2'
      refine ⟨1 + a + b, ?_⟩
      rw [hb]
      simp [hs₂, hs₁, Tree.header, State.withDraws, State.withSnk, binBits, ← List.drop_one, List.drop_drop]

theorem flatMap_nodes (f : Option Sym → List PortCall) (l r : Tree) :
    ((Tree.node l r).nodes.flatMap fun x => f x.2) =
      f none ++ ((l.nodes.flatMap fun x => f x.2) ++ r.nodes.flatMap fun x => f x.2) := by
  simp [Tree.nodes, List.flatMap_append, List.flatMap_map]

/-- A token is written in one call or two (R132). -/
theorem putToken_calls (s : State) :
    (StopsIn (putInternal s) s (calls s (tokenWrites none)) ∧
      Passes (putInternal s) s (calls s (tokenWrites none)) fun _ => OnlySink s) ∧
    ∀ v, StopsIn (putLeaf v s) s (calls s (tokenWrites (some v))) ∧
      Passes (putLeaf v s) s (calls s (tokenWrites (some v))) fun _ => OnlySink s := by
  refine ⟨⟨stops_put 0#1 s, passes_put 0#1 s⟩, fun v => ?_⟩
  have e : calls s (tokenWrites (some v)) = calls s [.write (binBits 1#1)] ++ calls s [.write (binBits v)] := rfl
  rw [e, putLeaf]
  refine ⟨stops_andThen (stops_put _ s) (passes_put _ s) fun _ t ht _ => ?_,
    passes_andThen (passes_put _ s) fun _ t ht _ => ?_⟩
  · rw [← calls_congr ht.kept.1]
    exact stops_put v t
  · rw [← calls_congr ht.kept.1]
    exact passes_mono (passes_put v t) fun _ _ h => ht.trans h

/-- WRTREE's calls: each node's token, in preorder (R132). -/
theorem putTree_calls {fuel : Nat} {k : NodeIx} {s : State} {T : Tree} (hT : treeAt s fuel k = some T) :
    StopsIn (putTree fuel k s) s (calls s (T.nodes.flatMap fun x => tokenWrites x.2)) ∧
    Passes (putTree fuel k s) s (calls s (T.nodes.flatMap fun x => tokenWrites x.2)) fun _ => OnlySink s := by
  induction fuel generalizing k s T with
  | zero => simp [treeAt] at hT
  | succ fuel ih =>
    obtain ⟨n, hn, ⟨hl, rfl⟩ | ⟨hl, l, r, h1, h2, rfl⟩⟩ := treeAt_succ_eq_some.mp hT
    · simpa [putTree, hn, hl, Tree.nodes] using (putToken_calls s).2 n.value
    · have below : ∀ {t : State} {j : NodeIx} {U : Tree}, OnlySink s t → treeAt s fuel j = some U →
          StopsIn (putTree fuel j t) t (calls s (U.nodes.flatMap fun x => tokenWrites x.2)) ∧
          Passes (putTree fuel j t) t (calls s (U.nodes.flatMap fun x => tokenWrites x.2)) fun _ => OnlySink s := by
        intro t j U ht hU
        rw [← calls_congr ht.kept.1]
        have := ih ((treeAt_congr ht.kept.2.2.1 ht.kept.2.2.2.1 _ _).trans hU)
        exact ⟨this.1, passes_mono this.2 fun _ _ h => ht.trans h⟩
      rw [flatMap_nodes, calls_append, calls_append]
      simp only [putTree, hn, hl, Bool.false_eq_true, if_false]
      have h0 := (putToken_calls s).1
      exact ⟨stops_andThen h0.1 h0.2 fun _ t ht _ =>
          stops_andThen (below ht h1).1 (below ht h1).2 fun _ u hu _ => (below hu h2).1,
        passes_andThen h0.2 fun _ t ht _ => passes_andThen (below ht h1).2 fun _ u hu _ => (below hu h2).2⟩

end Sys2Proof.Machine
end

