-- ==== Sys2Proof/Laws/Codec.lean ====
section
/-! SUPPORT. RDTREE: the records it makes lie in the order their nodes are completed, each subtree in one block. -/

namespace Sys2Proof.Machine

theorem Tree.size_pos (T : Tree) : 1 ≤ T.size := by cases T <;> simp [Tree.size]

/-- A block depends on its own records alone. -/
theorem block_congr {node node' : Vector Node 513} {lo : Nat} {T : Tree} (h : Block node lo T)
    (he : ∀ j, lo ≤ j → j < lo + T.size → node'[j]? = node[j]?) : Block node' lo T := by
  induction T generalizing lo with
  | leaf v => exact ⟨h.1, (he lo (by omega) (by simp [Tree.size])).trans h.2⟩
  | node l r ihl ihr =>
    obtain ⟨hl, hr, hn⟩ := h
    simp only [Tree.size] at he
    refine ⟨ihl hl fun j h1 h2 => he j h1 (by omega), ihr hr fun j h1 h2 => he j (by omega) (by omega), ?_⟩
    rw [he _ (by omega) (by omega), hn]

theorem block_symbols {node : Vector Node 513} {lo : Nat} {T : Tree} (h : Block node lo T) :
    ∀ p ∈ T.paths, p.2 ≤ pseudoEof := by
  induction T generalizing lo with
  | leaf v =>
    intro p hp
    simp only [Tree.paths, List.mem_singleton] at hp
    subst hp
    exact h.1
  | node l r ihl ihr =>
    obtain ⟨hl, hr, -⟩ := h
    intro p hp
    simp only [Tree.paths, List.mem_append, List.mem_map] at hp
    obtain ⟨q, hq, rfl⟩ | ⟨q, hq, rfl⟩ := hp
    · exact ihl hl q hq
    · exact ihr hr q hq

/-- The tree a block holds is the tree read from its root. -/
theorem treeAt_block {s : State} {lo : Nat} {T : Tree} (h : Block s.node lo T)
    (hn : lo + T.size ≤ s.nnodes.toNat) :
    treeAt s T.size (BitVec.ofNat 10 (T.rootAt lo)) = some T := by
  have hlt := s.nnodes.isLt
  induction T generalizing lo with
  | leaf v =>
    have hk : (BitVec.ofNat 10 ((Tree.leaf v).rootAt lo)).toNat = lo := by
      simp only [Tree.rootAt, Tree.size, BitVec.toNat_ofNat] at *
      omega
    have : nodeAt s (BitVec.ofNat 10 ((Tree.leaf v).rootAt lo)) = some (leafNode v 0) := by
      rw [nodeAt_eq_some, BitVec.lt_def, hk]
      exact ⟨by simp only [Tree.size] at hn; omega, h.2⟩
    rw [Tree.size, treeAt_succ_eq_some]
    exact ⟨_, this, .inl ⟨rfl, rfl⟩⟩
  | node l r ihl ihr =>
    obtain ⟨hl, hr, hroot⟩ := h
    simp only [Tree.size] at hn
    have hk : (BitVec.ofNat 10 ((Tree.node l r).rootAt lo)).toNat = lo + l.size + r.size := by
      simp only [Tree.rootAt, Tree.size, BitVec.toNat_ofNat]
      omega
    have : nodeAt s (BitVec.ofNat 10 ((Tree.node l r).rootAt lo)) = some (internalNode 0
        (BitVec.ofNat 10 (l.rootAt lo)) (BitVec.ofNat 10 (r.rootAt (lo + l.size)))) := by
      rw [nodeAt_eq_some, BitVec.lt_def, hk]
      exact ⟨by omega, hroot⟩
    rw [Tree.size, treeAt_succ_eq_some]
    exact ⟨_, this, .inr ⟨rfl, l, r, treeAt_mono (ihl hl (by omega)) (by omega),
      treeAt_mono (ihr hr (by omega)) (by omega), rfl⟩⟩

/-- What is common to every record of a block: its shape, and where its children lie (R24). -/
theorem block_shape {node : Vector Node 513} {lo : Nat} {T : Tree} (h : Block node lo T) (hc : lo + T.size ≤ 513)
    {k : Nat} {n : Node} (h1 : lo ≤ k) (h2 : k < lo + T.size) (hn : node[k]? = some n) :
    n.weight = 0 ∧ ((n.leaf = true ∧ n.left = nil ∧ n.right = nil ∧ n.value ≤ pseudoEof) ∨
    (n.leaf = false ∧ n.value = internalValue ∧ n.left ≠ n.right ∧ lo ≤ n.left.toNat ∧ n.left.toNat < k ∧
      lo ≤ n.right.toNat ∧ n.right.toNat < k)) := by
  induction T generalizing lo with
  | leaf v =>
    simp only [Tree.size] at h2
    have hk : k = lo := by omega
    subst hk
    rw [h.2] at hn
    cases hn
    exact ⟨rfl, .inl ⟨rfl, rfl, rfl, h.1⟩⟩
  | node l r ihl ihr =>
    obtain ⟨hl, hr, hroot⟩ := h
    have pl := l.size_pos
    have pr := r.size_pos
    simp only [Tree.size] at hc h2
    rcases lt_trichotomy k (lo + l.size + r.size) with hk | hk | hk
    · by_cases hkl : k < lo + l.size
      · exact ihl hl (by omega) h1 hkl
      · obtain ⟨hw, ih | ⟨a, b, c, d, e, f, g⟩⟩ := ihr hr (by omega) (by omega) hk
        · exact ⟨hw, .inl ih⟩
        · exact ⟨hw, .inr ⟨a, b, c, by omega, e, by omega, g⟩⟩
    · subst hk
      rw [hroot] at hn
      cases hn
      have hL : (BitVec.ofNat 10 (l.rootAt lo)).toNat = lo + l.size - 1 := by
        simp only [Tree.rootAt, BitVec.toNat_ofNat]; omega
      have hR : (BitVec.ofNat 10 (r.rootAt (lo + l.size))).toNat = lo + l.size + r.size - 1 := by
        simp only [Tree.rootAt, BitVec.toNat_ofNat]; omega
      refine ⟨rfl, .inr ⟨rfl, rfl, ?_, ?_, ?_, ?_, ?_⟩⟩
      · intro e
        have := congrArg BitVec.toNat e
        simp only [hL, hR] at this
        omega
      all_goals simp only [hL, hR]; omega
    · omega

/-- Every record of a block but its root is a child of exactly one record of the block (R24, item 3). -/
theorem block_parent {node : Vector Node 513} {lo : Nat} {T : Tree} (h : Block node lo T) (hc : lo + T.size ≤ 513)
    {k : Nat} (h1 : lo ≤ k) (h2 : k < T.rootAt lo) :
    ∃ p n, lo ≤ p ∧ p < lo + T.size ∧ node[p]? = some n ∧ n.leaf = false ∧ (n.left.toNat = k ∨ n.right.toNat = k) ∧
      ∀ p' n', lo ≤ p' → p' < lo + T.size → node[p']? = some n' → n'.leaf = false →
        (n'.left.toNat = k ∨ n'.right.toNat = k) → p' = p := by
  induction T generalizing lo with
  | leaf v => simp only [Tree.rootAt, Tree.size] at h2; omega
  | node l r ihl ihr =>
    obtain ⟨hl, hr, hroot⟩ := h
    have pl := l.size_pos
    have pr := r.size_pos
    simp only [Tree.rootAt, Tree.size] at hc h2
    have hL : (BitVec.ofNat 10 (l.rootAt lo)).toNat = lo + l.size - 1 := by
      simp only [Tree.rootAt, BitVec.toNat_ofNat]; omega
    have hR : (BitVec.ofNat 10 (r.rootAt (lo + l.size))).toNat = lo + l.size + r.size - 1 := by
      simp only [Tree.rootAt, BitVec.toNat_ofNat]; omega
    -- the children of a record of either half lie in that half
    have inL : ∀ p n, lo ≤ p → p < lo + l.size → node[p]? = some n → n.leaf = false →
        (lo ≤ n.left.toNat ∧ n.left.toNat < p) ∧ (lo ≤ n.right.toNat ∧ n.right.toNat < p) := by
      intro p n a b e f
      obtain ⟨-, ⟨g, -⟩ | ⟨-, -, -, c, d, c', d'⟩⟩ := block_shape hl (by omega) a b e
      · rw [f] at g; cases g
      · exact ⟨⟨c, d⟩, c', d'⟩
    have inR : ∀ p n, lo + l.size ≤ p → p < lo + l.size + r.size → node[p]? = some n → n.leaf = false →
        (lo + l.size ≤ n.left.toNat ∧ n.left.toNat < p) ∧ (lo + l.size ≤ n.right.toNat ∧ n.right.toNat < p) := by
      intro p n a b e f
      obtain ⟨-, ⟨g, -⟩ | ⟨-, -, -, c, d, c', d'⟩⟩ := block_shape hr (by omega) a b e
      · rw [f] at g; cases g
      · exact ⟨⟨c, d⟩, c', d'⟩
    have top : ∀ p n, lo ≤ p → p < lo + (Tree.node l r).size → node[p]? = some n → n.leaf = false →
        (p < lo + l.size) ∨ (lo + l.size ≤ p ∧ p < lo + l.size + r.size) ∨
        (p = lo + l.size + r.size ∧ n.left.toNat = lo + l.size - 1 ∧ n.right.toNat = lo + l.size + r.size - 1) := by
      intro p n a b e f
      simp only [Tree.size] at b
      by_cases hp : p = lo + l.size + r.size
      · subst hp
        rw [hroot] at e
        cases e
        exact .inr (.inr ⟨rfl, hL, hR⟩)
      · by_cases hq : p < lo + l.size
        · exact .inl hq
        · exact .inr (.inl ⟨by omega, by omega⟩)
    by_cases hkl : k < lo + l.size - 1
    · obtain ⟨p, n, a, b, e, f, g, u⟩ := ihl hl (by omega) h1 hkl
      refine ⟨p, n, a, by simp only [Tree.size]; omega, e, f, g, fun p' n' a' b' e' f' g' => ?_⟩
      obtain hp | ⟨hp, hp'⟩ | ⟨hp, hp', hp''⟩ := top p' n' a' b' e' f'
      · exact u p' n' a' hp e' f' g'
      · have := inR p' n' hp hp' e' f'; omega
      · omega
    · by_cases hke : k = lo + l.size - 1
      · refine ⟨lo + l.size + r.size, _, by omega, by simp only [Tree.size]; omega, hroot, rfl, .inl (by
          rw [hL, hke]), fun p' n' a' b' e' f' g' => ?_⟩
        obtain hp | ⟨hp, hp'⟩ | ⟨hp, hp', hp''⟩ := top p' n' a' b' e' f'
        · have := inL p' n' a' hp e' f'; omega
        · have := inR p' n' hp hp' e' f'; omega
        · exact hp
      · by_cases hkr : k = lo + l.size + r.size - 1
        · refine ⟨lo + l.size + r.size, _, by omega, by simp only [Tree.size]; omega, hroot, rfl, .inr (by
            rw [hR, hkr]), fun p' n' a' b' e' f' g' => ?_⟩
          obtain hp | ⟨hp, hp'⟩ | ⟨hp, hp', hp''⟩ := top p' n' a' b' e' f'
          · have := inL p' n' a' hp e' f'; omega
          · have := inR p' n' hp hp' e' f'; omega
          · exact hp
        · obtain ⟨p, n, a, b, e, f, g, u⟩ := ihr hr (by omega) (by omega)
            (by simp only [Tree.rootAt]; omega)
          refine ⟨p, n, by omega, by simp only [Tree.size]; omega, e, f, g, fun p' n' a' b' e' f' g' => ?_⟩
          obtain hp | ⟨hp, hp'⟩ | ⟨hp, hp', hp''⟩ := top p' n' a' b' e' f'
          · have := inL p' n' a' hp e' f'; omega
          · exact u p' n' hp hp' e' f' g'
          · omega

theorem Tree.size_odd (T : Tree) : T.size % 2 = 1 := by
  induction T with
  | leaf v => rfl
  | node l r ihl ihr => simp only [Tree.size]; omega

/-- A block that begins at record 0 and has an internal root is a valid tree (R24, R140). -/
theorem treeInv_of_block {s : State} {T : Tree} (h : Block s.node 0 T) (hn : s.nnodes.toNat = T.size)
    (hc : T.size ≤ 513) (h3 : 3 ≤ T.size) (hr : s.root.toNat + 1 = T.size) : TreeInv s := by
  have hget : ∀ {k : NodeIx} {n : Node}, nodeAt s k = some n ↔ k.toNat < T.size ∧ s.node[k.toNat]? = some n := by
    intro k n
    rw [nodeAt_eq_some, BitVec.lt_def, hn]
  refine ⟨by omega, by rw [hn]; exact hc, by rw [hn]; exact T.size_odd, by omega, ?_, ?_, ?_⟩
  · intro k n hk
    obtain ⟨hlt, he⟩ := hget.mp hk
    obtain ⟨-, h' | ⟨a, b, c, -, d, -, e⟩⟩ := block_shape h (by omega) (Nat.zero_le _) (by omega) he
    · exact .inl h'
    · exact .inr ⟨a, b, c, BitVec.lt_def.mpr d, BitVec.lt_def.mpr e⟩
  · intro k hk
    have hk' := BitVec.lt_def.mp hk
    obtain ⟨p, n, -, hp, e, f, g, u⟩ := block_parent h (by omega) (Nat.zero_le k.toNat)
      (by simp only [Tree.rootAt]; omega)
    have hpn : (BitVec.ofNat 10 p).toNat = p := by simp only [BitVec.toNat_ofNat]; omega
    refine ⟨BitVec.ofNat 10 p, n, hget.mpr (by rw [hpn]; exact ⟨by omega, e⟩), f,
      g.imp (fun h => BitVec.eq_of_toNat_eq h) fun h => BitVec.eq_of_toNat_eq h, ?_⟩
    intro p' n' hp' hl' hc'
    obtain ⟨hlt, he⟩ := hget.mp hp'
    apply BitVec.eq_of_toNat_eq
    rw [hpn]
    exact u _ _ (Nat.zero_le _) (by omega) he hl' (hc'.imp (congrArg _) (congrArg _))
  · cases T with
    | leaf v => simp [Tree.size] at h3
    | node l r =>
      simp only [Tree.size] at hr hn
      have hroot := h.2.2
      rw [show 0 + l.size + r.size = s.root.toNat by omega] at hroot
      exact ⟨_, hget.mpr ⟨by simp only [Tree.size]; omega, hroot⟩, rfl⟩

/-! ## The reader -/

/-- The state after records are added and header bits are read. -/
abbrev afterGet (s : State) (node : Vector Node 513) (n : Nat) (pos : Nat) (ds : List Draw) : State :=
  ((s.withTree node s.root (s.nnodes + BitVec.ofNat 10 n)).withSrcPos pos).withDraws ds

theorem toNat_nnodes_add {s : State} {n : Nat} (h : s.nnodes.toNat + n ≤ 513) :
    (s.nnodes + BitVec.ofNat 10 n).toNat = s.nnodes.toNat + n := by
  simp only [BitVec.toNat_add, BitVec.toNat_ofNat]
  omega

/-- The calls that read the first `k` tokens of a tree's header. -/
abbrev Tree.readsOf (T : Tree) (k : Nat) : List PortCall := (T.nodes.take k).flatMap fun x => tokenReads x.2

theorem nodes_length (T : Tree) : T.nodes.length = T.size := by
  induction T with
  | leaf v => rfl
  | node l r ihl ihr => simp [Tree.nodes, Tree.size, ihl, ihr]

/-- What a whole tree's `Get` leaves: its records added as a block, exactly its header consumed (R138, R139). -/
def Got (s : State) (seen : Nat) (T : Tree) (a : NodeIx × Nat) (t : State) : Prop :=
  a = (BitVec.ofNat 10 (T.rootAt s.nnodes.toNat), seen + T.size) ∧
  ∃ node, t = afterGet s node T.size (s.srcPos + T.header.length) t.draws ∧ Block node s.nnodes.toNat T ∧
    ∀ j, j < s.nnodes.toNat → node[j]? = s.node[j]?

/-- The tag a header's bits begin with. -/
theorem tag_of_unread {s : State} {b : Bool} {rest : List Bool} (hu : s.unread = b :: rest) :
    s.srcPos + 1 ≤ s.srcBits.length ∧ ofBits 1 (s.unread.take 1) = BitVec.ofBool b ∧ (readOn 1 s).unread = rest := by
  have hlen := congrArg List.length hu
  refine ⟨by simp at hlen; omega, by rw [hu]; cases b <;> rfl, ?_⟩
  have : (readOn 1 s).unread = s.unread.drop 1 := by simp [State.unread]
  rw [this, hu]
  rfl

/-- The symbol a leaf's bits hold. -/
theorem symbol_of_unread {s : State} {v : Sym} {rest : List Bool} (hu : s.unread = binBits v ++ rest) :
    s.srcPos + 9 ≤ s.srcBits.length ∧ ofBits 9 (s.unread.take 9) = v := by
  have hlen := congrArg List.length hu
  exact ⟨by simp at hlen; omega, by rw [hu, List.take_left' (binBits_length v), ofBits_binBits]⟩

/-- Reading the header of a tree that fits: the calls, and what they leave. -/
theorem getTree_full {fuel seen : Nat} {s : State} {T : Tree} {rest : List Bool}
    (hT : ∀ p ∈ T.paths, p.2 ≤ pseudoEof) (hu : s.unread = T.header ++ rest) (hf : T.size ≤ fuel)
    (hseen : seen + T.size ≤ 513) (hn : s.nnodes.toNat + T.size ≤ 513) :
    StopsIn (getTree fuel seen s) s (calls s (T.nodes.flatMap fun x => tokenReads x.2)) ∧
    Passes (getTree fuel seen s) s (calls s (T.nodes.flatMap fun x => tokenReads x.2)) (Got s seen T) := by
  induction T generalizing fuel seen s rest with
  | leaf v =>
    simp only [Tree.size] at hseen hn hf
    obtain ⟨fuel, rfl⟩ : ∃ f, fuel = f + 1 := ⟨fuel - 1, by omega⟩
    have hv : v ≤ pseudoEof := hT ([], v) (by simp [Tree.paths])
    have hs : ¬ seen = Config.nodeCap := by simp only [Config.nodeCap]; omega
    obtain ⟨h1, htag, hu₁⟩ := tag_of_unread hu
    obtain ⟨h9, hsym⟩ := symbol_of_unread hu₁
    rw [getTree, if_neg hs]
    refine ⟨stops_readField (fun _ => ?_) fun h => by omega, passes_readField h1 ?_⟩ <;>
      rw [htag, if_neg (by decide)]
    · exact stops_readField (fun _ => stops_nil _ _) fun _ => stops_nil _ _
    · refine passes_readField h9 ?_
      rw [hsym, if_pos hv]
      refine passes_ok rfl ((after_nil _).of_same rfl rfl rfl) ?_
      refine ⟨?_, nodeSet s.node s.nnodes (leafNode v 0), ?_, ?_, ?_⟩
      · simp [Tree.rootAt, Tree.size]
      · simp [addNode, State.withDraws, State.withSrcPos, State.withTree, Tree.header, Tree.size]
      · exact ⟨hv, by rw [getElem?_nodeSet _ _ _ _ (by omega), if_pos rfl]; rfl⟩
      · intro j hj
        rw [getElem?_nodeSet _ _ _ _ (by omega), if_neg (by omega)]
  | node l r ihl ihr =>
    simp only [Tree.size] at hseen hn hf
    obtain ⟨fuel, rfl⟩ : ∃ f, fuel = f + 1 := ⟨fuel - 1, by omega⟩
    have hTl : ∀ p ∈ l.paths, p.2 ≤ pseudoEof := fun p hp => hT (false :: p.1, p.2) (by simp [Tree.paths, hp])
    have hTr : ∀ p ∈ r.paths, p.2 ≤ pseudoEof := fun p hp => hT (true :: p.1, p.2) (by simp [Tree.paths, hp])
    have hs : ¬ seen = Config.nodeCap := by simp only [Config.nodeCap]; omega
    rw [Tree.header, List.cons_append, List.append_assoc] at hu
    obtain ⟨h1, htag, hu₁⟩ := tag_of_unread hu
    have hl := ihl (fuel := fuel) (seen := seen + 1) (s := readOn 1 s) hTl hu₁ (by omega) (by omega)
      (by simp; omega)
    have hr : ∀ a t, Got (readOn 1 s) (seen + 1) l a t →
        a.2 = seen + 1 + l.size ∧ t.cur = s.cur ∧ t.nnodes.toNat = s.nnodes.toNat + l.size ∧
        StopsIn (getTree fuel a.2 t) t (calls t (r.nodes.flatMap fun x => tokenReads x.2)) ∧
        Passes (getTree fuel a.2 t) t (calls t (r.nodes.flatMap fun x => tokenReads x.2)) (Got t a.2 r) := by
      rintro a t ⟨rfl, node, ht, -, -⟩
      have hn₂ : t.nnodes.toNat = s.nnodes.toNat + l.size := by
        rw [ht]
        exact toNat_nnodes_add (s := readOn 1 s) (by simp; omega)
      have hu₂ : t.unread = r.header ++ rest := by
        have : t.unread = (readOn 1 s).unread.drop l.header.length := by rw [ht]; simp [State.unread]
        rw [this, hu₁, List.drop_left]
      exact ⟨rfl, by rw [ht]; rfl, hn₂, ihr hTr hu₂ (by omega) (by simp only []; omega) (by omega)⟩
    rw [getTree, if_neg hs, flatMap_nodes, calls_append, calls_append,
      show calls s (tokenReads none) = [(.read 1, s.cur)] from rfl, List.singleton_append]
    refine ⟨stops_readField (fun _ => ?_) fun h => by omega, passes_readField h1 ?_⟩ <;>
      rw [htag, if_pos (show BitVec.ofBool false = 0 from rfl)]
    · refine stops_andThen hl.1 hl.2 fun a t ht _ => ?_
      obtain ⟨-, hc, -, h, -⟩ := hr a t ht
      rw [← calls_congr hc]
      exact stops_andThen_left h
    · rw [← List.append_nil (calls s (r.nodes.flatMap fun x => tokenReads x.2))]
      refine passes_andThen hl.2 fun a t ht _ => ?_
      obtain ⟨ha, hc, hn₂, -, h⟩ := hr a t ht
      rw [← calls_congr hc]
      refine passes_andThen h fun b u hu _ => passes_ok rfl ((after_nil _).of_same rfl rfl rfl) ?_
      obtain ⟨rfl, nodeL, htL, bL, kL⟩ := ht
      obtain ⟨rfl, nodeR, huR, bR, kR⟩ := hu
      have hn₃ : u.nnodes.toNat = s.nnodes.toNat + l.size + r.size := by
        rw [huR]
        exact (toNat_nnodes_add (s := t) (by omega)).trans (by omega)
      rw [hn₂] at bR kR ⊢
      have hlo : (readOn 1 s).nnodes.toNat = s.nnodes.toNat := rfl
      rw [hlo] at bL kL ⊢
      set kl := BitVec.ofNat 10 (l.rootAt s.nnodes.toNat)
      set kr := BitVec.ofNat 10 (r.rootAt (s.nnodes.toNat + l.size))
      have ht : t.node = nodeL := by rw [htL]; rfl
      have hset : ∀ j, j ≠ u.nnodes.toNat → (nodeSet nodeR u.nnodes (internalNode 0 kl kr))[j]? = nodeR[j]? := by
        intro j hj
        rw [getElem?_nodeSet _ _ _ _ (by omega), if_neg hj]
      refine ⟨?_, nodeSet nodeR u.nnodes (internalNode 0 kl kr), ?_, ⟨?_, ?_, ?_⟩, ?_⟩
      · rw [Prod.mk.injEq]
        refine ⟨BitVec.eq_of_toNat_eq ?_, by simp only [Tree.size]; omega⟩
        rw [hn₃]
        simp only [Tree.rootAt, Tree.size, BitVec.toNat_ofNat]
        omega
      · have hnn : s.nnodes + BitVec.ofNat 10 (Tree.node l r).size = u.nnodes + 1 := by
          apply BitVec.eq_of_toNat_eq
          rw [toNat_nnodes_add (by simp only [Tree.size]; omega), BitVec.toNat_add, hn₃,
            show BitVec.toNat (1 : NodeIx) = 1 from rfl]
          simp only [Tree.size]
          omega
        have hpos : s.srcPos + (Tree.node l r).header.length =
            s.srcPos + 1 + l.header.length + r.header.length := by simp [Tree.header]; omega
        rw [afterGet, hnn, hpos, addNode, huR, htL]
        simp [State.withDraws, State.withSrcPos, State.withTree]
      · exact block_congr bL fun j h1 h2 => by rw [hset j (by omega), kR j (by omega), ht]
      · exact block_congr bR fun j h1 h2 => hset j (by omega)
      · rw [← hn₃, getElem?_nodeSet _ _ _ _ (by omega), if_pos rfl]; rfl
      · intro j hj
        rw [hset j (by omega), kR j (by omega), ht]
        exact kL j hj

/-- The state in which `Get` starts on node `k` of a tree, whose path is `p`: the tokens before it are read, and its
ancestors are the nodes started and not completed (R139, R143). -/
structure AtNode (s : State) (T : Tree) (k : Nat) (p : List Bool) (u : State) : Prop where
  bits : u.srcBits = s.srcBits
  pos : u.srcPos = s.srcPos + (T.tokens k).length
  completed : u.nnodes.toNat + p.length = s.nnodes.toNat + k
  cur : u.cur = s.cur

theorem AtNode.unread {s u : State} {T : Tree} {k : Nat} {p rest : List Bool} (h : AtNode s T k p u)
    (hu : s.unread = T.tokens k ++ rest) : u.unread = rest := by
  have : u.unread = s.unread.drop (T.tokens k).length := by
    rw [State.unread, State.unread, h.bits, h.pos, List.drop_drop]
  rw [this, hu, List.drop_left]

/-- What a field of a branch's nodes says of the branch. -/
theorem nodes_left (l r : Tree) (j : Nat) (hj : j < l.size) :
    (Tree.node l r).nodes[j + 1]? = (l.nodes[j]?).map (fun x => (false :: x.1, x.2)) ∧
    (Tree.node l r).tokens (j + 1) = false :: l.tokens j ∧
    (Tree.node l r).readsOf (j + 1) = .read 1 :: l.readsOf j := by
  refine ⟨?_, ?_, ?_⟩
  · rw [Tree.nodes, List.getElem?_cons_succ, List.getElem?_append_left (by simp [nodes_length]; omega), List.getElem?_map]
  · rw [Tree.tokens, Tree.nodes, List.take_succ_cons, List.take_append_of_le_length (by simp [nodes_length]; omega)]
    simp [Tree.tokens, token, List.flatMap_map, ← List.map_take]
  · rw [Tree.readsOf, Tree.nodes, List.take_succ_cons, List.take_append_of_le_length (by simp [nodes_length]; omega)]
    simp [Tree.readsOf, tokenReads, List.flatMap_map, ← List.map_take]

theorem header_eq (T : Tree) : T.header = T.nodes.flatMap fun x => token x.2 := by
  induction T with
  | leaf v => simp [Tree.header, Tree.nodes, token]
  | node l r ihl ihr => simp [Tree.header, Tree.nodes, token, ihl, ihr, List.flatMap_map]

theorem nodes_right (l r : Tree) (j : Nat) :
    (Tree.node l r).nodes[l.size + j + 1]? = (r.nodes[j]?).map (fun x => (true :: x.1, x.2)) ∧
    (Tree.node l r).tokens (l.size + j + 1) = false :: (l.header ++ r.tokens j) ∧
    (Tree.node l r).readsOf (l.size + j + 1) =
      .read 1 :: ((l.nodes.flatMap fun x => tokenReads x.2) ++ r.readsOf j) := by
  have e : ∀ f : List Bool × Option Sym → List Bool × Option Sym, (l.nodes.map f).length = l.size := fun f => by
    rw [List.length_map, nodes_length]
  refine ⟨?_, ?_, ?_⟩
  · rw [Tree.nodes, List.getElem?_cons_succ, List.getElem?_append_right (by rw [e]; omega), e,
      Nat.add_sub_cancel_left, List.getElem?_map]
  · rw [Tree.tokens, Tree.nodes, List.take_succ_cons, List.take_append, List.take_of_length_le (by rw [e]; omega), e,
      Nat.add_sub_cancel_left, header_eq]
    simp [Tree.tokens, token, List.flatMap_map, ← List.map_take]
  · rw [Tree.readsOf, Tree.nodes, List.take_succ_cons, List.take_append, List.take_of_length_le (by rw [e]; omega), e,
      Nat.add_sub_cancel_left]
    simp [Tree.readsOf, tokenReads, List.flatMap_map, ← List.map_take]

theorem leaf_of_path {T : Tree} {p : List Bool} {v : Sym} (h : (p, v) ∈ T.paths) : (p, some v) ∈ T.nodes := by
  induction T generalizing p with
  | leaf w => simpa [Tree.paths, Tree.nodes] using h
  | node l r ihl ihr =>
    simp only [Tree.paths, List.mem_append, List.mem_map, Prod.mk.injEq] at h
    obtain ⟨q, hq, rfl, rfl⟩ | ⟨q, hq, rfl, rfl⟩ := h
    · simp [Tree.nodes, ihl hq]
    · simp [Tree.nodes, ihr hq]

theorem atNode_zero (s : State) {T : Tree} {p : List Bool} {o : Option Sym} (h : T.nodes[0]? = some (p, o)) :
    AtNode s T 0 p s := by
  have hp : p = [] := by cases T <;> simp [Tree.nodes] at h <;> simp [← h.1]
  subst hp
  exact ⟨rfl, by simp [Tree.tokens], by simp, rfl⟩

/-- `Get` comes to node `k`: whatever it does there, the calls that read the tokens before come first. -/
def Reaches (fuel seen : Nat) (s : State) (T : Tree) (k : Nat) (p : List Bool) : Prop :=
  (∀ cs, (∀ fuel' u, 514 ≤ fuel' + (seen + k) → AtNode s T k p u → StopsIn (getTree fuel' (seen + k) u) u cs) →
      StopsIn (getTree fuel seen s) s (calls s (T.readsOf k) ++ cs)) ∧
  (∀ cs e R, (∀ fuel' u, 514 ≤ fuel' + (seen + k) → AtNode s T k p u →
        Raises (getTree fuel' (seen + k) u) u cs e R) →
      Raises (getTree fuel seen s) s (calls s (T.readsOf k) ++ cs) e R)

/-- What `Get` does from node `k` on, it does from the start, if the leaves before are symbols. -/
theorem getTree_at {fuel seen k : Nat} {s : State} {T : Tree} {p rest : List Bool} {o : Option Sym}
    (hk : T.nodes[k]? = some (p, o)) (hT : T.SymbolsBefore k) (hu : s.unread = T.tokens k ++ rest)
    (hseen : seen + k ≤ 513) (hf : 514 ≤ fuel + seen) (hn : s.nnodes.toNat ≤ seen) :
    Reaches fuel seen s T k p := by
  induction T generalizing fuel seen k s p rest with
  | leaf v =>
    have h0 : k = 0 := by
      have := (List.getElem?_eq_some_iff.mp hk).1
      simpa [Tree.nodes] using this
    subst h0
    exact ⟨fun cs h => h fuel s hf (atNode_zero s hk), fun cs e R h => h fuel s hf (atNode_zero s hk)⟩
  | node l r ihl ihr =>
    cases k with
    | zero => exact ⟨fun cs h => h fuel s hf (atNode_zero s hk), fun cs e R h => h fuel s hf (atNode_zero s hk)⟩
    | succ k =>
      obtain ⟨fuel, rfl⟩ : ∃ f, fuel = f + 1 := ⟨fuel - 1, by omega⟩
      have hs : ¬ seen = Config.nodeCap := by simp only [Config.nodeCap]; omega
      by_cases hj : k < l.size
      · obtain ⟨e1, e2, e3⟩ := nodes_left l r k hj
        rw [e1, Option.map_eq_some_iff] at hk
        obtain ⟨⟨q, o'⟩, hq, hqo⟩ := hk
        simp only [Prod.mk.injEq] at hqo
        obtain ⟨rfl, rfl⟩ := hqo
        rw [e2, List.cons_append] at hu
        obtain ⟨h1, htag, hu₁⟩ := tag_of_unread hu
        have hTl : l.SymbolsBefore k := fun i hi x w hx =>
          hT (i + 1) (by omega) (false :: x) w (by rw [(nodes_left l r i (by omega)).1, hx]; rfl)
        obtain ⟨ih1, ih2⟩ := ihl (fuel := fuel) (seen := seen + 1) (s := readOn 1 s) hq hTl hu₁ (by omega) (by omega)
          (by simp; omega)
        have at' : ∀ u, AtNode (readOn 1 s) l k q u → AtNode s (.node l r) (k + 1) (false :: q) u := fun u h =>
          ⟨h.bits, by rw [h.pos, e2]; simp; omega, by have := h.completed; simp at this ⊢; omega, h.cur⟩
        have hsum : seen + 1 + k = seen + (k + 1) := by omega
        simp only [Reaches, getTree, if_neg hs, e3]
        refine ⟨fun cs h => stops_readField (fun _ => ?_) fun h => by omega, fun cs e R h =>
          raises_readField (fun _ => ?_) fun h => by omega⟩ <;>
          rw [htag, if_pos (show BitVec.ofBool false = 0 from rfl)]
        · exact stops_andThen_left (ih1 cs fun f u h1 h2 => by
            rw [hsum] at h1 ⊢; exact h f u h1 (at' u h2))
        · exact raises_andThen_left (ih2 cs e R fun f u h1 h2 => by
            rw [hsum] at h1 ⊢; exact h f u h1 (at' u h2))
      · obtain ⟨j, rfl⟩ : ∃ j, k = l.size + j := ⟨k - l.size, by omega⟩
        obtain ⟨e1, e2, e3⟩ := nodes_right l r j
        rw [e1, Option.map_eq_some_iff] at hk
        obtain ⟨⟨q, o'⟩, hq, hqo⟩ := hk
        simp only [Prod.mk.injEq] at hqo
        obtain ⟨rfl, rfl⟩ := hqo
        rw [e2, List.cons_append, List.append_assoc] at hu
        obtain ⟨h1, htag, hu₁⟩ := tag_of_unread hu
        have hTl : ∀ x ∈ l.paths, x.2 ≤ pseudoEof := by
          rintro ⟨x, w⟩ hx
          obtain ⟨i, hi, hget⟩ := List.mem_iff_getElem.mp (leaf_of_path hx)
          rw [nodes_length] at hi
          exact hT (i + 1) (by omega) (false :: x) w (by
            rw [(nodes_left l r i hi).1, List.getElem?_eq_getElem (by rw [nodes_length]; omega), hget]; rfl)
        have hTr : r.SymbolsBefore j := fun i hi x w hx =>
          hT (l.size + i + 1) (by omega) (true :: x) w (by rw [(nodes_right l r i).1, hx]; rfl)
        obtain ⟨hl1, hl2⟩ := getTree_full (fuel := fuel) (seen := seen + 1) (s := readOn 1 s) hTl hu₁ (by omega) (by omega)
          (by simp; omega)
        have hr : ∀ a t, Got (readOn 1 s) (seen + 1) l a t → a.2 + j = seen + (l.size + j + 1) ∧ t.cur = s.cur ∧
            (∀ u, AtNode t r j q u → AtNode s (.node l r) (l.size + j + 1) (true :: q) u) ∧
            Reaches fuel a.2 t r j q := by
          rintro a t ⟨rfl, node, ht, -, -⟩
          have hn₂ : t.nnodes.toNat = s.nnodes.toNat + l.size := by
            rw [ht]
            exact toNat_nnodes_add (s := readOn 1 s) (by simp; omega)
          have hu₂ : t.unread = r.tokens j ++ rest := by
            have : t.unread = (readOn 1 s).unread.drop l.header.length := by rw [ht]; simp [State.unread]
            rw [this, hu₁, List.drop_left]
          have hc : t.cur = s.cur := by rw [ht]; rfl
          refine ⟨by simp only []; omega, hc, fun u h => ⟨?_, ?_, ?_, h.cur.trans hc⟩,
            ihr (fuel := fuel) (seen := seen + 1 + l.size) (s := t) hq hTr hu₂ (by omega) (by omega) (by omega)⟩
          · rw [h.bits, ht]; rfl
          · rw [h.pos, e2, ht]; simp; omega
          · have := h.completed; simp; omega
        simp only [Reaches, getTree, if_neg hs, e3]
        have split : ∀ cs : List Call, calls s (.read 1 :: ((l.nodes.flatMap fun x => tokenReads x.2) ++ r.readsOf j)) ++ cs =
            (.read 1, s.cur) :: (calls (readOn 1 s) (l.nodes.flatMap fun x => tokenReads x.2) ++
              (calls s (r.readsOf j) ++ cs)) := fun cs => by simp [calls]
        refine ⟨fun cs h => ?_, fun cs e R h => ?_⟩ <;> rw [split]
        · refine stops_readField (fun _ => ?_) fun h => by omega
          rw [htag, if_pos (show BitVec.ofBool false = 0 from rfl)]
          refine stops_andThen hl1 hl2 fun a t ht _ => stops_andThen_left ?_
          obtain ⟨hsum, hc, at', ih1, -⟩ := hr a t ht
          rw [← calls_congr hc]
          obtain ⟨rfl, -⟩ := ht
          exact ih1 cs fun f u h1 h2 => by rw [hsum] at h1 ⊢; exact h f u h1 (at' u h2)
        · refine raises_readField (fun _ => ?_) fun h => by omega
          rw [htag, if_pos (show BitVec.ofBool false = 0 from rfl)]
          refine raises_andThen hl2 fun a t ht _ => raises_andThen_left ?_
          obtain ⟨hsum, hc, at', -, ih2⟩ := hr a t ht
          rw [← calls_congr hc]
          obtain ⟨rfl, -⟩ := ht
          exact ih2 cs e R fun f u h1 h2 => by rw [hsum] at h1 ⊢; exact h f u h1 (at' u h2)

/-- `Get` on one node, the arena not full: the calls it makes, and how it refuses the node (R138, R142, R143). -/
theorem getTree_node {fuel seen : Nat} {u : State} (hf : 514 ≤ fuel + seen) (hseen : seen < 513) :
    StopsIn (getTree fuel seen u) u (calls u [.read 1]) ∧
    (∀ rest, u.unread = true :: rest → StopsIn (getTree fuel seen u) u (calls u [.read 1, .read 9])) ∧
    (u.unread = [] → Raises (getTree fuel seen u) u (calls u [.read 1]) headerTagMissing fun v =>
      v.nnodes = u.nnodes ∧ v.srcPos = u.srcBits.length) ∧
    (∀ rest, u.unread = true :: rest → rest.length < 9 →
      Raises (getTree fuel seen u) u (calls u [.read 1, .read 9]) headerSymMissing fun v =>
        v.nnodes = u.nnodes ∧ v.srcPos = u.srcBits.length) ∧
    (∀ (v : Sym) rest, u.unread = true :: (binBits v ++ rest) → 256 < v.toNat →
      Raises (getTree fuel seen u) u (calls u [.read 1, .read 9]) (symbolReserved v) fun w =>
        w.nnodes = u.nnodes ∧ w.srcPos = u.srcPos + 10) := by
  obtain ⟨fuel, rfl⟩ : ∃ f, fuel = f + 1 := ⟨fuel - 1, by omega⟩
  have hs : ¬ seen = Config.nodeCap := by simp only [Config.nodeCap]; omega
  rw [getTree, if_neg hs]
  refine ⟨stops_readField (fun _ => stops_nil _ _) fun _ => stops_nil _ _, fun rest hu => ?_, fun hu => ?_,
    fun rest hu hr => ?_, fun v rest hu hv => ?_⟩
  · obtain ⟨h1, htag, -⟩ := tag_of_unread hu
    refine stops_readField (fun _ => ?_) fun h => by omega
    rw [htag, if_neg (by decide)]
    exact stops_readField (fun _ => stops_nil _ _) fun _ => stops_nil _ _
  · have hlen := congrArg List.length hu
    refine raises_readField (fun h => by simp at hlen; omega) fun _ => raises_now _ _ ⟨rfl, rfl⟩
  · obtain ⟨h1, htag, hu₁⟩ := tag_of_unread hu
    have hlen := congrArg List.length hu₁
    refine raises_readField (fun _ => ?_) fun h => by omega
    rw [htag, if_neg (by decide)]
    exact raises_readField (fun h => by simp at hlen h; omega) fun _ => raises_now _ _ ⟨rfl, rfl⟩
  · obtain ⟨h1, htag, hu₁⟩ := tag_of_unread hu
    obtain ⟨h9, hsym⟩ := symbol_of_unread hu₁
    have hv' : ¬ v ≤ pseudoEof := fun h => by
      have := BitVec.le_def.mp h
      simp at this
      omega
    refine raises_readField (fun _ => ?_) fun h => by omega
    rw [htag, if_neg (by decide)]
    refine raises_readField (fun _ => ?_) fun h => by omega
    rw [hsym, if_neg hv']
    exact raises_now _ _ ⟨rfl, rfl⟩

/-- What RDTREE's reader starts from: no tree, no code table (R138). -/
abbrev rdtreeStart (s : State) : State := (s.withValid false false).withTree s.node nil 0

/-- RDTREE's calls, on whatever the source holds (R138). -/
theorem rdtreeBody_calls {s : State} {T : Tree} {k : Nat} (hk : k < T.nodes.length) (h513 : k < 513)
    (hT : T.SymbolsBefore k) :
    (T.tokens k <+: s.unread → StopsIn (rdtreeBody s) s (calls s (T.readsOf k ++ [.read 1]))) ∧
    (T.tokens k ++ [true] <+: s.unread → StopsIn (rdtreeBody s) s (calls s (T.readsOf k ++ [.read 1, .read 9]))) := by
  have hget : ∃ p o, T.nodes[k]? = some (p, o) := ⟨_, _, List.getElem?_eq_getElem hk⟩
  obtain ⟨p, o, hget⟩ := hget
  constructor <;> rintro ⟨rest, hr⟩
  · refine stops_congr (stops_andThen_left ?_) (s := rdtreeStart s) rfl rfl rfl rfl
    rw [calls_append]
    refine (getTree_at (s := rdtreeStart s) hget hT hr.symm (by omega) (by decide) (by simp)).1 _ fun f u h1 h2 => ?_
    rw [← calls_congr (s := s) (t := u) h2.cur]
    exact (getTree_node h1 (by omega)).1
  · refine stops_congr (stops_andThen_left ?_) (s := rdtreeStart s) rfl rfl rfl rfl
    rw [List.append_assoc] at hr
    rw [calls_append]
    refine (getTree_at (s := rdtreeStart s) hget hT hr.symm (by omega) (by decide) (by simp)).1 _ fun f u h1 h2 => ?_
    rw [← calls_congr (s := s) (t := u) h2.cur]
    exact (getTree_node h1 (by omega)).2.1 rest (h2.unread hr.symm)

/-- The state with everything blank that RDTREE's reader can touch: the records, `NNODES`, the source's position, the
draws and the counter of free values. -/
def headerFrame (s : State) : State :=
  { s with node := Vector.replicate 513 ⟨false, 0, 0, 0, 0⟩, nnodes := 0, srcPos := 0, draws := [], freeIx := 0 }

theorem headerFrame_source {s t : State} (h : SourceMoved s t) : headerFrame t = headerFrame s :=
  (congrArg headerFrame h.1).trans rfl

theorem sourceMoved_nnodes {s t : State} (h : SourceMoved s t) : t.nnodes = s.nnodes :=
  (congrArg State.nnodes h.1).trans rfl

theorem sourceMoved_node {s t : State} (h : SourceMoved s t) : t.node = s.node :=
  (congrArg State.node h.1).trans rfl

/-- A field read that answers `ok` got there through one of its continuations. -/
theorem readField_eq_ok {α : Type} {n : Nat} {e : State → Res α} {v : BitVec n → State → Res α} {s t : State} {a : α}
    (h : readField n e v s = .ok a t) :
    ∃ u, SourceMoved s u ∧ (e u = .ok a t ∨ ∃ x, v x u = .ok a t) := by
  obtain ⟨b, u, hr, hk⟩ := andThen_eq_ok.mp h
  have hm := srcRead_moved n s
  rw [hr] at hm
  refine ⟨u, hm, ?_⟩
  cases b with
  | value x => exact .inr ⟨x, hk⟩
  | endOfData => exact .inl hk
  | ioErr => cases hk

/-- However the reader ends, it touched nothing outside its frame, and `NNODES` is within the arena (R138). -/
theorem getTree_ends (fuel seen : Nat) (s : State) (hs : seen ≤ 513) (hn : s.nnodes.toNat ≤ seen) :
    (getTree fuel seen s).Ends (fun t => headerFrame t = headerFrame s ∧ PosKept s t ∧ t.nnodes.toNat ≤ 513) ∧
    ∀ k seen' t, getTree fuel seen s = .ok (k, seen') t →
      ∃ T : Tree, seen' = seen + T.size ∧ seen' ≤ 513 ∧ t.nnodes.toNat = s.nnodes.toNat + T.size ∧
        k.toNat = T.rootAt s.nnodes.toNat ∧ Block t.node s.nnodes.toNat T ∧
        ∀ j, j < s.nnodes.toNat → t.node[j]? = s.node[j]? := by
  induction fuel generalizing seen s with
  | zero =>
    rw [getTree]
    exact ⟨⟨rfl, id, by omega⟩, fun _ _ _ h => by cases h⟩
  | succ fuel ih =>
    rw [getTree]
    by_cases hc : seen = Config.nodeCap
    · rw [if_pos hc]
      exact ⟨⟨rfl, id, by omega⟩, fun _ _ _ h => by cases h⟩
    rw [if_neg hc]
    have hseen : seen + 1 ≤ 513 := by simp only [Config.nodeCap] at hc; omega
    have hmoved : ∀ t, SourceMoved s t → headerFrame t = headerFrame s ∧ PosKept s t ∧ t.nnodes.toNat ≤ 513 := fun t ht =>
      ⟨headerFrame_source ht, ht.2, by rw [sourceMoved_nnodes ht]; omega⟩
    have hadd : ∀ (t : State) (n : Node), t.nnodes.toNat < 513 → (addNode n t).nnodes.toNat = t.nnodes.toNat + 1 := by
      intro t n ht
      simp only [addNode, State.withTree_nnodes, BitVec.toNat_add, show BitVec.toNat (1 : NodeIx) = 1 from rfl]
      omega
    constructor
    · refine readField_ends hmoved hmoved fun tag t ht => ?_
      have hnt : t.nnodes.toNat = s.nnodes.toNat := by rw [sourceMoved_nnodes ht]
      split
      · refine ends_andThen (ih (seen + 1) t hseen (by omega)).1
          (fun u hu => ⟨hu.1.trans (headerFrame_source ht), hu.2.1 ∘ ht.2, hu.2.2⟩) ?_
        rintro ⟨kl, sl⟩ u hl hu
        obtain ⟨L, e1, e2, e3, -⟩ := (ih (seen + 1) t hseen (by omega)).2 kl sl u hl
        refine ends_andThen (ih sl u e2 (by omega)).1
          (fun v hv => ⟨hv.1.trans (hu.1.trans (headerFrame_source ht)), hv.2.1 ∘ hu.2.1 ∘ ht.2, hv.2.2⟩) ?_
        rintro ⟨kr, sr⟩ v hr hv
        obtain ⟨R, f1, f2, f3, -⟩ := (ih sl u e2 (by omega)).2 kr sr v hr
        refine ⟨(show headerFrame (addNode _ v) = headerFrame v from rfl).trans
          (hv.1.trans (hu.1.trans (headerFrame_source ht))), hv.2.1 ∘ hu.2.1 ∘ ht.2, ?_⟩
        rw [hadd _ _ (by omega)]
        omega
      · refine readField_ends ?_ ?_ ?_
        · intro u hu
          exact hmoved u (sourceMoved_trans ht hu)
        · intro u hu
          exact hmoved u (sourceMoved_trans ht hu)
        · intro v u hu
          split
          · have hu' := hmoved u (sourceMoved_trans ht hu)
            have hnu : u.nnodes.toNat = s.nnodes.toNat := by rw [sourceMoved_nnodes (sourceMoved_trans ht hu)]
            refine ⟨(show headerFrame (addNode _ u) = headerFrame u from rfl).trans hu'.1, hu'.2.1, ?_⟩
            rw [hadd _ _ (by omega)]
            omega
          · exact hmoved u (sourceMoved_trans ht hu)
    · intro k seen' w h
      obtain ⟨t, ht, h | ⟨tag, h⟩⟩ := readField_eq_ok h
      · cases h
      have hnt : t.nnodes.toNat = s.nnodes.toNat := by rw [sourceMoved_nnodes ht]
      split at h
      · obtain ⟨⟨kl, sl⟩, u, hl, h⟩ := andThen_eq_ok.mp h
        obtain ⟨⟨kr, sr⟩, v, hr, h⟩ := andThen_eq_ok.mp h
        obtain ⟨L, e1, e2, e3, e4, e5, e6⟩ := (ih (seen + 1) t hseen (by omega)).2 kl sl u hl
        obtain ⟨R, f1, f2, f3, f4, f5, f6⟩ := (ih sl u e2 (by omega)).2 kr sr v hr
        simp only [Res.ok.injEq, Prod.mk.injEq] at h
        obtain ⟨⟨rfl, rfl⟩, rfl⟩ := h
        have pl := L.size_pos
        have pr := R.size_pos
        have hset : ∀ j, j ≠ v.nnodes.toNat →
            (addNode (internalNode 0 kl kr) v).node[j]? = v.node[j]? := by
          intro j hj
          simp only [addNode, State.withTree_node]
          rw [getElem?_nodeSet _ _ _ _ (by omega), if_neg hj]
        refine ⟨.node L R, by simp only [Tree.size]; omega, by omega, ?_, ?_, ⟨?_, ?_, ?_⟩, ?_⟩
        · rw [hadd _ _ (by omega)]; simp only [Tree.size]; omega
        · simp only [Tree.rootAt, Tree.size]; omega
        · rw [← hnt]
          exact block_congr e5 fun j h1 h2 => by rw [hset j (by omega), f6 j (by omega)]
        · rw [← hnt, ← e3]
          exact block_congr f5 fun j h1 h2 => hset j (by omega)
        · have hk : s.nnodes.toNat + L.size + R.size = v.nnodes.toNat := by omega
          have hL : BitVec.ofNat 10 (L.rootAt s.nnodes.toNat) = kl := by
            rw [← hnt, ← e4]; simp
          have hR : BitVec.ofNat 10 (R.rootAt (s.nnodes.toNat + L.size)) = kr := by
            rw [← hnt, ← e3, ← f4]; simp
          rw [hk, hL, hR]
          simp only [addNode, State.withTree_node]
          rw [getElem?_nodeSet _ _ _ _ (by omega), if_pos rfl]; rfl
        · intro j hj
          rw [hset j (by omega), f6 j (by omega), e6 j (by omega), sourceMoved_node ht]
      · obtain ⟨u, hu, h | ⟨v, h⟩⟩ := readField_eq_ok h
        · cases h
        split at h
        · rename_i hv
          have hnu : u.nnodes.toNat = s.nnodes.toNat := by rw [sourceMoved_nnodes (sourceMoved_trans ht hu)]
          simp only [Res.ok.injEq, Prod.mk.injEq] at h
          obtain ⟨⟨rfl, rfl⟩, rfl⟩ := h
          refine ⟨.leaf v, rfl, hseen, ?_, ?_, ⟨hv, ?_⟩, ?_⟩
          · rw [hadd _ _ (by omega), hnu]; rfl
          · simp only [Tree.rootAt, Tree.size]; omega
          · simp only [addNode, State.withTree_node]
            rw [getElem?_nodeSet _ _ _ _ (by omega), if_pos hnu.symm]; rfl
          · intro j hj
            simp only [addNode, State.withTree_node]
            rw [getElem?_nodeSet _ _ _ _ (by omega), if_neg (by omega), sourceMoved_node (sourceMoved_trans ht hu)]
        · cases h

/-- How RDTREE refuses a header, on a source that answers (R142, R143). -/
theorem rdtreeBody_refuses {s : State} {T : Tree} {k : Nat} {p : List Bool} {o : Option Sym} {tail : List Bool}
    {e : Err} {pos : Nat} (h : s.PortsAnswer) (hk : T.nodes[k]? = some (p, o)) (hT : T.SymbolsBefore k) (h513 : k ≤ 513)
    (hu : s.unread = T.tokens k ++ tail)
    (hcase : (k = 513 ∧ e = arenaFull ∧ pos = s.srcPos + (T.tokens k).length) ∨
      (k < 513 ∧ tail = [] ∧ e = headerTagMissing ∧ pos = s.srcBits.length) ∨
      (k < 513 ∧ (∃ rest, tail = true :: rest ∧ rest.length < 9) ∧ e = headerSymMissing ∧ pos = s.srcBits.length) ∨
      (k < 513 ∧ ∃ v rest, tail = true :: (binBits v ++ rest) ∧ 256 < v.toNat ∧ e = symbolReserved v ∧
        pos = s.srcPos + (T.tokens k).length + 10)) :
    ∃ t, rdtreeBody s = .raised e t ∧ t.nnodes.toNat = k - p.length ∧ t.srcPos = pos ∧ t.treeValid = false ∧
      t.codesValid = false ∧ t.root = nil := by
  have run : ∃ cs, Raises (getTree 514 0 (rdtreeStart s)) (rdtreeStart s) cs e fun t =>
      t.nnodes.toNat + p.length = k ∧ t.srcPos = pos := by
    refine ⟨calls (rdtreeStart s) (T.readsOf k) ++
      (if k = 513 then [] else if tail = [] then calls s [.read 1] else calls s [.read 1, .read 9]),
      (getTree_at (s := rdtreeStart s) hk hT hu (by omega) (by decide) (by simp)).2 _ _ _ fun f u h1 h2 => ?_⟩
    have hun := h2.unread (rest := tail) hu
    have hc : ∀ cs, calls s cs = calls u cs := fun cs => (calls_congr h2.cur cs).symm
    have hn : u.nnodes.toNat + p.length = k := by have := h2.completed; simp at this; exact this
    rw [Nat.zero_add] at h1 ⊢
    obtain ⟨rfl, rfl, rfl⟩ | ⟨hk', rfl, rfl, rfl⟩ | ⟨hk', ⟨rest, rfl, hr⟩, rfl, rfl⟩ | ⟨hk', v, rest, rfl, hv, rfl, rfl⟩ :=
      hcase
    · obtain ⟨f, rfl⟩ : ∃ g, f = g + 1 := ⟨f - 1, by omega⟩
      rw [if_pos rfl, getTree, if_pos rfl]
      exact raises_now _ _ ⟨hn, h2.pos⟩
    all_goals rw [if_neg (by omega)]
    · rw [if_pos rfl, hc]
      exact raises_mono ((getTree_node h1 hk').2.2.1 hun) fun w hw => ⟨by rw [hw.1]; exact hn, by rw [hw.2, h2.bits]; rfl⟩
    · rw [if_neg (by simp), hc]
      exact raises_mono ((getTree_node h1 hk').2.2.2.1 rest hun hr) fun w hw =>
        ⟨by rw [hw.1]; exact hn, by rw [hw.2, h2.bits]; rfl⟩
    · rw [if_neg (by simp), hc]
      exact raises_mono ((getTree_node h1 hk').2.2.2.2 v rest hun hv) fun w hw =>
        ⟨by rw [hw.1]; exact hn, by rw [hw.2, h2.pos]; rfl⟩
  obtain ⟨cs, hrun⟩ := run
  obtain ⟨t, e1, -, -, hn, hp⟩ := hrun (answers_of_portsAnswer (s := rdtreeStart s) h _)
  have hframe := (getTree_ends 514 0 (rdtreeStart s) (by omega) (by simp)).1
  rw [e1, ends_raised] at hframe
  have hf := hframe.1
  exact ⟨t, by rw [rdtreeBody]; exact congrArg (Res.andThen · _) e1, by omega, hp, (congrArg State.treeValid hf :),
    (congrArg State.codesValid hf :), (congrArg State.root hf :)⟩

theorem getTree_sound (fuel seen : Nat) (s : State) : (getTree fuel seen s).Sound := by
  induction fuel generalizing seen s with
  | zero =>
    rw [getTree]
    trivial
  | succ fuel ih =>
    rw [getTree]
    split
    · trivial
    · refine readField_sound (fun t _ => trivial) fun tag t _ => ?_
      split
      · exact sound_andThen (ih _ t) fun _ u _ => sound_andThen (ih _ u) fun _ _ _ => trivial
      · refine readField_sound (fun t _ => trivial) fun v u _ => ?_
        split <;> trivial

end Sys2Proof.Machine
end

