-- ==== Sys2Proof/Laws/Count.lean ====
section
/-! SUPPORT. COUNT: its loop, by induction on the words left. -/

namespace Sys2Proof.Machine

/-- `CT` after these words, or the word that found its count full, the words before it counted (R100, R102). -/
def countAll (ct : Vector Word 257) : List Byte → Except (Byte × Nat × Vector Word 257) (Vector Word 257)
  | [] => .ok ct
  | w :: ws =>
    match countWord ct w with
    | none => .error (w, 1, ct)
    | some ct =>
      match countAll ct ws with
      | .ok ct => .ok ct
      | .error (b, n, ct) => .error (b, n + 1, ct)

theorem countWord_eq_some {ct ct' : Vector Word 257} {w : Byte} :
    countWord ct w = some ct' ↔
      ctAt ct w.toNat ≠ BitVec.allOnes 32 ∧ ct' = ctSet ct w.toNat (ctAt ct w.toNat + 1) := by
  unfold countWord
  split <;> simp_all [eq_comm]

/-- The loop on ports that answer, wherever it stands: it counts the words left and ends at the source's end, or
just past the word whose count was full. -/
theorem countLoop_answered (fuel : Nat) (s : State) (h : s.PortsAnswer) (hf : s.unread.length < fuel) :
    ∃ ds, (∃ ct, countAll s.ct (wordsOf s.unread) = .ok ct ∧
        countLoop fuel s = .ok () (((s.withCt ct).withSrcPos s.srcBits.length).withDraws ds)) ∨
      (∃ b n ct, countAll s.ct (wordsOf s.unread) = .error (b, n, ct) ∧
        countLoop fuel s = .raised (countFull b) (((s.withCt ct).withSrcPos (s.srcPos + 8 * n)).withDraws ds)) := by
  induction fuel generalizing s with
  | zero => omega
  | succ fuel ih =>
    by_cases hn : s.srcPos + 8 ≤ s.srcBits.length
    · have hlen : 8 ≤ s.unread.length := by simp; omega
      simp only [countLoop, readField_value h hn, wordsOf_long _ hlen, countAll]
      cases hc : countWord s.ct (ofBits 8 (s.unread.take 8)) with
      | none =>
        refine ⟨s.draws.tail, .inr ⟨_, _, _, rfl, ?_⟩⟩
        simp [State.withCt, hc, State.withDraws, State.withSrcPos]
      | some ct =>
        have hd : ((((s.withDraws s.draws.tail).withSrcPos (s.srcPos + 8)).withCt ct)).unread = s.unread.drop 8 := by
          simp [State.unread]
        obtain ⟨ds, hi⟩ := ih (((s.withDraws s.draws.tail).withSrcPos (s.srcPos + 8)).withCt ct)
          (portsAnswer_tail h) (by rw [hd]; simp at *; omega)
        rw [hd] at hi
        refine ⟨ds, ?_⟩
        simp only [State.withSrcPos_ct, State.withDraws_ct, hc]
        obtain ⟨ct', h1, h2⟩ | ⟨b, n, ct', h1, h2⟩ := hi
        · simp only [State.withCt_ct] at h1
          exact .inl ⟨ct', by simp [h1], by rw [h2]; rfl⟩
        · simp only [State.withCt_ct] at h1
          refine .inr ⟨b, n + 1, ct', by simp [h1], ?_⟩
          rw [h2]
          simp [State.withCt, State.withDraws, State.withSrcPos]
          omega
    · have hn' : s.srcBits.length < s.srcPos + 8 := by omega
      refine ⟨s.draws.tail, .inl ⟨s.ct, ?_, ?_⟩⟩
      · rw [wordsOf_short _ (by simp; omega), countAll]
      · simp [countLoop, readField_endOfData h hn', State.withCt, State.withDraws, State.withSrcPos]

/-- Counting adds to every entry the number of times its word occurs (R100, R103). -/
theorem countAll_counts (ws : List Byte) (ct : Vector Word 257)
    (h : ∀ b : Byte, (ctAt ct b.toNat).toNat + ws.count b < 2 ^ 32) :
    ∃ ct', countAll ct ws = .ok ct' ∧ (∀ b : Byte, (ctAt ct' b.toNat).toNat = (ctAt ct b.toNat).toNat + ws.count b) ∧
      ctAt ct' 256 = ctAt ct 256 := by
  induction ws generalizing ct with
  | nil => exact ⟨ct, rfl, by simp, rfl⟩
  | cons w ws ih =>
    have hw := h w
    rw [List.count_cons_self] at hw
    have hone : ctAt ct w.toNat ≠ BitVec.allOnes 32 := by
      intro e; rw [e] at hw; simp at hw; omega
    have hlt : w.toNat < 257 := by omega
    have hread : ∀ b : Byte, (ctAt (ctSet ct w.toNat (ctAt ct w.toNat + 1)) b.toNat).toNat + ws.count b =
        (ctAt ct b.toNat).toNat + (w :: ws).count b := by
      intro b
      by_cases e : b = w
      · subst e
        rw [ctAt_ctSet_self _ _ _ hlt, List.count_cons_self]
        simp
        omega
      · rw [ctAt_ctSet_of_ne _ _ _ _ (by rwa [ne_eq, BitVec.toNat_inj]), List.count_cons_of_ne (Ne.symm e)]
    obtain ⟨ct', h1, h2, h3⟩ := ih (ctSet ct w.toNat (ctAt ct w.toNat + 1)) (fun b => by rw [hread]; exact h b)
    refine ⟨ct', ?_, fun b => by rw [h2, hread], ?_⟩
    · rw [countAll, (countWord_eq_some).mpr ⟨hone, rfl⟩]; simp only [h1]
    · rw [h3, ctAt_ctSet_of_ne _ _ _ _ (by omega)]

/-- Counting stops at the first word whose count is full. -/
theorem countAll_full (pre post : List Byte) (b : Byte) (ct : Vector Word 257)
    (h : ∀ c : Byte, (ctAt ct c.toNat).toNat + pre.count c < 2 ^ 32)
    (hb : (ctAt ct b.toNat).toNat + pre.count b = 2 ^ 32 - 1) :
    ∃ ct', countAll ct (pre ++ b :: post) = .error (b, pre.length + 1, ct') ∧
      ∀ c : Byte, (ctAt ct' c.toNat).toNat = (ctAt ct c.toNat).toNat + pre.count c := by
  obtain ⟨ct', h1, h2, -⟩ := countAll_counts pre ct h
  refine ⟨ct', ?_, h2⟩
  clear h
  have hfull : ctAt ct' b.toNat = BitVec.allOnes 32 := BitVec.eq_of_toNat_eq (by simp [h2, hb])
  clear h2 hb
  induction pre generalizing ct with
  | nil =>
    cases h1
    simp [countAll, countWord, hfull]
  | cons w ws ih =>
    rw [List.cons_append, countAll]
    rw [countAll] at h1
    cases hc : countWord ct w with
    | none => simp [hc] at h1
    | some ct₁ =>
      simp only [hc] at h1
      cases ha : countAll ct₁ ws with
      | error e => simp [ha] at h1
      | ok ct₂ =>
        simp only [ha, Except.ok.injEq] at h1
        subst h1
        simp [ih ct₁ ha]

/-- The state with everything blank that COUNT's loop can touch: `CT`, the source's position, the draws and the counter
of free values. -/
def countFrame (s : State) : State :=
  { s with ct := Vector.replicate 257 0, srcPos := 0, draws := [], freeIx := 0 }

theorem countLoop_moved (fuel : Nat) (s : State) :
    (countLoop fuel s).Ends fun t => countFrame t = countFrame s ∧ PosKept s t := by
  induction fuel generalizing s with
  | zero =>
    rw [countLoop]
    exact ⟨rfl, id⟩
  | succ fuel ih =>
    rw [countLoop]
    have hm : ∀ t, SourceMoved s t → countFrame t = countFrame s ∧ PosKept s t := fun t ht =>
      ⟨(congrArg countFrame ht.1).trans rfl, ht.2⟩
    refine readField_ends hm hm fun w t ht => ?_
    split
    · exact hm t ht
    · exact ends_mono (ih _) fun u hu => ⟨hu.1.trans (hm t ht).1, hu.2 ∘ (hm t ht).2⟩

theorem countLoop_sound (fuel : Nat) (s : State) : (countLoop fuel s).Sound := by
  induction fuel generalizing s with
  | zero =>
    rw [countLoop]
    trivial
  | succ fuel ih =>
    rw [countLoop]
    refine readField_sound (fun t _ => trivial) fun w t _ => ?_
    split
    · trivial
    · exact ih _

/-- COUNT's calls: one read a word, and one that meets the end. Stopped at call `k`, it has counted `k` words (R100,
R103). -/
theorem countLoop_calls (pre : List Byte) {post : List Byte} (fuel : Nat) (s : State)
    (hw : wordsOf s.unread = pre ++ post) (hc : ∀ b : Byte, (ctAt s.ct b.toNat).toNat + pre.count b < 2 ^ 32)
    (hf : pre.length < fuel) (k : Nat) (d : Draw) (ds : List Draw) (hk : k ≤ pre.length) (hd : Ends s d)
    (ha : Answers k s) (hds : s.draws.drop k = d :: ds) :
    ∃ u, countLoop fuel s = stopAt d (.read 8) u ∧ u.draws = ds ∧ u.cur = s.cur ∧
      After s (calls s (List.replicate k (.read 8))) u ∧
      ∀ b : Byte, (ctAt u.ct b.toNat).toNat = (ctAt s.ct b.toNat).toNat + (pre.take k).count b := by
  induction pre generalizing fuel s k with
  | nil =>
    obtain ⟨fuel, rfl⟩ : ∃ f, fuel = f + 1 := ⟨fuel - 1, by simp at hf; omega⟩
    obtain rfl : k = 0 := by simpa using hk
    exact ⟨s.withDraws ds, by rw [countLoop, readField_stop hd hds], rfl, rfl, ⟨rfl, by simp [calls, bitsSent], rfl⟩,
      by simp⟩
  | cons w pre ih =>
    obtain ⟨fuel, rfl⟩ : ∃ f, fuel = f + 1 := ⟨fuel - 1, by simp at hf; omega⟩
    cases k with
    | zero =>
      exact ⟨s.withDraws ds, by rw [countLoop, readField_stop hd hds], rfl, rfl,
        ⟨rfl, by simp [calls, bitsSent], rfl⟩, by simp⟩
    | succ k =>
      have hn : s.srcPos + 8 ≤ s.srcBits.length := by
        by_contra hn
        rw [wordsOf_short _ (by simp; omega)] at hw
        cases hw
      rw [wordsOf_long _ (by simp; omega), List.cons_append, List.cons.injEq] at hw
      have hA : After s [(.read 8, s.cur)] (readOn 8 s) :=
        ((readField_cons (e := .ok ()) (v := fun _ => .ok ()) ha).1 hn).2
      have hone : countWord s.ct w = some (ctSet s.ct w.toNat (ctAt s.ct w.toNat + 1)) := by
        refine countWord_eq_some.mpr ⟨fun e => ?_, rfl⟩
        have := hc w
        rw [List.count_cons_self, e] at this
        simp at this
        omega
      have hread : ∀ b : Byte, (ctAt (ctSet s.ct w.toNat (ctAt s.ct w.toNat + 1)) b.toNat).toNat =
          (ctAt s.ct b.toNat).toNat + [w].count b := by
        intro b
        have hb := hc b
        by_cases e : b = w
        · subst e
          rw [List.count_cons_self] at hb
          rw [ctAt_ctSet_self _ _ _ (by omega)]
          simp
          omega
        · rw [ctAt_ctSet_of_ne _ _ _ _ (by rwa [ne_eq, BitVec.toNat_inj])]
          simp [Ne.symm e]
      have hcount : ∀ (l : List Byte) (b : Byte), (w :: l).count b = [w].count b + l.count b := fun l b => by
        rw [← List.count_append]; rfl
      obtain ⟨u, e, h1, h2, h3, h4⟩ := ih fuel ((readOn 8 s).withCt (ctSet s.ct w.toNat (ctAt s.ct w.toNat + 1)))
        (by rw [← hw.2]; simp [State.unread])
        (fun b => by rw [State.withCt_ct, hread, Nat.add_assoc, ← hcount]; exact hc b)
        (by simp at hf; omega) k (by simpa using hk) hd (answers_tail ha rfl rfl) (by simp [hds])
      refine ⟨u, ?_, h1, h2, hA.trans (h3.congr rfl rfl rfl), fun b => ?_⟩
      · rw [countLoop, ((readField_cons ha).1 hn).1, hw.1]
        simp only [State.withSrcPos_ct, State.withDraws_ct, hone]
        exact e
      · rw [h4, State.withCt_ct, hread, List.take_succ_cons, hcount (pre.take k)]; omega

/-- COUNT's calls, and the counts of the words read before the one that is not answered (R100, R103). -/
theorem countBody_calls {s : State} {pre post : List Byte} (hw : wordsOf s.unread = pre ++ post)
    (h : ∀ b : Byte, pre.count b < 2 ^ 32) {k : Nat} {d : Draw} {ds : List Draw} (hk : k ≤ pre.length) (hd : Ends s d)
    (ha : Answers k s) (hds : s.draws.drop k = d :: ds) :
    ∃ u, countBody s = stopAt d (.read 8) u ∧ u.draws = ds ∧ u.cur = s.cur ∧
      After s (calls s (List.replicate k (.read 8))) u ∧
      ∀ b : Byte, (ctAt u.ct b.toNat).toNat = (pre.take k).count b := by
  have hz : ∀ b : Byte, (ctAt (Vector.replicate 257 (0 : Word)) b.toNat).toNat = 0 := fun b => by
    simp [ctAt, Vector.getElem?_replicate]; split <;> simp
  have hl := wordsOf_length_le s.unread
  rw [hw] at hl
  obtain ⟨u, e, h1, h2, h3, h4⟩ := countLoop_calls pre (s.srcBits.length - s.srcPos + 1)
    (s.withCt (Vector.replicate 257 0)) hw (fun b => by rw [State.withCt_ct, hz]; simpa using h b)
    (by simp at hl; omega) k d ds hk hd ha hds
  exact ⟨u, e, h1, h2, h3.congr rfl rfl rfl, fun b => by rw [h4, State.withCt_ct, hz, Nat.zero_add]⟩

theorem countBody_stops {s : State} {cs : List Call} (h : CountCalls s cs) : StopsIn (countBody s) s cs := by
  obtain ⟨pre, post, hw, hb, rfl⟩ := h
  intro k c cur d ds hc hd ha hds
  have hk : k < pre.length + 1 := by simpa [calls] using (List.getElem?_eq_some_iff.mp hc).1
  simp [calls, hk] at hc
  obtain ⟨rfl, rfl⟩ := hc
  obtain ⟨u, e, h1, h2, h3, -⟩ := countBody_calls hw hb (Nat.le_of_lt_succ hk) hd ha hds
  refine ⟨u, e, h1, h2, ?_⟩
  rwa [show (calls s (List.replicate (pre.length + 1) (PortCall.read 8))).take k =
    calls s (List.replicate k (.read 8)) by simp [calls, List.take_replicate]; omega]

end Sys2Proof.Machine
end

