-- ==== Sys2Proof/Laws/Decoder.lean ====
section
/-! SUPPORT. DECODE: one code at a time, then the whole body. -/

namespace Sys2Proof.Machine

/-- The tree below a branch of a path. -/
theorem treeAt_branch {s : State} {fuel : Nat} {k : NodeIx} {T : Tree} {b : Bool} {p : List Bool} {v : Sym}
    (hT : treeAt s fuel k = some T) (hp : (b :: p, v) ∈ T.paths) :
    ∃ fuel' n U, fuel = fuel' + 1 ∧ nodeAt s k = some n ∧ n.leaf = false ∧
      treeAt s fuel' (if b then n.right else n.left) = some U ∧ (p, v) ∈ U.paths := by
  cases fuel with
  | zero => simp [treeAt] at hT
  | succ fuel =>
    obtain ⟨n, hn, ⟨hl, rfl⟩ | ⟨hl, l, r, h1, h2, rfl⟩⟩ := treeAt_succ_eq_some.mp hT
    · simp [Tree.paths] at hp
    · refine ⟨fuel, n, if b then r else l, rfl, hn, hl, ?_, ?_⟩
      · cases b <;> simpa
      · simp only [Tree.paths, List.mem_append, List.mem_map, Prod.mk.injEq, List.cons.injEq] at hp
        obtain ⟨q, hq, ⟨rfl, rfl⟩, rfl⟩ | ⟨q, hq, ⟨rfl, rfl⟩, rfl⟩ := hp <;> exact hq

/-- The empty path ends at a leaf. -/
theorem treeAt_leaf {s : State} {fuel : Nat} {k : NodeIx} {T : Tree} {v : Sym}
    (hT : treeAt s fuel k = some T) (hp : (([] : List Bool), v) ∈ T.paths) :
    ∃ n, nodeAt s k = some n ∧ n.leaf = true ∧ n.value = v := by
  cases fuel with
  | zero => simp [treeAt] at hT
  | succ fuel =>
    obtain ⟨n, hn, ⟨hl, rfl⟩ | ⟨hl, l, r, h1, h2, rfl⟩⟩ := treeAt_succ_eq_some.mp hT
    · exact ⟨n, hn, hl, by simpa [Tree.paths, eq_comm] using hp⟩
    · simp [Tree.paths] at hp

theorem descend_congr {s t : State} (hn : t.node = s.node) (hc : t.nnodes = s.nnodes) (k : NodeIx) (p : List Bool) :
    descend t k p = descend s k p := by
  induction p generalizing k with
  | nil => rfl
  | cons b p ih => simp only [descend, nodeAt_congr hn hc, ih]

theorem descend_cons {s : State} {k : NodeIx} {n : Node} (hn : nodeAt s k = some n) (b : Bool) (p : List Bool) :
    descend s k (b :: p) = descend s (if b then n.right else n.left) p := by simp [descend, hn]

/-- The state after one body bit is read and `CUR` moved. -/
abbrev afterBit (s : State) (c : NodeIx) : State :=
  ((s.withDraws s.draws.tail).withSrcPos (s.srcPos + 1)).withCur c

/-- One pass of the loop on a bit that leads from an internal node to a record of the tree (R160, R161). -/
theorem decodeLoop_bit {s : State} {b : Bool} {rest : List Bool} {here n : Node} (fuel : Nat) (h : s.PortsAnswer)
    (hu : s.unread = b :: rest) (hh : nodeAt s s.cur = some here)
    (hn : nodeAt s (if b then here.right else here.left) = some n) :
    decodeLoop (fuel + 1) s =
      if n.leaf then
        if n.value = pseudoEof then .ok () (afterBit s (if b then here.right else here.left))
        else (putWord (n.value.extractLsb' 0 8) (afterBit s (if b then here.right else here.left))).andThen fun _ s =>
          decodeLoop fuel (s.withCur s.root)
      else decodeLoop fuel (afterBit s (if b then here.right else here.left)) := by
  have hlen := congrArg List.length hu
  have h1 : s.srcPos + 1 ≤ s.srcBits.length := by simp at hlen; omega
  have hb : ofBits 1 (s.unread.take 1) = BitVec.ofBool b := by rw [hu]; cases b <;> rfl
  rw [decodeLoop, readField_value h h1, hb]
  have hh' : nodeAt ((s.withDraws s.draws.tail).withSrcPos (s.srcPos + 1))
      ((s.withDraws s.draws.tail).withSrcPos (s.srcPos + 1)).cur = some here := hh
  simp only [hh']
  have hc : (if BitVec.ofBool b = 0 then here.left else here.right) = if b then here.right else here.left := by
    cases b <;> rfl
  have hn' : nodeAt (afterBit s (if b then here.right else here.left)) (if b then here.right else here.left) =
    some n := hn
  simp only [hc, hn']

theorem unread_afterBit {s : State} {b : Bool} {rest : List Bool} {c : NodeIx} (hu : s.unread = b :: rest) :
    (afterBit s c).unread = rest := by
  have : (afterBit s c).unread = s.unread.drop 1 := by simp [State.unread]
  rw [this, hu]
  rfl

/-- A whole code: the loop follows it to its leaf, reading nothing else (R160, R161). -/
theorem decodeLoop_path {s : State} {fuel : Nat} {k : NodeIx} {T : Tree} {p rest : List Bool} {v : Sym} (more : Nat)
    (h : s.PortsAnswer) (hT : treeAt s fuel k = some T) (hc : s.cur = k) (hp : (p, v) ∈ T.paths) (hne : p ≠ [])
    (hu : s.unread = p ++ rest) :
    ∃ n, nodeAt s (descend s k p) = some n ∧ n.leaf = true ∧ n.value = v ∧
      decodeLoop (more + p.length) s =
        let t := ((s.withDraws (s.draws.drop p.length)).withSrcPos (s.srcPos + p.length)).withCur (descend s k p)
        if v = pseudoEof then .ok () t
        else (putWord (v.extractLsb' 0 8) t).andThen fun _ s => decodeLoop more (s.withCur s.root) := by
  induction p generalizing s fuel k T with
  | nil => exact absurd rfl hne
  | cons b p ih =>
    subst hc
    obtain ⟨fuel, here, U, rfl, hh, hl, hU, hp'⟩ := treeAt_branch hT hp
    rw [descend_cons hh]
    cases p with
    | nil =>
      obtain ⟨n, hn, hnl, hnv⟩ := treeAt_leaf hU hp'
      refine ⟨n, hn, hnl, hnv, ?_⟩
      rw [List.length_singleton, decodeLoop_bit more h hu hh hn, if_pos hnl, hnv]
      simp [List.drop_one, descend]
    | cons b' p =>
      obtain ⟨_, n, -, -, hn, hnl, -, -⟩ := treeAt_branch hU hp'
      have hU' : treeAt (afterBit s (if b then here.right else here.left)) fuel
          (if b then here.right else here.left) = some U := 
          (treeAt_congr (s := s) (t := afterBit s _) rfl rfl _ _).trans hU
      obtain ⟨m, hm, hml, hmv, hloop⟩ := ih (s := afterBit s (if b then here.right else here.left))
        (portsAnswer_tail h) hU' rfl hp' (by simp) (unread_afterBit hu)
      rw [descend_congr (s := s) (t := afterBit s _) rfl rfl] at hm hloop
      refine ⟨m, hm, hml, hmv, ?_⟩
      have hf : more + (b :: b' :: p).length = more + (b' :: p).length + 1 := rfl
      rw [hf, decodeLoop_bit _ h hu hh hn, if_neg (by simp [hnl]), hloop]
      simp [State.withDraws, State.withSrcPos, State.withCur, ← List.drop_one, List.drop_drop, Nat.add_assoc,
        Nat.add_comm 1]

/-- A code cut short: the loop comes to the source's end (R163). -/
theorem decodeLoop_cut {s : State} {fuel : Nat} {k : NodeIx} {T : Tree} {p cut : List Bool} {v : Sym} (more : Nat)
    (h : s.PortsAnswer) (hT : treeAt s fuel k = some T) (hc : s.cur = k) (hp : (p ++ cut, v) ∈ T.paths)
    (hcut : cut ≠ []) (hpos : s.srcPos ≤ s.srcBits.length) (hu : s.unread = p) :
    ∃ ds, decodeLoop (more + p.length + 1) s =
      .raised bodyMissing (((s.withSrcPos s.srcBits.length).withCur (descend s k p)).withDraws ds) := by
  induction p generalizing s fuel k T with
  | nil =>
    have hlen := congrArg List.length hu
    have h1 : s.srcBits.length < s.srcPos + 1 := by simp at hlen; omega
    exact ⟨_, by rw [decodeLoop, readField_endOfData h h1, ← hc]; rfl⟩
  | cons b p ih =>
    subst hc
    obtain ⟨fuel, here, U, rfl, hh, hl, hU, hp'⟩ := treeAt_branch hT hp
    obtain ⟨b', q, hq⟩ : ∃ b' q, p ++ cut = b' :: q := by
      cases hpc : p ++ cut with
      | nil => simp at hpc; exact absurd hpc.2 hcut
      | cons b' q => exact ⟨b', q, rfl⟩
    obtain ⟨_, n, -, -, hn, hnl, -, -⟩ := treeAt_branch (p := q) (b := b') hU (by rw [← hq]; exact hp')
    have hU' : treeAt (afterBit s (if b then here.right else here.left)) fuel
        (if b then here.right else here.left) = some U := 
          (treeAt_congr (s := s) (t := afterBit s _) rfl rfl _ _).trans hU
    have hlen := congrArg List.length hu
    obtain ⟨ds, hloop⟩ := ih (s := afterBit s (if b then here.right else here.left))
      (portsAnswer_tail h) hU' rfl hp' (by simp at hlen; simp; omega) (unread_afterBit hu)
    rw [descend_congr (s := s) (t := afterBit s _) rfl rfl] at hloop
    refine ⟨ds, ?_⟩
    rw [descend_cons hh]
    have hf : more + (b :: p).length + 1 = more + p.length + 1 + 1 := by simp; omega
    rw [hf, decodeLoop_bit _ h hu hh hn, if_neg (by simp [hnl]), hloop]
    rfl

/-- Whole codes of words: each leaf's symbol is written and the walk starts again at the root (R160). -/
theorem decodeLoop_words {s : State} {fuel : Nat} {T : Tree} {ls : List (List Bool × Sym)} {rest : List Bool}
    (more : Nat) (h : s.PortsAnswer) (hT : treeAt s fuel s.root = some T) (hc : s.cur = s.root)
    (hls : ∀ l ∈ ls, l ∈ T.paths ∧ l.2 ≠ pseudoEof) (hne : ∀ l ∈ T.paths, l.1 ≠ [])
    (hu : s.unread = ls.flatMap Prod.fst ++ rest) :
    ∃ ds, decodeLoop (more + (ls.flatMap Prod.fst).length) s =
        decodeLoop more (((s.withDraws ds).withSrcPos (s.srcPos + (ls.flatMap Prod.fst).length)).withSnk
          (s.snkBits ++ ls.flatMap fun l => binBits (l.2.setWidth 8))) ∧
      (s.withDraws ds).PortsAnswer := by
  induction ls generalizing s with
  | nil => exact ⟨s.draws, by simp [State.withDraws, State.withSrcPos, State.withSnk], h⟩
  | cons l ls ih =>
    obtain ⟨hl, hv⟩ := hls l (List.mem_cons_self ..)
    obtain ⟨n, -, -, -, hloop⟩ := decodeLoop_path (more + (ls.flatMap Prod.fst).length) h hT hc hl (hne l hl)
      (by rw [hu, List.flatMap_cons, List.append_assoc])
    set s₁ := ((s.withDraws (s.draws.drop l.1.length)).withSrcPos (s.srcPos + l.1.length)).withCur
      (descend s s.root l.1) with hs₁
    have h₁ : s₁.PortsAnswer := fun d hd => h d (List.mem_of_mem_drop hd)
    simp only [if_neg hv, putWord] at hloop
    rw [put_answered _ h₁, andThen_ok] at hloop
    set s₂ := ((s₁.withDraws s₁.draws.tail).withSnk (s₁.snkBits ++ binBits (l.2.extractLsb' 0 8))).withCur s.root
      with hs₂
    have hu₂ : s₂.unread = ls.flatMap Prod.fst ++ rest := by
      have : s₂.unread = s.unread.drop l.1.length := by simp [hs₂, hs₁, State.unread]
      rw [this, hu, List.flatMap_cons, List.append_assoc, List.drop_left]
    have hT₂ : treeAt s₂ fuel s₂.root = some T := by
      rw [treeAt_congr (s := s) (by simp [hs₂, hs₁]) (by simp [hs₂, hs₁])]
      simpa [hs₂, hs₁] using hT
    clear_value s₂ s₁
    have h₂ : s₂.PortsAnswer :=
      (portsAnswer_congr (by simp [hs₂]) (by simp [hs₂])).mpr (portsAnswer_tail h₁)
    obtain ⟨ds, hi, hd⟩ := ih (s := s₂) h₂ hT₂ (by simp [hs₂, hs₁])
      (fun x hx => hls x (List.mem_cons_of_mem _ hx)) hu₂
    have hd' : (s.withDraws ds).PortsAnswer :=
      (portsAnswer_congr (s := s₂.withDraws ds) (by simp) (by simp [hs₂, hs₁])).mpr hd
    refine ⟨ds, ?_, hd'⟩
    have hf : more + ((l :: ls).flatMap Prod.fst).length = more + (ls.flatMap Prod.fst).length + l.1.length := by
      simp; omega
    have hw : l.2.extractLsb' 0 8 = l.2.setWidth 8 := by
      apply BitVec.eq_of_toNat_eq; simp
    have hr : (s₁.withDraws s₁.draws.tail).root = s.root := by simp [hs₁]
    rw [hf, hloop]
    simp only [State.withSnk_root, hr, ← hs₂, hi]
    · rw [hs₂, hs₁, hw]
      simp [State.withDraws, State.withSrcPos, State.withSnk, State.withCur, Nat.add_assoc, hc]

/-- The state with everything blank that DECODE's loop can touch: `CUR`, the streams' movement, the draws and the
counter of free values. -/
def decoderFrame (s : State) : State := { s with cur := 0, srcPos := 0, snkBits := [], draws := [], freeIx := 0 }

/-- What the loop leaves as it was: the sink only grows, the source's position stays within the source, and the rest
of the frame is equal. -/
def DecoderMoved (s t : State) : Prop := 
  (∃ added, t.snkBits = s.snkBits ++ added) ∧ PosKept s t ∧ decoderFrame t = decoderFrame s

theorem decoderMoved_trans {s t u : State} (h : DecoderMoved s t) (h' : DecoderMoved t u) : DecoderMoved s u := by
  obtain ⟨⟨a, ha⟩, hp, h⟩ := h
  obtain ⟨⟨b, hb⟩, hp', h'⟩ := h'
  exact ⟨⟨a ++ b, by rw [hb, ha, List.append_assoc]⟩, hp' ∘ hp, h'.trans h⟩

theorem decoderMoved_source {s t : State} (h : SourceMoved s t) : DecoderMoved s t :=
  ⟨⟨[], by rw [List.append_nil, h.1]; rfl⟩, h.2, (congrArg decoderFrame h.1).trans rfl⟩

theorem decoderMoved_sink {s t : State} (h : SinkGrew s t) : DecoderMoved s t := by
  obtain ⟨⟨a, ha⟩, h⟩ := h
  refine ⟨⟨a, ha⟩, fun hs => ?_, (congrArg decoderFrame h).trans rfl⟩
  rw [h]
  exact hs

theorem decoderMoved_cur (s : State) (c : NodeIx) : DecoderMoved s (s.withCur c) := ⟨⟨[], by simp⟩, id, rfl⟩

theorem decodeLoop_moved (fuel : Nat) (s : State) : (decodeLoop fuel s).Ends (DecoderMoved s) := by
  induction fuel generalizing s with
  | zero =>
    rw [decodeLoop]
    exact ⟨⟨[], by simp⟩, id, rfl⟩
  | succ fuel ih =>
    rw [decodeLoop]
    refine readField_ends (fun t => decoderMoved_source) (fun t => decoderMoved_source) fun b t ht => ?_
    have ht' := decoderMoved_source ht
    dsimp only
    split
    · trivial
    · split
      · trivial
      · split
        · split
          · exact decoderMoved_trans ht' (decoderMoved_cur t _)
          · refine ends_andThen (put_grew _ _) (fun u hu => decoderMoved_trans ht'
              (decoderMoved_trans (decoderMoved_cur t _) (decoderMoved_sink hu))) fun _ u _ hu => ?_
            refine ends_mono (ih _) fun w hw => ?_
            exact decoderMoved_trans (decoderMoved_trans ht' (decoderMoved_trans (decoderMoved_cur t _)
              (decoderMoved_sink hu))) (decoderMoved_trans (decoderMoved_cur u _) hw)
        · exact ends_mono (ih _) fun w hw => decoderMoved_trans ht' (decoderMoved_trans (decoderMoved_cur t _) hw)

/-- On a valid tree, from an internal node, the loop never leaves the tree (R161). -/
theorem decodeLoop_sound (fuel : Nat) {s : State} (h : TreeInv s) {here : Node} (hh : nodeAt s s.cur = some here)
    (hl : here.leaf = false) : (decodeLoop fuel s).Sound := by
  induction fuel generalizing s here with
  | zero =>
    rw [decodeLoop]
    trivial
  | succ fuel ih =>
    have hcap := h.atMostCap
    have hnode : ∀ k : NodeIx, k < s.nnodes → ∃ n, nodeAt s k = some n := by
      intro k hk
      have hk' := BitVec.lt_def.mp hk
      simp only [Config.nodeCap] at hcap
      exact ⟨s.node[k.toNat], by rw [nodeAt, if_pos hk, Vector.getElem?_eq_getElem (by omega)]⟩
    rw [decodeLoop]
    refine readField_sound (fun t _ => trivial) fun b t ht => ?_
    have e : t.node = s.node ∧ t.nnodes = s.nnodes ∧ t.root = s.root ∧ t.cur = s.cur := by
      rw [ht.1]; exact ⟨rfl, rfl, rfl, rfl⟩
    have hc : nodeAt t t.cur = some here := by rw [nodeAt_congr e.1 e.2.1, e.2.2.2]; exact hh
    simp only [hc]
    obtain ⟨n, hn⟩ : ∃ n, nodeAt s (if b = 0 then here.left else here.right) = some n := by
      apply hnode
      obtain ⟨hl', -⟩ | ⟨-, -, -, h1, h2⟩ := h.shape _ _ hh
      · rw [hl] at hl'; cases hl'
      · have h1 := BitVec.lt_def.mp h1
        have h2 := BitVec.lt_def.mp h2
        have h3 := BitVec.lt_def.mp (nodeAt_eq_some.mp hh).1
        split <;> exact BitVec.lt_def.mpr (by omega)
    have hn' : nodeAt (t.withCur (if b = 0 then here.left else here.right))
        (if b = 0 then here.left else here.right) = some n := by
      rw [nodeAt_congr (s := s) (by simpa using e.1) (by simpa using e.2.1)]; exact hn
    simp only [hn']
    split
    · split
      · trivial
      · refine sound_andThen (put_sound _ _) fun _ u hu => ?_
        have gu := put_grew (n.value.extractLsb' 0 8) (t.withCur (if b = 0 then here.left else here.right))
        rw [putWord] at hu
        rw [hu] at gu
        have f : u.node = s.node ∧ u.nnodes = s.nnodes ∧ u.root = s.root := by
          rw [gu.2]
          simpa using ⟨e.1, e.2.1, e.2.2.1⟩
        obtain ⟨m, hm, hml⟩ := h.rootInternal
        refine ih (treeInv_congr (by simpa using f.1) (by simpa using f.2.2) (by simpa using f.2.1) h) (here := m) ?_ hml
        rw [State.withCur_cur, f.2.2, nodeAt_congr (s := s) (by simpa using f.1) (by simpa using f.2.1)]
        exact hm
    · rename_i hnl
      refine ih (treeInv_congr (by simpa using e.1) (by simpa using e.2.2.1) (by simpa using e.2.1) h) (here := n) ?_
        (by simpa using hnl)
      rw [State.withCur_cur]
      exact hn'

/-- `CUR` only ever takes the index of a record of the tree (R29). -/
theorem decodeLoop_cur (fuel : Nat) {s : State} (hn : s.nnodes.toNat ≤ 513) (hc : s.cur.toNat < 513)
    (hr : s.root.toNat < 513) : (decodeLoop fuel s).Ends fun t => t.cur.toNat < 513 := by
  induction fuel generalizing s with
  | zero =>
    rw [decodeLoop]
    exact hc
  | succ fuel ih =>
    rw [decodeLoop]
    have hm : ∀ t, SourceMoved s t → t.cur.toNat < 513 := fun t ht => by rw [ht.1]; exact hc
    refine readField_ends hm hm fun b t ht => ?_
    have e1 : t.nnodes = s.nnodes := by rw [ht.1]; rfl
    have e2 : t.root = s.root := by rw [ht.1]; rfl
    split
    · trivial
    · rename_i here _
      dsimp only
      generalize (if b = 0 then here.left else here.right) = next
      split
      · trivial
      · rename_i n hnext
        have hlt := BitVec.lt_def.mp (nodeAt_eq_some.mp hnext).1
        rw [State.withCur_nnodes, e1] at hlt
        have hc' : (t.withCur next).cur.toNat < 513 := by rw [State.withCur_cur]; omega
        split
        · split
          · exact hc'
          · refine ends_andThen (put_grew _ _) (fun u hu => by rw [hu.2]; exact hc') fun _ u _ hu => ?_
            have f1 : u.nnodes = s.nnodes := by rw [hu.2]; exact e1
            have f2 : u.root = s.root := by rw [hu.2]; exact e2
            exact ih (by rw [State.withCur_nnodes, f1]; exact hn) (by rw [State.withCur_cur, f2]; exact hr)
              (by rw [State.withCur_root, f2]; exact hr)
        · exact ih (by rw [State.withCur_nnodes, e1]; exact hn) hc' (by rw [State.withCur_root, e2]; exact hr)

/-! ## Its calls -/

/-- The calls that read a path from record `k`. -/
abbrev readsFrom (s : State) (k : NodeIx) (p : List Bool) : List Call :=
  (List.range p.length).map fun j => (.read 1, descend s k (p.take j))

theorem readsFrom_cons {s : State} {k : NodeIx} {n : Node} (hn : nodeAt s k = some n) (b : Bool) (p : List Bool) :
    readsFrom s k (b :: p) = (.read 1, k) :: readsFrom s (if b then n.right else n.left) p := by
  rw [readsFrom, List.length_cons, List.range_succ_eq_map, List.map_cons, List.map_map]
  refine congrArg₂ _ rfl (List.map_congr_left fun j _ => ?_)
  simp only [Function.comp_apply, List.take_succ_cons, descend_cons hn]

/-- The state DECODE's next pass starts in, as far as the loop reads it: the tree's records, and the bits left. -/
structure Reading (s t : State) (bits : List Bool) : Prop where
  node : t.node = s.node
  nnodes : t.nnodes = s.nnodes
  root : t.root = s.root
  unread : t.unread = bits

/-- One bit of a path: one call, then the rest from the record the bit leads to. -/
theorem stops_bit {s : State} {b : Bool} {rest : List Bool} {here n : Node} {fuel : Nat} {cs : List Call}
    (hu : s.unread = b :: rest) (hh : nodeAt s s.cur = some here)
    (hn : nodeAt s (if b then here.right else here.left) = some n)
    (h : StopsIn (if n.leaf then
        if n.value = pseudoEof then .ok () (afterBit s (if b then here.right else here.left))
        else (putWord (n.value.extractLsb' 0 8) (afterBit s (if b then here.right else here.left))).andThen fun _ s =>
          decodeLoop fuel (s.withCur s.root)
      else decodeLoop fuel (afterBit s (if b then here.right else here.left)))
      (afterBit s (if b then here.right else here.left)) cs) :
    StopsIn (decodeLoop (fuel + 1) s) s ((.read 1, s.cur) :: cs) := by
  have hlen := congrArg List.length hu
  have h1 : s.srcPos + 1 ≤ s.srcBits.length := by simp at hlen; omega
  have hb : ofBits 1 (s.unread.take 1) = BitVec.ofBool b := by rw [hu]; cases b <;> rfl
  rw [decodeLoop]
  refine stops_readField (fun _ => ?_) fun h => by omega
  have hc : (if BitVec.ofBool b = 0 then here.left else here.right) = if b then here.right else here.left := by
    cases b <;> rfl
  have hh' : nodeAt (readOn 1 s) (readOn 1 s).cur = some here := hh
  have hn' : nodeAt (afterBit s (if b then here.right else here.left)) (if b then here.right else here.left) =
    some n := hn
  rw [hb]
  simp only [hh', hc, hn']
  exact stops_congr h rfl rfl rfl rfl

/-- A path cut before its leaf: a call for each bit, and one for the bit after (R160, R163). -/
theorem decodeLoop_stops_cut {s : State} {levels : Nat} {k : NodeIx} {T : Tree} {p cut rest : List Bool} {v : Sym}
    (more : Nat) (hT : treeAt s levels k = some T) (hc : s.cur = k) (hp : (p ++ cut, v) ∈ T.paths) (hcut : cut ≠ [])
    (hu : s.unread = p ++ rest) :
    StopsIn (decodeLoop (more + p.length + 1) s) s (readsFrom s k p ++ [(.read 1, descend s k p)]) := by
  induction p generalizing s levels k T with
  | nil =>
    subst hc
    rw [decodeLoop]
    exact stops_readField (fun _ => stops_nil _ _) fun _ => stops_nil _ _
  | cons b p ih =>
    subst hc
    obtain ⟨levels, here, U, rfl, hh, hl, hU, hp'⟩ := treeAt_branch hT hp
    obtain ⟨b', q, hq⟩ : ∃ b' q, p ++ cut = b' :: q := by
      cases hpc : p ++ cut with
      | nil => simp at hpc; exact absurd hpc.2 hcut
      | cons b' q => exact ⟨b', q, rfl⟩
    obtain ⟨_, n, -, -, hn, hnl, -, -⟩ := treeAt_branch (p := q) (b := b') hU (by rw [← hq]; exact hp')
    rw [readsFrom_cons hh, descend_cons hh, List.cons_append]
    refine stops_bit hu hh hn ?_
    rw [if_neg (by simp [hnl])]
    have := ih (s := afterBit s (if b then here.right else here.left))
      ((treeAt_congr (s := s) (t := afterBit s _) rfl rfl _ _).trans hU) rfl hp' (unread_afterBit hu)
    rwa [readsFrom, descend_congr (s := s) (t := afterBit s _) rfl rfl,
      show (fun j => ((.read 1, descend (afterBit s (if b then here.right else here.left)) _ (p.take j)) : Call)) =
        fun j => (.read 1, descend s (if b then here.right else here.left) (p.take j)) from
        funext fun j => by rw [descend_congr (s := s) (t := afterBit s _) rfl rfl]] at this

/-- A whole code of a word: its bits are read, the word written, and the loop goes on at the root (R160). -/
theorem decodeLoop_stops_word {s : State} {levels : Nat} {k : NodeIx} {T : Tree} {p rest : List Bool} {v : Sym}
    {cs : List Call} (more : Nat) (hT : treeAt s levels k = some T) (hc : s.cur = k) (hp : (p, v) ∈ T.paths)
    (hne : p ≠ []) (hv : v ≠ pseudoEof) (hu : s.unread = p ++ rest)
    (h : ∀ t, Reading s t rest → t.cur = s.root → StopsIn (decodeLoop more t) t cs) :
    StopsIn (decodeLoop (more + p.length) s) s
      (readsFrom s k p ++ (.write (binBits (v.setWidth 8 : Byte)), descend s k p) :: cs) := by
  induction p generalizing s levels k T with
  | nil => exact absurd rfl hne
  | cons b p ih =>
    subst hc
    obtain ⟨levels, here, U, rfl, hh, hl, hU, hp'⟩ := treeAt_branch hT hp
    rw [readsFrom_cons hh, descend_cons hh, List.cons_append]
    cases p with
    | nil =>
      obtain ⟨n, hn, hnl, hnv⟩ := treeAt_leaf hU hp'
      refine stops_bit hu hh hn ?_
      rw [if_pos hnl, hnv, if_neg hv]
      have hw : v.extractLsb' 0 8 = (v.setWidth 8 : Byte) := by apply BitVec.eq_of_toNat_eq; simp
      rw [hw]
      set c := if b then here.right else here.left
      refine stops_andThen (stops_put _ (afterBit s c)) (passes_put _ (afterBit s c)) (cs' := cs) fun _ t ht _ => ?_
      obtain ⟨-, -, e1, e2, e3, e4, e5⟩ := ht.kept
      have hu' : t.unread = rest := by
        rw [State.unread, e4, e5]
        exact unread_afterBit (c := c) hu
      rw [e3]
      exact stops_congr (h (t.withCur s.root) ⟨e1, e2, e3, hu'⟩ rfl) rfl rfl rfl rfl
    | cons b' p =>
      obtain ⟨_, n, -, -, hn, hnl, -, -⟩ := treeAt_branch hU hp'
      refine stops_bit hu hh hn ?_
      rw [if_neg (by simp [hnl])]
      have := ih (s := afterBit s (if b then here.right else here.left))
        ((treeAt_congr (s := s) (t := afterBit s _) rfl rfl _ _).trans hU) rfl hp' (by simp) (unread_afterBit hu)
        fun t ht hr => h t ⟨ht.node, ht.nnodes, ht.root, ht.unread⟩ hr
      rwa [readsFrom, descend_congr (s := s) (t := afterBit s _) rfl rfl,
        show (fun j => ((.read 1, descend (afterBit s (if b then here.right else here.left)) _
            ((b' :: p).take j)) : Call)) =
          fun j => (.read 1, descend s (if b then here.right else here.left) ((b' :: p).take j)) from
          funext fun j => by rw [descend_congr (s := s) (t := afterBit s _) rfl rfl]] at this

/-- DECODE's calls: those of each whole code, then those of the path the body goes on with (R160, R161). -/
theorem decodeLoop_calls {s : State} {levels : Nat} {T : Tree} {ls : List (List Bool × Sym)} {p cut rest : List Bool}
    {v : Sym} (more : Nat) (hT : treeAt s levels s.root = some T) (hc : s.cur = s.root)
    (hls : ∀ l ∈ ls, l ∈ T.paths ∧ l.2 ≠ pseudoEof) (hne : ∀ l ∈ T.paths, l.1 ≠ []) (hp : (p ++ cut, v) ∈ T.paths)
    (hcut : cut ≠ []) (hu : s.unread = ls.flatMap Prod.fst ++ p ++ rest) :
    StopsIn (decodeLoop (more + (ls.flatMap Prod.fst ++ p).length + 1) s) s
      (ls.flatMap (wordCalls s) ++ pathReads s p ++ [(.read 1, descend s s.root p)]) := by
  induction ls generalizing s with
  | nil => exact decodeLoop_stops_cut more hT hc hp hcut hu
  | cons l ls ih =>
    obtain ⟨hl, hv⟩ := hls l (List.mem_cons_self ..)
    have hf : more + ((l :: ls).flatMap Prod.fst ++ p).length + 1 =
        more + (ls.flatMap Prod.fst ++ p).length + 1 + l.1.length := by simp; omega
    have hcs : (l :: ls).flatMap (wordCalls s) ++ pathReads s p ++ [(.read 1, descend s s.root p)] =
        readsFrom s s.root l.1 ++ (.write (binBits (l.2.setWidth 8 : Byte)), descend s s.root l.1) ::
          (ls.flatMap (wordCalls s) ++ pathReads s p ++ [(.read 1, descend s s.root p)]) := by
      simp [wordCalls, pathReads, readsFrom]
    rw [hf, hcs]
    refine decodeLoop_stops_word (rest := ls.flatMap Prod.fst ++ (p ++ rest)) _ hT hc hl (hne l hl) hv
      (by rw [hu, List.flatMap_cons]; simp only [List.append_assoc]) fun t ht hr => ?_
    have same : ∀ q, descend t t.root q = descend s s.root q := fun q => by
      rw [ht.root, descend_congr ht.node ht.nnodes]
    have reads : ∀ q, pathReads t q = pathReads s q := fun q => by
      rw [pathReads, pathReads]; simp only [same]
    have words : wordCalls t = wordCalls s := funext fun l => by rw [wordCalls, wordCalls, reads, same]
    have := ih (s := t) (by rw [ht.root]; exact (treeAt_congr ht.node ht.nnodes _ _).trans hT) (by rw [hr, ht.root])
      (fun x hx => hls x (List.mem_cons_of_mem _ hx)) (by rw [ht.unread, List.append_assoc])
    rwa [words, reads, same] at this

/-- The paths of a valid tree's leaves are not empty: its root is internal (R24). -/
theorem paths_ne_nil {s : State} {T : Tree} (h : TreeInv s) (hT : s.tree = some T) : ∀ l ∈ T.paths, l.1 ≠ [] := by
  obtain ⟨n, hn, hl⟩ := h.rootInternal
  rintro ⟨p, v⟩ hp rfl
  obtain ⟨m, hm, hml, -⟩ := treeAt_leaf hT hp
  rw [hn] at hm
  cases hm
  rw [hml] at hl
  cases hl

/-- DECODE's calls (R160), as `CallsOf` lists them. -/
theorem decodeBody_stops {s : State} {cs : List Call} (h : CallsOf .decode s cs) : StopsIn (decodeBody s) s cs := by
  obtain ⟨-, hi, T, ls, p, cut, v, hT, hls, hp, hc, ⟨rest, hr⟩, rfl⟩ := h
  have hlen := congrArg List.length hr
  simp only [List.length_append, unread_length] at hlen
  have hT' : treeAt (s.withCur s.root) s.nnodes.toNat s.root = some T :=
    (treeAt_congr (s := s) (t := s.withCur s.root) rfl rfl _ _).trans hT
  have := decodeLoop_calls (s := s.withCur s.root) (s.srcBits.length - s.srcPos - (ls.flatMap Prod.fst ++ p).length)
    hT' rfl hls (paths_ne_nil hi hT) hp hc hr.symm
  rw [show s.srcBits.length - s.srcPos - (ls.flatMap Prod.fst ++ p).length + (ls.flatMap Prod.fst ++ p).length + 1 =
    s.srcBits.length - s.srcPos + 1 by simp at hlen ⊢; omega] at this
  have e1 : ∀ q, descend (s.withCur s.root) (s.withCur s.root).root q = descend s s.root q := fun q =>
    descend_congr (s := s) (t := s.withCur s.root) rfl rfl _ _
  have e2 : ∀ q, pathReads (s.withCur s.root) q = pathReads s q := fun q => by
    rw [pathReads, pathReads]; simp only [e1]
  have e3 : wordCalls (s.withCur s.root) = wordCalls s := funext fun l => by rw [wordCalls, wordCalls, e1, e2]
  rw [e1, e2, e3] at this
  exact stops_congr this rfl rfl rfl rfl

end Sys2Proof.Machine
end

