-- ==== Sys2Proof/Laws/Draws.lean ====
section
/-! SUPPORT. Whatever its data, an operation that uses up a draw of `IOERR` or of no answer ends with it. -/

namespace Sys2Proof.Machine

variable {α β : Type} {d : Draw} {ds : List Draw} {P : BitVec 4 → Prop} {s0 s : State}

/-- In `s`, which an operation has reached from `s0`, the draws up to this one are answers, and this one ends it. -/
def Pending (d : Draw) (ds : List Draw) (s0 s : State) : Prop :=
  Ends s d ∧ fixed s = fixed s0 ∧ ∃ pre, (∀ x ∈ pre, x = .answer) ∧ s.draws = pre ++ d :: ds

theorem Pending.congr {t : State} (h : Pending d ds s0 s) (hd : t.draws = s.draws) (hf : fixed t = fixed s) :
    Pending d ds s0 t := by
  obtain ⟨h1, h0, pre, h2, h3⟩ := h
  exact ⟨h1.imp_right fun h => ⟨h.1, (fixed_eq hf).2.1.trans h.2⟩, hf.trans h0, pre, h2, hd.trans h3⟩

theorem Pending.here {t : State} (h : Pending d ds s0 s) (hd : t.draws = s.draws) (hf : t.ioCanFail = s.ioCanFail) :
    Pending d ds t t := by
  obtain ⟨h1, -, pre, h2, h3⟩ := h
  exact ⟨h1.imp_right fun h => ⟨h.1, hf.trans h.2⟩, rfl, pre, h2, hd.trans h3⟩

/-- A result that either leaves that draw where it is or ends with it, at a port whose sub-code has `P`. -/
def Res.EndsWith (d : Draw) (ds : List Draw) (P : BitVec 4 → Prop) (s0 : State) : Res α → Prop
  | .ok _ t => Pending d ds s0 t
  | .raised e t => Pending d ds s0 t ∨ (d = .ioErr ∧ t.draws = ds ∧ ∃ c, P (ioSub c) ∧ e = ⟨.io, ioSub c, 0⟩)
  | .waits _ t => d = .silent ∧ t.draws = ds ∧ fixed t = fixed s0
  | .broken _ => True

theorem endsWith_andThen {r : Res α} {f : α → State → Res β} (hr : r.EndsWith d ds P s0)
    (hf : ∀ a t, Pending d ds s0 t → (f a t).EndsWith d ds P s0) : (r.andThen f).EndsWith d ds P s0 := by
  cases r with
  | ok a t => exact hf a t hr
  | raised e t => exact hr
  | waits c t => exact hr
  | broken b => trivial

/-- The next call takes an answer, or the draw that ends the operation. -/
theorem takeDraw_pending (h : Pending d ds s0 s) :
    (∃ t, takeDraw s = (.answer, t) ∧ Pending d ds s0 t) ∨ takeDraw s = (d, s.withDraws ds) := by
  obtain ⟨h1, h0, pre, h2, h3⟩ := h
  cases pre with
  | nil => exact .inr (takeDraw_ends h1 h3)
  | cons x pre =>
    obtain rfl := h2 x (List.mem_cons_self ..)
    exact .inl ⟨s.withDraws (pre ++ d :: ds), by simp [takeDraw, h3], h1, h0, pre,
      fun y hy => h2 y (List.mem_cons_of_mem _ hy), rfl⟩

theorem endsWith_readField {n : Nat} {e : State → Res α} {v : BitVec n → State → Res α} (h : Pending d ds s0 s)
    (hP : P 1) (he : ∀ t, Pending d ds s0 t → (e t).EndsWith d ds P s0)
    (hv : ∀ x t, Pending d ds s0 t → (v x t).EndsWith d ds P s0) :
    (readField n e v s).EndsWith d ds P s0 := by
  obtain ⟨t, e1, ht⟩ | e1 := takeDraw_pending h
  · rw [readField, srcRead, e1]
    have ha : Pending d ds s0 (srcAfterRead n t) := by unfold srcAfterRead; split <;> exact ht.congr rfl rfl
    dsimp only
    cases srcNext n t with
    | none => exact he _ ha
    | some bits => exact hv _ _ ha
  · obtain rfl | ⟨rfl, -⟩ := h.1
    · rw [readField, srcRead, e1]; exact ⟨rfl, rfl, h.2.1⟩
    · rw [readField, srcRead, e1]; exact .inr ⟨rfl, rfl, .read n, hP, rfl⟩

theorem endsWith_put {n : Nat} (v : BitVec n) (h : Pending d ds s0 s) (hP : P 2) : (put v s).EndsWith d ds P s0 := by
  obtain ⟨t, e1, ht⟩ | e1 := takeDraw_pending h
  · rw [put, snkWrite, e1]; exact ht.congr rfl rfl
  · obtain rfl | ⟨rfl, -⟩ := h.1
    · rw [put, snkWrite, e1]; exact ⟨rfl, rfl, h.2.1⟩
    · rw [put, snkWrite, e1]; exact .inr ⟨rfl, rfl, .write (binBits v), hP, rfl⟩

theorem endsWith_rewind (h : Pending d ds s0 s) (hP : P 3) : (rewindBody s).EndsWith d ds P s0 := by
  obtain ⟨t, e1, ht⟩ | e1 := takeDraw_pending h
  · rw [rewindBody, srcRewind, e1]; exact ht.congr rfl rfl
  · obtain rfl | ⟨rfl, -⟩ := h.1
    · rw [rewindBody, srcRewind, e1]; exact ⟨rfl, rfl, h.2.1⟩
    · rw [rewindBody, srcRewind, e1]; exact .inr ⟨rfl, rfl, .rewind, hP, rfl⟩

theorem endsWith_putBits (bits : List Bool) (h : Pending d ds s0 s) (hP : P 2) :
    (putBits bits s).EndsWith d ds P s0 := by
  induction bits generalizing s with
  | nil => exact h
  | cons b bits ih => exact endsWith_andThen (endsWith_put _ h hP) fun _ t ht => ih ht

theorem endsWith_putLeaf (v : Sym) (h : Pending d ds s0 s) (hP : P 2) : (putLeaf v s).EndsWith d ds P s0 :=
  endsWith_andThen (endsWith_put _ h hP) fun _ _ ht => endsWith_put _ ht hP

theorem endsWith_countLoop (fuel : Nat) (h : Pending d ds s0 s) (hP : P 1) : (countLoop fuel s).EndsWith d ds P s0 := by
  induction fuel generalizing s with
  | zero => exact h
  | succ fuel ih =>
    refine endsWith_readField h hP (fun t ht => ht) fun w t ht => ?_
    split
    · exact .inl ht
    · exact ih (ht.congr rfl rfl)

theorem endsWith_putTree (fuel : Nat) (k : NodeIx) (h : Pending d ds s0 s) (hP : P 2) :
    (putTree fuel k s).EndsWith d ds P s0 := by
  induction fuel generalizing s k with
  | zero => trivial
  | succ fuel ih =>
    rw [putTree]
    split
    · trivial
    · split
      · exact endsWith_putLeaf _ h hP
      · exact endsWith_andThen (endsWith_put _ h hP) fun _ _ ht => endsWith_andThen (ih _ ht) fun _ _ hu => ih _ hu

theorem endsWith_encodeLoop (fuel : Nat) (h : Pending d ds s0 s) (h1 : P 1) (h2 : P 2) :
    (encodeLoop fuel s).EndsWith d ds P s0 := by
  have he : ∀ v t, Pending d ds s0 t → (emit v t).EndsWith d ds P s0 := by
    intro v t ht
    rw [emit]
    split
    · exact .inl ht
    · exact endsWith_putBits _ ht h2
  induction fuel generalizing s with
  | zero => exact he _ _ h
  | succ fuel ih =>
    exact endsWith_readField h h1 (fun t ht => he _ _ ht) fun w t ht => endsWith_andThen (he _ _ ht) fun _ _ hu => ih hu

theorem endsWith_decodeLoop (fuel : Nat) (h : Pending d ds s0 s) (h1 : P 1) (h2 : P 2) :
    (decodeLoop fuel s).EndsWith d ds P s0 := by
  induction fuel generalizing s with
  | zero => exact .inl h
  | succ fuel ih =>
    refine endsWith_readField h h1 (fun t ht => .inl ht) fun b t ht => ?_
    split
    · trivial
    · dsimp only
      split
      · trivial
      · split
        · split
          · exact ht.congr rfl rfl
          · exact endsWith_andThen (endsWith_put _ (ht.congr rfl rfl) h2) fun _ _ hu => ih (hu.congr rfl rfl)
        · exact ih (ht.congr rfl rfl)

theorem endsWith_getTree (fuel seen : Nat) (h : Pending d ds s0 s) (hP : P 1) :
    (getTree fuel seen s).EndsWith d ds P s0 := by
  induction fuel generalizing s seen with
  | zero => exact .inl h
  | succ fuel ih =>
    rw [getTree]
    split
    · exact .inl h
    · refine endsWith_readField h hP (fun t ht => .inl ht) fun tag t ht => ?_
      split
      · exact endsWith_andThen (ih _ ht) fun _ _ hu => endsWith_andThen (ih _ hu) fun _ _ hw => hw.congr rfl rfl
      · refine endsWith_readField ht hP (fun t ht => .inl ht) fun v u hu => ?_
        split
        · exact hu.congr rfl rfl
        · exact .inl hu

theorem endsWith_rdtreeBody (h : Pending d ds s0 s) (hP : P 1) : (rdtreeBody s).EndsWith d ds P s0 := by
  refine endsWith_andThen (endsWith_getTree _ _ (h.congr rfl rfl) hP) fun a t ht => ?_
  split
  · trivial
  · split
    · exact .inl ht
    · exact ht.congr rfl rfl

theorem endsWith_rdmagicBody (h : Pending d ds s0 s) (hP : P 1) : (rdmagicBody s).EndsWith d ds P s0 := by
  refine endsWith_readField h hP (fun t ht => .inl ht) fun v t ht => ?_
  split
  · exact ht
  · exact .inl ht

theorem endsWith_countBody (h : Pending d ds s0 s) (hP : P 1) : (countBody s).EndsWith d ds P s0 :=
  endsWith_countLoop _ (h.congr rfl rfl) hP

theorem endsWith_decodeBody (h : Pending d ds s0 s) (h1 : P 1) (h2 : P 2) : (decodeBody s).EndsWith d ds P s0 :=
  endsWith_decodeLoop _ (h.congr rfl rfl) h1 h2

/-- BUILD and GENCODES make no call (R110, R126). -/
theorem endsWith_buildBody (h : Pending d ds s0 s) : (buildBody s).EndsWith d ds P s0 := by
  rw [buildBody_eq]
  exact h.congr rfl rfl

theorem endsWith_gencodesBody (h : Pending d ds s0 s) : (gencodesBody s).EndsWith d ds P s0 := by
  unfold gencodesBody
  split
  · trivial
  · exact h.congr rfl rfl

/-- A state in which an accepted instruction has ended with that draw (R184, R190, R225). -/
def Ended (d : Draw) (ds : List Draw) (P : BitVec 4 → Prop) (t : State) : Prop :=
  t.draws = ds ∧ t.done = false ∧
    ((d = .silent ∧ t.seq = .busy ∧ t.inFlight.isSome = true) ∨
     (d = .ioErr ∧ ∃ c, P (ioSub c) ∧ t.Failed ⟨4, ioSub c, 0⟩))

/-- From a body to its command; one of a sequence may find the operation before it ended so. -/
theorem runCommand_endsWith {op : BitVec 4} {p : Bool} {body : State → Res Unit} {t : State}
    (h : Pending d ds s s ∨ Ended d ds P s) (hb : ∀ u, Pending d ds u u → (body u).EndsWith d ds P u)
    (ht : runCommand op p body s = .next t) : Pending d ds t t ∨ Ended d ds P t := by
  obtain ⟨-, rfl⟩ | ⟨hs, h'⟩ : (s.seq ≠ .idle ∧ t = s) ∨ (s.seq = .idle ∧ _) :=
    (runCommand_cases ht).imp id fun h => h.elim (fun h => ⟨h.1, Or.inl h.2⟩) fun h => ⟨h.1, Or.inr h.2⟩
  · exact h
  · obtain h | ⟨-, -, ⟨-, h, -⟩ | ⟨-, c, -, h, -⟩⟩ := h
    · obtain ⟨-, rfl⟩ | ⟨-, h1⟩ := h'
      · exact .inl (h.here rfl rfl)
      · have hb := hb _ (h.here (t := s.withSeq .busy false) rfl rfl)
        obtain ⟨u, e, rfl⟩ | ⟨er, u, e, rfl⟩ | ⟨c, u, e, rfl⟩ := h1 <;> rw [e] at hb
        · exact .inl (hb.here rfl rfl)
        · obtain hb | ⟨hd, h1, c, hc, rfl⟩ := hb
          · exact .inl (hb.here rfl rfl)
          · exact .inr ⟨h1, rfl, .inr ⟨hd, c, hc, rfl, rfl, rfl⟩⟩
        · obtain ⟨-, -, h3, h4⟩ := fixed_eq hb.2.2
          exact .inr ⟨hb.2.1, h4, .inl ⟨hb.1, h3, rfl⟩⟩
    · rw [hs] at h; cases h
    · rw [hs] at h; cases h

/-- From a body to its transfer. -/
theorem runTransfer_endsWith {body : State → Res Unit} {t : State} (hs : s.seq = .idle)
    (hb : (body s).EndsWith d ds P s) (ht : runTransfer body s = .next t) : Pending d ds t t ∨ Ended d ds P t := by
  obtain ⟨h0, -⟩ | ⟨-, e | ⟨er, u, e, rfl⟩ | ⟨c, u, e, rfl⟩⟩ := runTransfer_cases ht
  · exact absurd hs h0
  all_goals rw [e] at hb
  · exact .inl (hb.here rfl rfl)
  · obtain hb | ⟨hd, h1, c, hc, rfl⟩ := hb
    · exact .inl (hb.here rfl rfl)
    · exact .inr ⟨h1, rfl, .inr ⟨hd, c, hc, rfl, rfl, rfl⟩⟩
  · exact .inr ⟨hb.2.1, rfl, .inl ⟨hb.1, rfl, rfl⟩⟩

end Sys2Proof.Machine
end

