-- ==== Sys2Proof/Laws/Encoder.lean ====
section
/-! SUPPORT. ENCODE: its loop, by induction on the words left. -/

namespace Sys2Proof.Machine

/-- A symbol with a code, on ports that answer (R150). -/
theorem emit_coded {v : Sym} {s : State} (h : s.PortsAnswer) (hc : (codeAt s.code v.toNat).len ≠ 0) :
    emit v s = .ok () ((s.withDraws (s.draws.drop (s.codeBits v).length)).withSnk (s.snkBits ++ s.codeBits v)) := by
  rw [emit, if_neg hc, putCode, putBits_answered _ h]
  rfl

/-- A symbol without a code (R152). -/
theorem emit_uncoded {v : Sym} {s : State} (hc : (codeAt s.code v.toNat).len = 0) :
    emit v s = .raised (noCodeFor v) s := by rw [emit, if_pos hc]

theorem emit_grew (v : Sym) (s : State) : (emit v s).Ends (SinkGrew s) := by
  unfold emit
  split
  · exact sinkGrew_refl s
  · exact putBits_grew _ s

/-- The symbols ENCODE sends from here on: the words left, then the pseudo-EOF (R150). -/
def symbolsToSend (words : List Byte) : List Sym := words.map (fun b => b.setWidth 9) ++ [pseudoEof]

/-- The loop on ports that answer: it sends the codes of the symbols left, up to the first that has none. -/
theorem encodeLoop_answered (fuel : Nat) (s : State) (h : s.PortsAnswer) (hf : s.unread.length < fuel) :
    (∀ pre post v, symbolsToSend (wordsOf s.unread) = pre ++ v :: post →
      (∀ u ∈ pre, (codeAt s.code u.toNat).len ≠ 0) → (codeAt s.code v.toNat).len = 0 →
      ∃ pos ds, encodeLoop fuel s =
        .raised (noCodeFor v) (((s.withSrcPos pos).withDraws ds).withSnk (s.snkBits ++ pre.flatMap s.codeBits))) ∧
    ((∀ u ∈ symbolsToSend (wordsOf s.unread), (codeAt s.code u.toNat).len ≠ 0) →
      ∃ ds, encodeLoop fuel s = .ok () (((s.withSrcPos s.srcBits.length).withDraws ds).withSnk
        (s.snkBits ++ (symbolsToSend (wordsOf s.unread)).flatMap s.codeBits))) := by
  induction fuel generalizing s with
  | zero => omega
  | succ fuel ih =>
    by_cases hn : s.srcPos + 8 ≤ s.srcBits.length
    · have hlen : 8 ≤ s.unread.length := by simp; omega
      set w : Byte := ofBits 8 (s.unread.take 8) with hw
      have hsym : symbolsToSend (wordsOf s.unread) = w.setWidth 9 :: symbolsToSend (wordsOf (s.unread.drop 8)) := by
        rw [wordsOf_long _ hlen]; rfl
      set s₁ := (s.withDraws s.draws.tail).withSrcPos (s.srcPos + 8) with hs₁
      have hloop : encodeLoop (fuel + 1) s = (emit (w.setWidth 9) s₁).andThen fun _ s => encodeLoop fuel s := by
        rw [encodeLoop, readField_value h hn]
      have h₁ : s₁.PortsAnswer := portsAnswer_tail h
      rw [hsym, hloop]
      by_cases hc : (codeAt s.code (w.setWidth 9).toNat).len = 0
      · constructor
        · intro pre post v e hpre hv
          cases pre with
          | nil =>
            simp only [List.nil_append, List.cons.injEq] at e
            rw [← e.1, emit_uncoded (s := s₁) hc]
            exact ⟨s.srcPos + 8, s.draws.tail, by simp [hs₁, State.withSnk, State.withDraws, State.withSrcPos]⟩
          | cons p pre =>
            simp only [List.cons_append, List.cons.injEq] at e
            exact absurd (e.1 ▸ hc) (hpre p (List.mem_cons_self ..))
        · intro hall
          exact absurd hc (hall _ (List.mem_cons_self ..))
      · rw [emit_coded (s := s₁) h₁ hc, andThen_ok]
        set s₂ := (s₁.withDraws (s₁.draws.drop (s₁.codeBits (w.setWidth 9)).length)).withSnk
          (s₁.snkBits ++ s₁.codeBits (w.setWidth 9)) with hs₂
        have h₂ : s₂.PortsAnswer := fun d hd => h₁ d (List.mem_of_mem_drop hd)
        have hu : s₂.unread = s.unread.drop 8 := by simp [hs₂, hs₁, State.unread]
        have hb : s₂.codeBits = s.codeBits := rfl
        obtain ⟨ih₁, ih₂⟩ := ih s₂ h₂ (by rw [hu]; simp at *; omega)
        rw [hu] at ih₁ ih₂
        constructor
        · intro pre post v e hpre hv
          cases pre with
          | nil =>
            simp only [List.nil_append, List.cons.injEq] at e
            exact absurd (e.1 ▸ hv) hc
          | cons p pre =>
            simp only [List.cons_append, List.cons.injEq] at e
            obtain ⟨pos, ds, hi⟩ := ih₁ pre post v e.2 (fun u hu => hpre u (List.mem_cons_of_mem _ hu)) hv
            refine ⟨pos, ds, ?_⟩
            rw [hi, hb, ← e.1, List.flatMap_cons]
            simp [hs₂, hs₁, State.withSnk, State.withDraws, State.withSrcPos, State.codeBits]
        · intro hall
          obtain ⟨ds, hi⟩ := ih₂ fun u hu => hall u (List.mem_cons_of_mem _ hu)
          refine ⟨ds, ?_⟩
          rw [hi, hb, List.flatMap_cons]
          simp [hs₂, hs₁, State.withSnk, State.withDraws, State.withSrcPos, State.codeBits]
    · have hn' : s.srcBits.length < s.srcPos + 8 := by omega
      have hsym : symbolsToSend (wordsOf s.unread) = [pseudoEof] := by
        rw [wordsOf_short _ (by simp; omega)]; rfl
      set s₁ := (s.withDraws s.draws.tail).withSrcPos s.srcBits.length with hs₁
      have hloop : encodeLoop (fuel + 1) s = emit pseudoEof s₁ := by rw [encodeLoop, readField_endOfData h hn']
      rw [hsym, hloop]
      constructor
      · intro pre post v e hpre hv
        cases pre with
        | nil =>
          simp only [List.nil_append, List.cons.injEq] at e
          rw [← e.1] at hv ⊢
          rw [emit_uncoded (s := s₁) hv]
          exact ⟨s.srcBits.length, s.draws.tail, by simp [hs₁, State.withSnk, State.withDraws, State.withSrcPos]⟩
        | cons p pre => simp at e
      · intro hall
        rw [emit_coded (s := s₁) (portsAnswer_tail h) (hall _ (List.mem_cons_self ..))]
        exact ⟨_, by simp [hs₁, State.withSnk, State.withDraws, State.withSrcPos, State.codeBits]; rfl⟩

/-- The state with everything blank that ENCODE's loop can touch: the streams' movement, the draws and the counter of
free values. -/
def encoderFrame (s : State) : State := { s with srcPos := 0, snkBits := [], draws := [], freeIx := 0 }

/-- What the loop leaves as it was: the sink only grows, the source's position stays within the source, and the rest
of the frame is equal. -/
def EncoderMoved (s t : State) : Prop :=
  (∃ added, t.snkBits = s.snkBits ++ added) ∧ PosKept s t ∧ encoderFrame t = encoderFrame s

theorem encoderMoved_trans {s t u : State} (h : EncoderMoved s t) (h' : EncoderMoved t u) : EncoderMoved s u := by
  obtain ⟨⟨a, ha⟩, hp, h⟩ := h
  obtain ⟨⟨b, hb⟩, hp', h'⟩ := h'
  exact ⟨⟨a ++ b, by rw [hb, ha, List.append_assoc]⟩, hp' ∘ hp, h'.trans h⟩

theorem encoderMoved_source {s t : State} (h : SourceMoved s t) : EncoderMoved s t :=
  ⟨⟨[], by rw [List.append_nil, h.1]; rfl⟩, h.2, (congrArg encoderFrame h.1).trans rfl⟩

theorem encoderMoved_sink {s t : State} (h : SinkGrew s t) : EncoderMoved s t := by
  obtain ⟨⟨a, ha⟩, h⟩ := h
  refine ⟨⟨a, ha⟩, fun hs => ?_, (congrArg encoderFrame h).trans rfl⟩
  rw [h]
  exact hs

theorem encodeLoop_moved (fuel : Nat) (s : State) : (encodeLoop fuel s).Ends (EncoderMoved s) := by
  induction fuel generalizing s with
  | zero =>
    rw [encodeLoop]
    exact ends_mono (emit_grew _ s) fun _ => encoderMoved_sink
  | succ fuel ih =>
    rw [encodeLoop]
    refine readField_ends (fun t => encoderMoved_source) (fun t ht => ?_) fun w t ht => ?_
    · exact ends_mono (emit_grew _ t) fun u hu => encoderMoved_trans (encoderMoved_source ht) (encoderMoved_sink hu)
    · refine ends_andThen (emit_grew _ t)
        (fun u hu => encoderMoved_trans (encoderMoved_source ht) (encoderMoved_sink hu)) fun _ u _ hu => ?_
      exact ends_mono (ih u) fun v hv =>
        encoderMoved_trans (encoderMoved_trans (encoderMoved_source ht) (encoderMoved_sink hu)) hv

theorem emit_sound (v : Sym) (s : State) : (emit v s).Sound := by
  unfold emit
  split
  · trivial
  · exact putBits_sound _ s

theorem encodeLoop_sound (fuel : Nat) (s : State) : (encodeLoop fuel s).Sound := by
  induction fuel generalizing s with
  | zero =>
    rw [encodeLoop]
    exact emit_sound _ s
  | succ fuel ih =>
    rw [encodeLoop]
    exact readField_sound (fun t _ => emit_sound _ t) fun w t _ => sound_andThen (emit_sound _ t) fun _ u _ => ih u

theorem emit_calls {v : Sym} {s : State} (hc : (codeAt s.code v.toNat).len ≠ 0) :
    StopsIn (emit v s) s (calls s (bitWrites (s.codeBits v))) ∧
    Passes (emit v s) s (calls s (bitWrites (s.codeBits v))) fun _ => OnlySink s := by
  rw [emit, if_neg hc]
  exact putBits_calls _ s

/-- ENCODE's calls: a word is read, its code written; after the last word the end of the data is read and the
pseudo-EOF's code written (R150). -/
theorem encodeLoop_calls (pre : List Byte) {post : List Byte} (fuel : Nat) (s : State)
    (hw : wordsOf s.unread = pre ++ post) (hp : ∀ b ∈ pre, (codeAt s.code b.toNat).len ≠ 0)
    (hf : pre.length < fuel) :
    let sent := pre.flatMap fun b => .read 8 :: bitWrites (s.codeBits (b.setWidth 9))
    StopsIn (encodeLoop fuel s) s (calls s (sent ++ [.read 8])) ∧
    (post = [] → (codeAt s.code 256).len ≠ 0 →
      StopsIn (encodeLoop fuel s) s (calls s (sent ++ .read 8 :: bitWrites (s.codeBits 256)))) := by
  induction pre generalizing fuel s with
  | nil =>
    obtain ⟨fuel, rfl⟩ : ∃ f, fuel = f + 1 := ⟨fuel - 1, by simp at hf; omega⟩
    rw [encodeLoop]
    refine ⟨stops_readField (fun _ => stops_nil _ _) fun _ => stops_nil _ _, fun hpost hc => ?_⟩
    subst hpost
    refine stops_readField (fun hn => ?_) fun _ => (emit_calls (v := 256) (s := readOut s) hc).1
    rw [wordsOf_long _ (by simp; omega)] at hw
    cases hw
  | cons b pre ih =>
    obtain ⟨fuel, rfl⟩ : ∃ f, fuel = f + 1 := ⟨fuel - 1, by simp at hf; omega⟩
    have hn : s.srcPos + 8 ≤ s.srcBits.length := by
      by_contra hn
      rw [wordsOf_short _ (by simp; omega)] at hw
      cases hw
    rw [wordsOf_long _ (by simp; omega), List.cons_append, List.cons.injEq] at hw
    have hu : (readOn 8 s).unread = s.unread.drop 8 := by simp [State.unread]
    have key : ∀ cs : List PortCall, (∀ t, OnlySink (readOn 8 s) t → StopsIn (encodeLoop fuel t) t (calls t cs)) →
        StopsIn (encodeLoop (fuel + 1) s) s
          (calls s ((.read 8 :: bitWrites (s.codeBits (b.setWidth 9))) ++ cs)) := by
      intro cs h
      rw [encodeLoop]
      refine stops_readField (fun _ => ?_) fun h => by omega
      rw [hw.1]
      have hb : (codeAt (readOn 8 s).code (b.setWidth 9 : Sym).toNat).len ≠ 0 := by
        have := hp b (List.mem_cons_self ..)
        rwa [BitVec.toNat_setWidth, Nat.mod_eq_of_lt (by omega)]
      have he := emit_calls (s := readOn 8 s) hb
      have := stops_andThen he.1 he.2 (f := fun _ s => encodeLoop fuel s) (cs' := calls (readOn 8 s) cs) fun _ t ht _ => by
        rw [← calls_congr ht.kept.1]
        exact h t ht
      rw [← calls_append] at this
      exact this
    have next : ∀ t, OnlySink (readOn 8 s) t → t.code = s.code ∧ wordsOf t.unread = pre ++ post ∧
        t.codeBits = s.codeBits := by
      intro t ht
      have hc : t.code = s.code := ht.kept.2.1
      refine ⟨hc, ?_, funext fun v => by rw [State.codeBits, State.codeBits, hc]⟩
      rw [← hw.2, ← hu, State.unread, State.unread, ht.kept.2.2.2.2.2.1, ht.kept.2.2.2.2.2.2]
    have ih' : ∀ t, OnlySink (readOn 8 s) t → _ := fun t ht =>
      ih fuel t (next t ht).2.1 (fun c hc => by rw [(next t ht).1]; exact hp c (List.mem_cons_of_mem _ hc))
        (by simp at hf; omega)
    refine ⟨?_, fun hpost hc => ?_⟩
    · rw [List.flatMap_cons, List.append_assoc]
      refine key _ fun t ht => ?_
      have := (ih' t ht).1
      rwa [(next t ht).2.2] at this
    · rw [List.flatMap_cons, List.append_assoc]
      refine key _ fun t ht => ?_
      have := (ih' t ht).2 hpost (by rw [(next t ht).1]; exact hc)
      rwa [(next t ht).2.2] at this

/-- ENCODE's calls (R150), as `CallsOf` lists them. -/
theorem encodeBody_stops {s : State} {cs : List Call} (h : CallsOf .encode s cs) : StopsIn (encodeBody s) s cs := by
  obtain ⟨-, pre, post, hw, hp, h⟩ := h
  have hl := wordsOf_length_le s.unread
  rw [hw] at hl
  have hc := encodeLoop_calls pre (post := post) (s.srcBits.length - s.srcPos + 1) s hw hp (by simp at hl; omega)
  obtain rfl | ⟨h1, h2, rfl⟩ := h
  · exact hc.1
  · exact hc.2 h1 h2

end Sys2Proof.Machine
end

