-- ==== Sys2Proof/Laws/PerInstr.lean ====
section
/-! SUPPORT. Statements made per instruction. -/

namespace Sys2Proof.Laws.EncodingWidth

/-- How many bits a well-formed instruction's encoding has (30_encoding.md R70, R74 to R79, R82, R85). -/
def width : Instr → Nat
  | .compress => 224
  | .decompress => 96
  | .streamMagic => 32
  | .streamHeaderInternal => 1
  | .streamHeaderLeaf _ => 10
  | .streamBodyCode c => c.length
  | .streamBodyPseudoEof c => c.length
  | .streamWord _ => 8
  | .count | .build | .gencodes | .wrmagic | .wrtree | .rewind | .encode | .rdmagic | .rdtree | .decode
  | .clear | .illegal0 | .illegal12 | .illegal13 | .illegal14 | .illegal15 => 32

/-- The encoding has that many bits, at least one and at most 256. -/
def Statement (i : Instr) : Prop :=
  i.wf = true → ∀ magic : Word, (encode magic i).length = width i ∧ 1 ≤ width i ∧ width i ≤ 256

theorem count : Statement .count := by simp [Statement, encode, width, Instr.commandWords]
theorem build : Statement .build := by simp [Statement, encode, width, Instr.commandWords]
theorem gencodes : Statement .gencodes := by simp [Statement, encode, width, Instr.commandWords]
theorem wrmagic : Statement .wrmagic := by simp [Statement, encode, width, Instr.commandWords]
theorem wrtree : Statement .wrtree := by simp [Statement, encode, width, Instr.commandWords]
theorem rewind : Statement .rewind := by simp [Statement, encode, width, Instr.commandWords]
theorem encode : Statement .encode := by simp [Statement, Sys2Proof.encode, width, Instr.commandWords]
theorem rdmagic : Statement .rdmagic := by simp [Statement, Sys2Proof.encode, width, Instr.commandWords]
theorem rdtree : Statement .rdtree := by simp [Statement, Sys2Proof.encode, width, Instr.commandWords]
theorem decode : Statement .decode := by simp [Statement, Sys2Proof.encode, width, Instr.commandWords]
theorem clear : Statement .clear := by simp [Statement, Sys2Proof.encode, width, Instr.commandWords]
theorem illegal0 : Statement .illegal0 := by simp [Statement, Sys2Proof.encode, width, Instr.commandWords]
theorem illegal12 : Statement .illegal12 := by simp [Statement, Sys2Proof.encode, width, Instr.commandWords]
theorem illegal13 : Statement .illegal13 := by simp [Statement, Sys2Proof.encode, width, Instr.commandWords]
theorem illegal14 : Statement .illegal14 := by simp [Statement, Sys2Proof.encode, width, Instr.commandWords]
theorem illegal15 : Statement .illegal15 := by simp [Statement, Sys2Proof.encode, width, Instr.commandWords]
theorem compress : Statement .compress := by simp [Statement, Sys2Proof.encode, width, Instr.commandWords]
theorem decompress : Statement .decompress := by simp [Statement, Sys2Proof.encode, width, Instr.commandWords]
theorem streamMagic : Statement .streamMagic := by simp [Statement, Sys2Proof.encode, width]
theorem streamHeaderInternal : Statement .streamHeaderInternal := by simp [Statement, Sys2Proof.encode, width]
theorem streamHeaderLeaf (v : Sym) : Statement (.streamHeaderLeaf v) := by simp [Statement, Sys2Proof.encode, width]

theorem streamBodyCode (c : List Bool) : Statement (.streamBodyCode c) := by
  simp +contextual [Statement, Sys2Proof.encode, width, Instr.wf]

theorem streamBodyPseudoEof (c : List Bool) : Statement (.streamBodyPseudoEof c) := by
  simp +contextual [Statement, Sys2Proof.encode, width, Instr.wf]

theorem streamWord (w : Byte) : Statement (.streamWord w) := by simp [Statement, Sys2Proof.encode, width]

end Sys2Proof.Laws.EncodingWidth
end

