-- ==== Sys2Proof/Tests/Slice0.lean ====
section
/-! SUPPORT. The model's own tests: ill-formed terms, words written out from the spec's tables, single steps with the
results 95_test_vectors.md gives, and for every statement with hypotheses a witness that meets them. -/

namespace Sys2Proof.Tests

open Sys2Proof Sys2Proof.Machine

-- One test after another: checked side by side they would take a thread each.
set_option Elab.async false

/-! ## Small states -/

/-- The reset state of an instance with the example magic number (93_implementation_defined.md G1). -/
def base : State := { State.reset with magicTree := 0xFACE8201, ioCanFail := false }

/-- A source that holds these bytes. -/
def reading (bytes : List Byte) : State := { base with srcBits := bitsOfBytes bytes }

/-- The three-leaf tree of V-T1. -/
def threeLeaves : Tree := .node (.leaf 65) (.node (.leaf 66) (.leaf 256))

/-- The records RDTREE gives it (V-T1). -/
def threeNodes : Vector Node 513 :=
  nodeSet (nodeSet (nodeSet (nodeSet (nodeSet base.node 0 (leafNode 65 0)) 1 (leafNode 66 0)) 2 (leafNode 256 0)) 3
    (internalNode 0 1 2)) 4 (internalNode 0 0 3)

/-- After RDTREE of V-T1, the source empty. -/
def treed : State := { base with node := threeNodes, root := 4, nnodes := 5, treeValid := true }

/-- The codes of V-G1. -/
def threeCodes : Vector Code 257 :=
  codeSet (codeSet (codeSet (Vector.replicate 257 ⟨0, 0⟩) 65 ⟨1, 0⟩) 66 ⟨2, 2⟩) 256 ⟨2, 3⟩

/-- After RDTREE of V-T1 and GENCODES (V-G1). -/
def coded : State := { treed with code := threeCodes, codesValid := true }

/-- `p` of the next state; `false` of a stop. -/
def nextIs (o : Host.Outcome State Fault Refusal) (p : State → Bool) : Bool :=
  match o with
  | .next t => p t
  | .fault _ => false
  | .refused _ => false

/-! ## Well-formedness: each check refuses an ill-formed term (R77, R79) -/

theorem test_wf_leaf_257 : (Instr.streamHeaderLeaf 257).wf = false := by decide
theorem test_wf_leaf_256 : (Instr.streamHeaderLeaf 256).wf = true := by decide
theorem test_wf_code_empty : (Instr.streamBodyCode []).wf = false := by decide
theorem test_wf_code_257 : (Instr.streamBodyCode (List.replicate 257 true)).wf = false := by decide +kernel
theorem test_wf_code_256 : (Instr.streamBodyCode (List.replicate 256 true)).wf = true := by decide +kernel
theorem test_wf_eof_empty : (Instr.streamBodyPseudoEof []).wf = false := by decide
theorem test_wf_eof_257 : (Instr.streamBodyPseudoEof (List.replicate 257 false)).wf = false := by decide +kernel

/-! ## Decoding: words and bits written out from 30_encoding.md R71, R72, R74 to R79, R82, R85 -/

/-- `IGN` (bits 31:4) given as 28 bits, then `OP` (bits 3:0), most significant bit first (R70). -/
def word (ign : Bool) (b3 b2 b1 b0 : Bool) : List Bool := List.replicate 28 ign ++ [b3, b2, b1, b0]

/-- The decoder reads this command and nothing is left. -/
def presents (bits : List Bool) (i : Instr) : Bool :=
  match decode .command 0 bits with
  | .ok r => r == (i, [])
  | .error _ => false

theorem test_decode_commands :
    presents (word false false false false true) .count = true ∧
    presents (word false false false true false) .build = true ∧
    presents (word false false false true true) .gencodes = true ∧
    presents (word false false true false false) .wrmagic = true ∧
    presents (word false false true false true) .wrtree = true ∧
    presents (word false false true true false) .rewind = true ∧
    presents (word false false true true true) .encode = true ∧
    presents (word false true false false false) .rdmagic = true ∧
    presents (word false true false false true) .rdtree = true ∧
    presents (word false true false true false) .decode = true ∧
    presents (word false true false true true) .clear = true := by decide +kernel

/-- The ignored bits may be anything (R70): the words of V-X3 and its like. -/
theorem test_decode_ignored_bits :
    presents (word true false false true false) .build = true ∧
    presents (word true true false true true) .clear = true := by decide +kernel

theorem test_decode_reserved_opcodes :
    presents (word false false false false false) .illegal0 = true ∧
    presents (word false true true false false) .illegal12 = true ∧
    presents (word false true true false true) .illegal13 = true ∧
    presents (word false true true true false) .illegal14 = true ∧
    presents (word false true true true true) .illegal15 = true := by decide +kernel

theorem test_decode_table_words :
    decodeTableWord 32 0x1 = some .count ∧ decodeTableWord 32 0xB = some .clear ∧
    decodeTableWord 32 0xD = some .illegal13 ∧ decodeTableWord 0 0x1 = none ∧ decodeTableWord 33 0x1 = none := by
  decide +kernel

/-- The magic number `FA CE 82 01`, bit by bit. -/
theorem test_decode_magic :
    decode .magic 0xFACE8201 [true, true, true, true, true, false, true, false, true, true, false, false, true, true,
      true, false, true, false, false, false, false, false, true, false, false, false, false, false, false, false,
      false, true] = .ok (.streamMagic, []) := by decide +kernel

theorem test_decode_header_internal : decode .header 0 [false, true] = .ok (.streamHeaderInternal, [true]) := by
  decide +kernel

/-- `"1 001000001"`: the leaf of symbol 65 (V-T1). -/
theorem test_decode_header_leaf :
    decode .header 0 [true, false, false, true, false, false, false, false, false, true] =
      .ok (.streamHeaderLeaf 65, []) := by decide +kernel

/-- `"1 100000001"`: leaf value 257 is reserved (V-T5). -/
theorem test_decode_header_reserved :
    decode .header 0 [true, true, false, false, false, false, false, false, false, true] = .error .reservedSymbol := by
  decide +kernel

/-- A leaf whose symbol has 8 of its 9 bits (V-T5). -/
theorem test_decode_header_short :
    decode .header 0 [true, false, false, true, false, false, false, false, false] = .error .tooShort := by
  decide +kernel

/-- Under the codes of V-G1, `"10"` is symbol 66 and `"11"` the pseudo-EOF. -/
theorem test_decode_body :
    decode (.body threeLeaves.paths) 0 [true, false, true] = .ok (.streamBodyCode [true, false], [true]) ∧
    decode (.body threeLeaves.paths) 0 [true, true] = .ok (.streamBodyPseudoEof [true, true], []) := by decide +kernel

theorem test_decode_body_no_code : decode (.body threeLeaves.paths) 0 [true] = .error .noCode := by decide +kernel

/-- The word 0x41, most significant bit first. -/
theorem test_decode_word :
    decode .word 0 [false, true, false, false, false, false, false, true] = .ok (.streamWord 0x41, []) := by
  decide +kernel

/-- The two expansions of R85. -/
theorem test_encode_sequences :
    Instr.compress.commandWords = [1, 2, 3, 4, 5, 6, 7] ∧ Instr.decompress.commandWords = [8, 9, 10] := by decide

/-! ## Single steps: the results of 95_test_vectors.md -/

/-- V-C2. -/
theorem test_count : nextIs (exec .count (reading [0x41, 0x41, 0x41, 0x42]))
    (fun t => ctAt t.ct 0x41 == 3 && ctAt t.ct 0x42 == 1 && ctAt t.ct 256 == 0 && t.srcPos == 32 &&
      statusWord t == 0x04) = true := by decide +kernel

/-- V-C3: the stray bits count for nothing. -/
theorem test_count_stray_bits : nextIs (exec .count
    { base with srcBits := [false, true, false, false, false, false, false, true, true, false, true, false] })
    (fun t => ctAt t.ct 0x41 == 1 && t.srcPos == 12 && statusWord t == 0x04) = true := by decide +kernel

/-- V-B2, the last three merges, from the four nodes then left. -/
theorem test_build_last_merges :
    let m := mergeLoop 9 { node := base.node, live := insertLive (1, 256) [(0, 509), (1, 66), (3, 65)], next := 510 }
    m.node[510]? = some ⟨false, 0x1FF, 1, 509, 66⟩ ∧ m.node[511]? = some ⟨false, 0x1FF, 2, 256, 510⟩ ∧
      m.node[512]? = some ⟨false, 0x1FF, 5, 511, 65⟩ ∧ m.live = [(5, 512)] ∧ m.next = 513 := by decide +kernel

/-- V-B3, a tie between leaves and an internal node. -/
theorem test_build_tie :
    let m := mergeLoop 9 { node := base.node, live := insertLive (1, 0) [(0, 509), (1, 1), (1, 256)], next := 510 }
    m.node[510]? = some ⟨false, 0x1FF, 1, 509, 0⟩ ∧ m.node[511]? = some ⟨false, 0x1FF, 2, 1, 256⟩ ∧
      m.node[512]? = some ⟨false, 0x1FF, 3, 510, 511⟩ := by decide +kernel

/-- V-G1. -/
theorem test_gencodes : nextIs (exec .gencodes treed)
    (fun t => codeAt t.code 65 == ⟨1, 0⟩ && codeAt t.code 66 == ⟨2, 2⟩ && codeAt t.code 256 == ⟨2, 3⟩ &&
      codeAt t.code 0 == ⟨0, 0⟩ && statusWord t == 0x1C) = true := by decide +kernel

/-- V-G5. -/
theorem test_gencodes_without_tree : nextIs (exec .gencodes base)
    (fun t => errWord t == 0x307 && statusWord t == 0x02) = true := by decide +kernel

/-- V-T3. -/
theorem test_wrmagic : nextIs (exec .wrmagic base)
    (fun t => t.snkBits == bitsOfBytes [0xFA, 0xCE, 0x82, 0x01]) = true := by decide +kernel

/-- V-T2: the 32 bits of V-T1. -/
theorem test_wrtree : nextIs (exec .wrtree treed)
    (fun t => t.snkBits == bitsOfBytes [0x48, 0x29, 0x0B, 0x00] && statusWord t == 0x0C) = true := by decide +kernel

/-- V-X7. -/
theorem test_rewind : nextIs (exec .rewind { reading [0x41] with srcPos := 8 })
    (fun t => t.srcPos == 0 && statusWord t == 0x04) = true := by decide +kernel

/-- V-X8. -/
theorem test_rewind_fails : nextIs (exec .rewind { base with ioCanFail := true, draws := [.ioErr] })
    (fun t => errWord t == 0x034 && statusWord t == 0x02) = true := by decide +kernel

/-- V-E1: the words `41 42 42 41`. -/
theorem test_encode : nextIs (exec .encode { coded with srcBits := bitsOfBytes [0x41, 0x42, 0x42, 0x41] })
    (fun t => t.snkBits == [false, true, false, true, false, false, true, true] && statusWord t == 0x1C) = true := by
  decide +kernel

/-- V-E3: no code for the third word. -/
theorem test_encode_no_code : nextIs (exec .encode { coded with srcBits := bitsOfBytes [0x41, 0x42, 0x43] })
    (fun t => t.snkBits == [false, true, false] && errWord t == 0x4306 && statusWord t == 0x1A) = true := by
  decide +kernel

/-- V-T4: the magic number, and 31 bits of it. -/
theorem test_rdmagic : nextIs (exec .rdmagic (reading [0xFA, 0xCE, 0x82, 0x01]))
    (fun t => t.srcPos == 32 && statusWord t == 0x04) = true ∧
    nextIs (exec .rdmagic { base with srcBits := (binBits base.magicTree).take 31 })
      (fun t => t.srcPos == 31 && errWord t == 0x021) = true := by decide +kernel

/-- V-T4: the magic number with its last bit changed. -/
theorem test_rdmagic_mismatch : nextIs (exec .rdmagic (reading [0xFA, 0xCE, 0x82, 0x00]))
    (fun t => t.srcPos == 32 && errWord t == 0x011) = true := by decide +kernel

/-- V-T1. -/
theorem test_rdtree : nextIs (exec .rdtree (reading [0x48, 0x29, 0x0B, 0x00]))
    (fun t => t.srcPos == 32 && t.root == 4 && t.nnodes == 5 && nodeAt t 0 == some ⟨true, 65, 0, 0x3FF, 0x3FF⟩ &&
      nodeAt t 3 == some ⟨false, 0x1FF, 0, 1, 2⟩ && nodeAt t 4 == some ⟨false, 0x1FF, 0, 0, 3⟩ &&
      statusWord t == 0x0C) = true := by decide +kernel

/-- V-T5: the right subtree is missing. -/
theorem test_rdtree_cut : nextIs (exec .rdtree
    { base with srcBits := [false, true, false, false, true, false, false, false, false, false, true] })
    (fun t => errWord t == 0x012 && t.nnodes == 1 && t.srcPos == 11 && t.root == 0x3FF) = true := by decide +kernel

/-- V-D1. -/
theorem test_decode : nextIs (exec .decode
    { treed with srcBits := [false, true, false, true, false, false, true, true] })
    (fun t => t.snkBits == bitsOfBytes [0x41, 0x42, 0x42, 0x41] && t.cur == 2 && statusWord t == 0x0C) = true := by
  decide +kernel

/-- V-D4: the body ends inside a code. -/
theorem test_decode_cut : nextIs (exec .decode { treed with srcBits := [false, true, false, true] })
    (fun t => t.snkBits == bitsOfBytes [0x41, 0x42] && errWord t == 0x032 && statusWord t == 0x0A && t.cur == 3) =
      true := by decide +kernel

/-- V-X5, V-X6. -/
theorem test_clear : nextIs (exec .clear { coded with seq := .error, err := ⟨7, 0, 10⟩ })
    (fun t => statusWord t == 0x04 && errWord t == 0 && t.root == 0x3FF && t.cur == 0x3FF && t.nnodes == 0) = true := by
  decide +kernel

/-- V-X1, V-X2 and the other reserved opcodes. -/
theorem test_illegal : nextIs (exec .illegal0 base) (fun t => errWord t == 0x008 && statusWord t == 0x02) = true ∧
    nextIs (exec .illegal12 base) (fun t => errWord t == 0xC08) = true ∧
    nextIs (exec .illegal13 base) (fun t => errWord t == 0xD08) = true ∧
    nextIs (exec .illegal14 base) (fun t => errWord t == 0xE08) = true ∧
    nextIs (exec .illegal15 base) (fun t => errWord t == 0xF08) = true := by decide +kernel

/-- R178, R195: a COMPRESS whose first read fails does nothing more. -/
theorem test_compress_fails : nextIs (exec .compress { base with ioCanFail := true, draws := [.ioErr] })
    (fun t => errWord t == 0x014 && t.nnodes == 0 && t.snkBits == []) = true := by decide +kernel

/-- R179 on the magic number, the header of V-T1 and the body of V-D1. -/
theorem test_decompress : nextIs (exec .decompress (reading [0xFA, 0xCE, 0x82, 0x01, 0x48, 0x29, 0x0B, 0x00, 0x53]))
    (fun t => t.snkBits == bitsOfBytes [0x41, 0x42, 0x42, 0x41] && statusWord t == 0x0C && t.srcPos == 72) = true := by
  decide +kernel

/-- P5 (scenario S4): another magic number, and the rest is ignored. -/
theorem test_decompress_mismatch : nextIs (exec .decompress (reading [0xFA, 0xCE, 0x82, 0x00, 0x48]))
    (fun t => errWord t == 0x011 && t.snkBits == [] && t.nnodes == 0 && t.srcPos == 32) = true := by decide +kernel

/-- The bits of R74, R75, R76, R79, R82. -/
theorem test_elements :
    nextIs (exec .streamMagic base) (fun t => t.snkBits == bitsOfBytes [0xFA, 0xCE, 0x82, 0x01]) = true ∧
    nextIs (exec .streamHeaderInternal base) (fun t => t.snkBits == [false]) = true ∧
    nextIs (exec (.streamHeaderLeaf 256) base)
      (fun t => t.snkBits == [true, true, false, false, false, false, false, false, false, false]) = true ∧
    nextIs (exec (.streamBodyCode [true, false]) base) (fun t => t.snkBits == [true, false]) = true ∧
    nextIs (exec (.streamBodyPseudoEof [true, true]) base) (fun t => t.snkBits == [true, true]) = true ∧
    nextIs (exec (.streamWord 0x41) base) (fun t => t.snkBits == bitsOfBytes [0x41]) = true := by decide +kernel

/-- V-X4: in `ERROR` a command is ignored. -/
theorem test_error_ignores : nextIs (exec .build { base with seq := .error, err := ⟨7, 0, 10⟩ })
    (fun t => errWord t == 0xA07 && statusWord t == 0x02 && t.nnodes == 0) = true := by decide +kernel

/-- V-X9, V-X10: a host write of a count, and of a record. -/
theorem test_window_write :
    nextIs (step { base with tsel := 0x0104, host := [.write 8 7] }) (fun t => ctAt t.ct 65 == 7) = true ∧
    nextIs (step { base with tsel := 0x0105, host := [.write 8 7] })
      (fun t => ctAt t.ct 65 == 0 && t.node[65]? == base.node[65]?) = true := by decide +kernel

/-- V-T1, V-G1 through the window: word 2 of `NODE[3]` and word 1 of `CODE[66]`. -/
theorem test_window_read :
    nextIs (step { treed with tsel := 0x200D, host := [.read 8] }) (fun t => t.rdata == 0x1FF00402) = true ∧
    nextIs (step { coded with tsel := 0x110A, host := [.read 8] }) (fun t => t.rdata == 2) = true := by decide +kernel

/-- V-X12. -/
theorem test_parameters :
    nextIs (step { base with host := [.read 6] }) (fun t => t.rdata == 0xFACE8201) = true ∧
    nextIs (step { base with host := [.read 9] }) (fun t => t.rdata == 0x02012920) = true ∧
    nextIs (step { base with host := [.read 10] }) (fun t => t.rdata == 0x02260101) = true := by decide +kernel

/-- A reset while a write is in flight leaves the engine as R47 says. -/
theorem test_reset : nextIs
    (step { coded with seq := .busy, inFlight := some (.write [true]), host := [.reset], tsel := 5 })
    (fun t => statusWord t == 0 && errWord t == 0 && t.root == 0x3FF && t.nnodes == 0 && t.tsel == 0 &&
      t.inFlight == none) = true := by decide +kernel

/-- The placed word runs as the first instruction after reset. -/
theorem test_first_word : nextIs (step (State.reset.withFetchWord 32 0xD)) (fun t => errWord t == 0xD08) = true := by
  decide +kernel

/-! ## Witnesses: states and operands that meet a statement's hypotheses together -/

theorem ready_of {s : State} (h : s.seq = .idle) (hd : s.draws = []) : s.Ready :=
  ⟨h, fun d hm => by rw [hd] at hm; cases hm⟩

theorem three_block : Block threeNodes 0 threeLeaves := by
  refine ⟨⟨?_, ?_⟩, ⟨⟨?_, ?_⟩, ⟨?_, ?_⟩, ?_⟩, ?_⟩ <;> decide +kernel

theorem treed_inv : TreeInv treed :=
  treeInv_of_block three_block rfl (by decide) (by decide) rfl

theorem treed_tree : treed.tree = some threeLeaves := by decide +kernel

theorem coded_treeInv : TreeInv coded := treeInv_congr (s := treed) rfl rfl rfl treed_inv

theorem coded_tree : coded.tree = some threeLeaves := by decide +kernel

theorem threeCodes_eq : threeCodes = writePaths [] (Vector.replicate 257 ⟨0, 0⟩) threeLeaves.paths := by
  have h : ∀ c : Vector Code 257, writePaths [] c threeLeaves.paths =
      codeSet (codeSet (codeSet c 65 (codeOfPath [false])) 66 (codeOfPath [true, false])) 256
        (codeOfPath [true, true]) := fun _ => rfl
  rw [h, threeCodes]
  congr 1

theorem coded_codesInv : CodesInv coded := by
  have hs : ∀ p ∈ threeLeaves.paths, p.2 ≤ pseudoEof := by decide
  obtain ⟨code, hw, hc⟩ := walk_codeOf coded_tree hs
  rw [walk_tree [] _ coded_tree hs] at hw
  obtain rfl := Except.ok.inj hw
  refine ⟨rfl, _, coded_tree, fun v _ => ?_⟩
  rw [← threeCodes_eq] at hc
  exact hc v

theorem coded_inv : Inv coded := by
  refine ⟨by decide, fun _ => rfl, ?_, ?_, ?_, by decide, ?_, .inr rfl, fun _ => coded_treeInv,
    fun _ => coded_codesInv⟩
  · intro h; cases h
  · intro h; exact absurd rfl h
  · exact ⟨fun h => (by cases h), fun h => (by cases h)⟩
  · intro h; cases h

theorem count_small (bytes : List Byte) (h : bytes.length < 2 ^ 32) (b : Byte) : bytes.count b < 2 ^ 32 :=
  Nat.lt_of_le_of_lt List.count_le_length h

/-- `CommandWordPresentsItsOpcode`. -/
theorem witness_command_word : isCommand .decode = true ∧ Instr.decode.commandWords = [10] := by decide

/-- `DecodeInvertsEncode`, at every place. -/
theorem witness_decode_inverts :
    (Instr.illegal15.wf = true ∧ StandsAt .illegal15 .command) ∧ StandsAt .streamMagic .magic ∧
    ((Instr.streamHeaderLeaf 256).wf = true ∧ StandsAt (.streamHeaderLeaf 256) .header) ∧
    StandsAt .streamHeaderInternal .header ∧
    ((Instr.streamBodyCode [true, false]).wf = true ∧
      StandsAt (.streamBodyCode [true, false]) (.body threeLeaves.paths)) ∧
    ((Instr.streamBodyPseudoEof [true, true]).wf = true ∧
      StandsAt (.streamBodyPseudoEof [true, true]) (.body threeLeaves.paths)) ∧ StandsAt (.streamWord 255) .word :=
  ⟨⟨rfl, rfl, rfl⟩, rfl, ⟨by decide, rfl⟩, rfl,
    ⟨by decide, _, 66, rfl, paths_prefixFree _, by decide, by decide⟩,
    ⟨by decide, _, rfl, paths_prefixFree _, by decide⟩, rfl⟩

/-- `ReservedStreamFieldsAreRejected`, the reserved values' two ends. -/
theorem witness_reserved_fields :
    256 < (257 : Sym).toNat ∧ 256 < (511 : Sym).toNat ∧ (0xFACE8200 : Word) ≠ 0xFACE8201 := by decide

/-- `StepRunsWhatTheHostPresents`. -/
theorem witness_step_runs :
    ({ base with host := [.write 0 5] } : State).host = [.write 0 5] ∧
    ({ base with host := [.line .compress] } : State).host = [.line .compress] ∧
    decodeTableWord 32 5 = some .wrtree ∧ base.host = [] := ⟨rfl, rfl, by decide, rfl⟩

/-- `ResetLeavesTheResetValues`, `ResetSettlesTheCallInFlight`: with and without a call in flight. -/
theorem witness_reset :
    (∃ s : State, s.host = [.reset] ∧ s.inFlight = none) ∧
    (∃ s : State, s.host = [.reset] ∧ s.seq = .busy ∧ s.inFlight = some (.read 8)) ∧
    (∃ s : State, s.host = [.reset] ∧ s.seq = .busy ∧ s.inFlight = some .rewind) ∧
    ∃ s : State, s.host = [.reset] ∧ s.seq = .busy ∧ s.inFlight = some (.write [true]) :=
  ⟨⟨{ base with host := [.reset] }, rfl, rfl⟩,
    ⟨{ base with host := [.reset], seq := .busy, inFlight := some (.read 8) }, rfl, rfl, rfl⟩,
    ⟨{ base with host := [.reset], seq := .busy, inFlight := some .rewind }, rfl, rfl, rfl⟩,
    ⟨{ base with host := [.reset], seq := .busy, inFlight := some (.write [true]) }, rfl, rfl, rfl⟩⟩

/-- `CsrReadsShowTheRegisters`, for any register number, `BUSY` or not. -/
theorem witness_csr_reads (num : BitVec 4) :
    ({ coded with host := [.read num] } : State).host = [.read num] ∧
    ({ coded with host := [.read num] } : State).seq ≠ .busy ∧
    ({ coded with host := [.read num], seq := .busy } : State).host = [.read num] := ⟨rfl, fun h => (by cases h), rfl⟩

/-- `TableWindowShowsTheSelectedWord`: for each clause a selection at the end of its range. -/
theorem witness_window :
    ∃ s : State, s.host = [.read 8] ∧ s.seq ≠ .busy ∧ s.treeValid = true ∧ s.codesValid = true ∧
      (∃ n, nodeAt s 4 = some n) ∧ s.tsel = (2 : BitVec 4) ++ (4 : BitVec 10) ++ (1 : BitVec 2) ∧
      ({ s with tsel := 0x0400 } : State).tsel = (0 : BitVec 4) ++ (256 : BitVec 10) ++ (0 : BitVec 2) ∧
      ({ s with tsel := 0x8402 } : State).tsel = (8 : BitVec 4) ++ (256 : BitVec 10) ++ (2 : BitVec 2) ∧
      ({ s with tsel := 0x0404 } : State).tsel = (0 : BitVec 4) ++ (257 : BitVec 10) ++ (0 : BitVec 2) ∧
      ({ s with tsel := 0x3801 } : State).tsel = (3 : BitVec 4) ++ (512 : BitVec 10) ++ (1 : BitVec 2) ∧
      ({ s with tsel := 0x9402 } : State).tsel = (9 : BitVec 4) ++ (256 : BitVec 10) ++ (2 : BitVec 2) ∧
      ({ s with tsel := 0x0003 } : State).tsel = (0 : BitVec 4) ++ (0 : BitVec 10) ++ (3 : BitVec 2) :=
  ⟨{ coded with host := [.read 8], tsel := 0x2011 }, rfl, by decide, rfl, rfl, ⟨internalNode 0 0 3, by decide +kernel⟩,
    by decide, by decide, by decide, by decide, by decide, by decide, by decide⟩

/-- `CsrWritesReachTselAndCountsOnly`: a write of `TSEL`, of `CT[256]`, of a read-only register. -/
theorem witness_csr_writes :
    ({ base with host := [.write 7 9] } : State).host = [.write 7 9] ∧
    ({ base with host := [.write 8 9], tsel := 0x0400 } : State).host = [.write 8 9] ∧
    ({ base with host := [.write 15 9] } : State).host = [.write 15 9] ∧ (7 : BitVec 4) ≠ 0 ∧ (8 : BitVec 4) ≠ 0 ∧
    (15 : BitVec 4) ≠ 0 := ⟨rfl, rfl, rfl, by decide, by decide, by decide⟩

/-- `ErrorIgnoresAllButClear`, `BusyIgnoresCommandsAndTableWrites`. -/
theorem witness_ignored :
    ({ base with seq := .error } : State).seq = .error ∧ Instr.count ≠ .clear ∧
    ({ base with seq := .busy, host := [.write 8 7] } : State).seq = .busy ∧
    ({ base with seq := .busy, host := [.write 8 7] } : State).host = [.write 8 7] := ⟨rfl, by decide, rfl, rfl⟩

/-- `ReservedOpcodesRaiseIllegalCommand`, `FailedPreconditionsRaiseSequenceError`, `BuildMakesAllLeavesAndMerges`,
`BuildConservesWeight`, `EverySymbolHasACodeAfterBuild`. -/
theorem witness_idle : base.seq = .idle ∧ base.treeValid = false ∧ base.codesValid = false := ⟨rfl, rfl, rfl⟩

/-- `ClearDiscardsTheCall`, in each mode. -/
theorem witness_clear : coded.seq ≠ .busy ∧ ({ coded with seq := .error } : State).seq ≠ .busy ∧
    ({ coded with seq := .busy } : State).seq = .busy := by decide

/-- `OnlyClearAndResetLeaveError`, for each way a step can go. -/
theorem witness_error_left :
    (∃ s t : State, s.seq = .error ∧ step s = .next t ∧ s.host = []) ∧
    (∃ s t : State, s.seq = .error ∧ step s = .next t ∧ s.host = [.reset]) ∧
    ∃ s t : State, s.seq = .error ∧ step s = .next t ∧ s.host = [.write 0 11] ∧ decodeCommand 11 = .clear :=
  ⟨⟨{ base with seq := .error }, _, rfl, rfl, rfl⟩,
    ⟨{ base with seq := .error, host := [.reset] }, _, rfl, rfl, rfl⟩,
    ⟨{ base with seq := .error, host := [.write 0 11] }, _, rfl, rfl, rfl, by decide⟩⟩

/-- A source that holds these bits. -/
def bitsSource (bits : List Bool) : State := { base with srcBits := bits }

theorem bitsSource_unread (bits : List Bool) : (bitsSource bits).unread = bits := rfl

/-- The tree of V-T1 over a source that holds these bits. -/
def treedOn (bits : List Bool) : State := { treed with srcBits := bits }

theorem treedOn_inv (bits : List Bool) : TreeInv (treedOn bits) :=
  treeInv_congr (s := treed) (t := treedOn bits) rfl rfl rfl treed_inv

theorem treedOn_tree (bits : List Bool) : (treedOn bits).tree = some threeLeaves := by
  rw [tree_congr (s := treed) (t := treedOn bits) rfl rfl rfl, treed_tree]

theorem treedOn_unread (bits : List Bool) : (treedOn bits).unread = bits := rfl

/-- The ports of this state's instance may fail and give these answers. -/
def ports (ds : List Draw) (s : State) : State := { s with ioCanFail := true, draws := ds }

/-- `FailingPortsRaiseIoError`, `UnansweredPortsKeepTheEngineBusy`: for each form of `CallsOf` a call with others before
it where there are any, whatever the answers; the answers the two statements speak of are among them. -/
theorem witness_port_calls (ds : List Draw) :
    (CallsOf .count (ports ds (reading [0x41, 0x42])) [(.read 8, nil), (.read 8, nil), (.read 8, nil)]) ∧
    (CallsOf .wrmagic (ports ds base) [(.write (binBits base.magicTree), nil)]) ∧
    (∃ cs, CallsOf .wrtree (ports ds (treedOn [])) cs ∧ cs[2]? = some (.write (binBits (65 : Sym)), nil)) ∧
    (CallsOf .rewind (ports ds base) [(.rewind, nil)]) ∧
    (CallsOf .encode (ports ds { coded with srcBits := bitsOfBytes [0x41] })
      [(.read 8, nil), (.write [false], nil), (.read 8, nil)]) ∧
    (CallsOf .encode (ports ds { coded with srcBits := bitsOfBytes [0x41] })
      [(.read 8, nil), (.write [false], nil), (.read 8, nil), (.write [true], nil), (.write [true], nil)]) ∧
    (CallsOf .rdmagic (ports ds base) [(.read 32, nil)]) ∧
    (CallsOf .rdtree (ports ds (bitsSource [false])) [(.read 1, nil), (.read 1, nil)]) ∧
    (CallsOf .rdtree (ports ds (bitsSource [false, true])) [(.read 1, nil), (.read 1, nil), (.read 9, nil)]) ∧
    (CallsOf .decode (ports ds (treedOn [false, true]))
      [(.read 1, 4), (.write (binBits (65 : Byte)), 0), (.read 1, 4), (.read 1, 3)]) ∧
    (CallsOf (.streamHeaderLeaf 256) (ports ds base) [(.write [true], nil), (.write (binBits (256 : Sym)), nil)]) ∧
    CallsOf (.streamBodyCode [true, false]) (ports ds base) [(.write [true], nil), (.write [false], nil)] := by
  have small : ∀ b : Byte, [(0x41 : Byte), 0x42].count b < 2 ^ 32 := count_small _ (by decide)
  have words : wordsOf (reading [0x41, 0x42]).unread = [0x41, 0x42] ++ [] := by decide +kernel
  have word : wordsOf (bitsOfBytes [(0x41 : Byte)]) = [0x41] ++ [] := by decide +kernel
  have enc : ∀ b ∈ [(0x41 : Byte)], (codeAt coded.code b.toNat).len ≠ 0 := by decide +kernel
  have eof : (codeAt coded.code 256).len ≠ 0 := by decide +kernel
  have sent : coded.codeBits 0x41 = [false] ∧ coded.codeBits 256 = [true, true] := by decide +kernel
  have before : threeLeaves.SymbolsBefore 1 := fun j hj p v h => by obtain rfl := Nat.lt_one_iff.mp hj; cases h
  have walk : descend treed 4 [] = 4 ∧ descend treed 4 [false] = 0 ∧ descend treed 4 [true] = 3 := by decide +kernel
  have inv : ∀ bits, TreeInv (ports ds (treedOn bits)) := fun bits =>
    treeInv_congr (s := treed) (t := ports ds (treedOn bits)) rfl rfl rfl treed_inv
  have tree : ∀ bits, (ports ds (treedOn bits)).tree = some threeLeaves := fun bits =>
    (tree_congr (s := treed) (t := ports ds (treedOn bits)) rfl rfl rfl).trans treed_tree
  have down : ∀ bits q, descend (ports ds (treedOn bits)) 4 q = descend treed 4 q := fun bits q =>
    descend_congr (s := treed) (t := ports ds (treedOn bits)) rfl rfl _ _
  refine ⟨⟨[0x41, 0x42], [], words, small, rfl⟩, rfl, ⟨_, ⟨rfl, inv [], threeLeaves, tree [], rfl⟩, rfl⟩, rfl,
    ⟨rfl, [0x41], [], word, enc, .inl ?_⟩, ⟨rfl, [0x41], [], word, enc, .inr ⟨rfl, eof, ?_⟩⟩, rfl,
    ⟨threeLeaves, 1, by decide, by decide, before, .inl ⟨⟨[], rfl⟩, rfl⟩⟩,
    ⟨threeLeaves, 1, by decide, by decide, before, .inr ⟨⟨[], rfl⟩, rfl⟩⟩,
    ⟨rfl, inv _, threeLeaves, [([false], 65)], [true], [true], 256, tree _, by decide, by decide, by decide,
      ⟨[], rfl⟩, ?_⟩, ⟨by decide, rfl⟩, rfl⟩
  · show _ = calls _ ([(0x41 : Byte)].flatMap (fun b => .read 8 :: bitWrites (coded.codeBits (b.setWidth 9))) ++ _)
    rw [List.flatMap_cons, show ((0x41 : Byte).setWidth 9) = (0x41 : Sym) from rfl, sent.1]
    rfl
  · show _ = calls _ ([(0x41 : Byte)].flatMap (fun b => .read 8 :: bitWrites (coded.codeBits (b.setWidth 9))) ++
      .read 8 :: bitWrites (coded.codeBits 256))
    rw [List.flatMap_cons, show ((0x41 : Byte).setWidth 9) = (0x41 : Sym) from rfl, sent.1, sent.2]
    rfl
  · have w : descend (ports ds (treedOn [false, true])) 4 [] = 4 ∧
        descend (ports ds (treedOn [false, true])) 4 [false] = 0 ∧
        descend (ports ds (treedOn [false, true])) 4 [true] = 3 := by simpa only [down] using walk
    simp only [wordCalls, pathReads, List.flatMap_cons, List.flatMap_nil, List.length_cons, List.length_nil,
      List.range_succ, List.range_zero, List.nil_append, List.map_cons, List.map_nil, List.take_zero,
      show (ports ds (treedOn [false, true])).root = 4 from rfl, w, List.cons_append, List.append_nil,
      show ((65 : Sym).setWidth 8 : Byte) = 65 from rfl]

/-- `FailingPortsRaiseIoError`: the mode and the answers, at the second call of COUNT, and a run that uses the draw up. -/
theorem witness_failing_ports :
    (∃ s : State, s.seq = .idle ∧ s.ioCanFail = true ∧ s.draws = List.replicate 1 .answer ++ .ioErr :: [] ∧
      ∃ cs, CallsOf .count s cs ∧ cs[1]? = some (.read 8, nil)) ∧
    ∃ s t : State, s.seq = .idle ∧ s.ioCanFail = true ∧ s.draws = [] ++ .ioErr :: [] ∧ exec .rewind s = .next t ∧
      t.draws.length ≤ ([] : List Draw).length :=
  ⟨⟨ports [.answer, .ioErr] (reading [0x41, 0x42]), rfl, rfl, rfl, _, (witness_port_calls _).1, rfl⟩,
    ⟨ports [.ioErr] base, _, rfl, rfl, rfl, rfl, Nat.le_refl _⟩⟩

/-- `UnansweredPortsKeepTheEngineBusy`, likewise. -/
theorem witness_unanswered_ports :
    (∃ s : State, s.seq = .idle ∧ s.draws = List.replicate 1 .answer ++ .silent :: [] ∧
      ∃ cs, CallsOf .count s cs ∧ cs[1]? = some (.read 8, nil)) ∧
    ∃ s t : State, s.seq = .idle ∧ s.draws = [] ++ .silent :: [] ∧ exec .rewind s = .next t ∧
      t.draws.length ≤ ([] : List Draw).length :=
  ⟨⟨ports [.answer, .silent] (reading [0x41, 0x42]), rfl, rfl, _, (witness_port_calls _).1, rfl⟩,
    ⟨ports [.silent] base, _, rfl, rfl, rfl, Nat.le_refl _⟩⟩

/-- `CountCountsEveryWord`. -/
theorem witness_count :
    (reading [0x41, 0x42]).Ready ∧ ∀ b : Byte, (wordsOf (reading [0x41, 0x42]).unread).count b < 2 ^ 32 :=
  ⟨ready_of rfl rfl, fun b => by
    rw [show wordsOf (reading [0x41, 0x42]).unread = [0x41, 0x42] by decide +kernel]
    exact count_small _ (by decide) b⟩

/-- A source of `n + 1` equal words. -/
theorem full_source (n : Nat) (hn : n < 2 ^ 32) :
    ∃ (s : State) (pre post : List Byte) (b : Byte), s.Ready ∧ wordsOf s.unread = pre ++ b :: post ∧
      pre.count b = n ∧ ∀ c : Byte, pre.count c < 2 ^ 32 := by
  refine ⟨reading (List.replicate n 0 ++ [0]), List.replicate n 0, [], 0, ready_of rfl rfl, ?_, by simp, fun c => ?_⟩
  · have : (reading (List.replicate n 0 ++ [0])).unread = bitsOfBytes (List.replicate n 0 ++ [0]) := rfl
    rw [this, wordsOf_bitsOfBytes]
  · exact Nat.lt_of_le_of_lt List.count_le_length (by simpa using hn)

/-- `FullCountRaisesOverflow`, where the count is full. -/
theorem witness_full_count :
    ∃ (s : State) (pre post : List Byte) (b : Byte), s.Ready ∧ wordsOf s.unread = pre ++ b :: post ∧
      pre.count b = 2 ^ 32 - 1 ∧ ∀ c : Byte, pre.count c < 2 ^ 32 := full_source (2 ^ 32 - 1) (by omega)

/-- `MergeOrderIsStrictTotal`. -/
theorem witness_merge_order :
    less (1, 0) (1, 1) = true ∧ less (1, 1) (2, 0) = true ∧ ((1, 0) : Live).2 ≠ ((1, 1) : Live).2 := by decide

/-- BUILD, as `buildBody_eq` gives it. -/
theorem build_next (s : State) (h : s.seq = .idle) : ∃ t, exec .build s = .next t ∧ t.nnodes = 513 ∧
    t.node = (buildMerges (ctSet s.ct 256 1) s.node).node :=
  ⟨_, runCommand_ok h rfl (buildBody_eq _), by simp, by simp⟩

theorem base_build : ∃ t, exec .build base = .next t ∧ t.nnodes = 513 ∧
    t.node = (buildMerges (ctSet base.ct 256 1) base.node).node := build_next base rfl

theorem base_record {t : State} (hn : t.nnodes = 513)
    (ht : t.node = (buildMerges (ctSet base.ct 256 1) base.node).node) (k : NodeIx) (hk : k.toNat < 513) :
    ∃ n, nodeAt t k = some n ∧ (257 ≤ k.toNat → n.left.toNat < k.toNat ∧ n.right.toNat < k.toNat) := by
  obtain ⟨h, hnext, -⟩ := buildMerges_spec (ctSet base.ct 256 1) base.node
  have hn' : (buildMerges (ctSet base.ct 256 1) base.node).next.toNat = 513 := by rw [hnext]; rfl
  have hk' : k < t.nnodes := by rw [hn]; exact BitVec.lt_def.mpr hk
  by_cases hl : k.toNat < 257
  · exact ⟨_, nodeAt_eq_some.mpr ⟨hk', by rw [ht]; exact h.leaves _ hl⟩, fun h => by omega⟩
  · obtain ⟨w, l, r, a, b, e1, e2, e3, -⟩ := h.internals k.toNat (by omega) (by omega)
    exact ⟨_, nodeAt_eq_some.mpr ⟨hk', by rw [ht]; exact e1⟩, fun _ => ⟨e2, e3⟩⟩

/-- `BuildMergesTheTwoLeast`: the first clause at the second merge, the second one at the first merge, where no
earlier node has a child. -/
theorem witness_two_least :
    (∃ (s t : State) (k p : NodeIx) (n m : Node), s.seq = .idle ∧ exec .build s = .next t ∧ 257 ≤ k.toNat ∧
      nodeAt t k = some n ∧ 257 ≤ p.toNat ∧ p.toNat < k.toNat ∧ nodeAt t p = some m) ∧
    ∃ (s t : State) (k j : NodeIx) (n a b c : Node), s.seq = .idle ∧ exec .build s = .next t ∧ 257 ≤ k.toNat ∧
      j.toNat < k.toNat ∧ nodeAt t k = some n ∧ nodeAt t n.left = some a ∧ nodeAt t n.right = some b ∧
      nodeAt t j = some c ∧ ∀ (p : NodeIx) (m : Node), 257 ≤ p.toNat → p.toNat < k.toNat → nodeAt t p = some m →
        m.left ≠ j ∧ m.right ≠ j := by
  obtain ⟨t, ht, hn, hnode⟩ := base_build
  obtain ⟨n, e, hch⟩ := base_record hn hnode 257 (by decide)
  obtain ⟨n', e', -⟩ := base_record hn hnode 258 (by decide)
  have h257 : (257 : NodeIx).toNat = 257 := rfl
  obtain ⟨hl, hr⟩ := hch (Nat.le_refl _)
  obtain ⟨a, ea, -⟩ := base_record hn hnode n.left (by omega)
  obtain ⟨b, eb, -⟩ := base_record hn hnode n.right (by omega)
  obtain ⟨c, ec, -⟩ := base_record hn hnode 5 (by decide)
  exact ⟨⟨base, t, 258, 257, n', n, rfl, ht, by decide, e', by decide, by decide, e⟩,
    base, t, 257, 5, n, a, b, c, rfl, ht, by decide, by decide, e, ea, eb, ec, fun p m h1 h2 => by omega⟩

/-- `BuildWeightsRise`. -/
theorem witness_weights_rise :
    ∃ (s t : State) (j k : NodeIx) (m n : Node), s.seq = .idle ∧ exec .build s = .next t ∧ 257 ≤ j.toNat ∧
      j.toNat ≤ k.toNat ∧ nodeAt t j = some m ∧ nodeAt t k = some n := by
  obtain ⟨t, ht, hn, hnode⟩ := base_build
  obtain ⟨m, em, -⟩ := base_record hn hnode 257 (by decide)
  obtain ⟨n, en, -⟩ := base_record hn hnode 512 (by decide)
  exact ⟨base, t, 257, 512, m, n, rfl, ht, by decide, by decide, em, en⟩

/-- `BuildDependsOnTheByteCountsOnly`: two states that differ in `CT[256]` and in the records. -/
theorem witness_build_depends :
    ∃ s s' t t' : State, s.seq = .idle ∧ s'.seq = .idle ∧ (∀ v, v ≤ 255 → ctAt s.ct v = ctAt s'.ct v) ∧
      s.ct ≠ s'.ct ∧ s.node ≠ s'.node ∧ exec .build s = .next t ∧ exec .build s' = .next t' := by
  obtain ⟨t, ht, -⟩ := base_build
  obtain ⟨t', ht', -⟩ := build_next { treed with ct := ctSet base.ct 256 77 } rfl
  exact ⟨base, { treed with ct := ctSet base.ct 256 77 }, t, t', rfl, rfl,
    fun v hv => (ctAt_ctSet_of_ne _ _ _ _ (by omega)).symm,
    fun h => absurd (congrArg (fun ct => ctAt ct 256) h) (by decide +kernel),
    fun h => absurd (congrArg (fun node : Vector Node 513 => node[0]?) h) (by decide +kernel), ht, ht'⟩

/-- `CodeImageKeepsThePath`, at the longest path; `KraftSumIsOne`. -/
theorem witness_paths :
    (List.replicate 256 true).length ≤ 256 ∧ ∀ p ∈ threeLeaves.paths, p.1.length ≤ 2 :=
  ⟨by rw [List.length_replicate], by decide⟩

/-- `GencodesWritesEveryPath`, `ValidTreesHaveBoundedDepth`, `WrtreeAppendsTheHeader`, `CodecGivesTheTreeBack`. -/
theorem witness_valid_tree : treed.Ready ∧ treed.seq = .idle ∧ treed.treeValid = true ∧ TreeInv treed ∧ base.Ready :=
  ⟨ready_of rfl rfl, rfl, rfl, treed_inv, ready_of rfl rfl⟩

/-- `CodesArePrefixFree`. -/
theorem witness_prefix_free :
    TreeInv coded ∧ CodesInv coded ∧ (65 : Sym).toNat ≤ 256 ∧ (256 : Sym).toNat ≤ 256 ∧ (65 : Sym) ≠ 256 ∧
      (codeAt coded.code 65).len ≠ 0 ∧ (codeAt coded.code 256).len ≠ 0 :=
  ⟨coded_treeInv, coded_codesInv, by decide, by decide, by decide, by decide +kernel, by decide +kernel⟩

/-- `WrmagicAppendsTheMagicNumber`, `RewindMovesTheSourceToItsStart`, `ElementsAppendTheirBits` (the values where its
clauses meet). -/
theorem witness_ready : base.Ready ∧ (256 : Sym).toNat ≤ 256 ∧ 256 < (257 : Sym).toNat := ⟨ready_of rfl rfl, by decide⟩

/-- `RdmagicChecksTheMagicNumber`: the magic number, another word, 31 bits. -/
theorem witness_rdmagic :
    (∃ s : State, s.Ready ∧ s.srcPos ≤ s.srcBits.length ∧ s.unread = binBits s.magicTree ++ []) ∧
    (∃ s : State, s.Ready ∧ s.srcPos ≤ s.srcBits.length ∧ s.unread = binBits (0xFACE8200 : Word) ++ [] ∧
      0xFACE8200 ≠ s.magicTree) ∧
    ∃ s : State, s.Ready ∧ s.srcPos ≤ s.srcBits.length ∧ s.unread.length = 31 :=
  ⟨⟨reading [0xFA, 0xCE, 0x82, 0x01], ready_of rfl rfl, by decide +kernel, by decide +kernel⟩,
    ⟨reading [0xFA, 0xCE, 0x82, 0x00], ready_of rfl rfl, by decide +kernel, by decide +kernel, by decide +kernel⟩,
    ⟨{ reading [0xFA, 0xCE, 0x82, 0x01] with srcPos := 1 }, ready_of rfl rfl, by decide +kernel, by decide +kernel⟩⟩

theorem three_fits : threeLeaves.Fits := ⟨by decide, by decide, by decide⟩

/-- `RdtreeLoadsTheHeadersTree`. -/
theorem witness_rdtree :
    (reading [0x48, 0x29, 0x0B, 0x00]).Ready ∧ threeLeaves.Fits ∧
      (reading [0x48, 0x29, 0x0B, 0x00]).unread = threeLeaves.header ++ [] :=
  ⟨ready_of rfl rfl, three_fits, by decide +kernel⟩

/-- A tree whose left children are leaves: `n + 1` leaves, `2 * n + 1` nodes. -/
def comb : Nat → Tree
  | 0 => .leaf 0
  | n + 1 => .node (.leaf 0) (comb n)

theorem comb_size (n : Nat) : (comb n).size = 2 * n + 1 := by
  induction n with
  | zero => rfl
  | succ n ih => simp [comb, Tree.size, ih]; omega

theorem comb_leaves (n : Nat) : ∀ x ∈ (comb n).nodes, ∀ v, x.2 = some v → v = 0 := by
  induction n with
  | zero => simp [comb, Tree.nodes]
  | succ n ih =>
    intro x hx v hv
    simp only [comb, Tree.nodes, List.map_cons, List.map_nil, List.mem_cons, List.mem_append, List.mem_map,
      List.not_mem_nil, or_false] at hx
    obtain rfl | rfl | ⟨y, hy, rfl⟩ := hx
    · cases hv
    · simpa using hv.symm
    · exact ih y hy v hv

theorem comb_node (n k : Nat) (h : k < 2 * n + 1) :
    (∃ p o, (comb n).nodes[k]? = some (p, o)) ∧ (comb n).SymbolsBefore k := by
  refine ⟨?_, fun j _ p v hj => by rw [comb_leaves n _ (List.mem_of_getElem? hj) v rfl]; decide⟩
  have hk : k < (comb n).nodes.length := by rwa [nodes_length, comb_size]
  exact ⟨_, _, List.getElem?_eq_getElem hk⟩

/-- `RdtreeRefusesBadHeaders`, a source for each of its clauses (V-T5): 258 leaves, the last node the arena has room for
missing, no bit at all, a symbol cut by a bit, a reserved value at an inner leaf, a root that is a leaf. -/
theorem witness_bad_headers :
    (∀ bits, (bitsSource bits).Ready ∧ (bitsSource bits).srcPos ≤ (bitsSource bits).srcBits.length) ∧
    ((∃ p o, (comb 257).nodes[513]? = some (p, o)) ∧ (comb 257).SymbolsBefore 513 ∧
      (bitsSource ((comb 257).tokens 513 ++ [])).unread = (comb 257).tokens 513 ++ []) ∧
    ((∃ p o, (comb 257).nodes[512]? = some (p, o)) ∧ (comb 257).SymbolsBefore 512 ∧ 512 < 513 ∧
      (bitsSource ((comb 257).tokens 512)).unread = (comb 257).tokens 512) ∧
    ((∃ p o, (comb 0).nodes[0]? = some (p, o)) ∧ (comb 0).SymbolsBefore 0 ∧
      (bitsSource []).unread = (comb 0).tokens 0) ∧
    ((bitsSource (true :: List.replicate 8 false)).unread = (comb 0).tokens 0 ++ true :: List.replicate 8 false ∧
      (List.replicate 8 false).length < 9) ∧
    ((∃ p o, (comb 1).nodes[1]? = some (p, o)) ∧ (comb 1).SymbolsBefore 1 ∧ 256 < (257 : Sym).toNat ∧
      (bitsSource [false, true, true, false, false, false, false, false, false, false, true]).unread =
        (comb 1).tokens 1 ++ true :: (binBits (257 : Sym) ++ [])) ∧
    ((bitsSource (true :: (binBits (256 : Sym) ++ []))).unread = true :: (binBits (256 : Sym) ++ []) ∧
      (256 : Sym).toNat ≤ 256) :=
  ⟨fun _ => ⟨ready_of rfl rfl, Nat.zero_le _⟩,
    ⟨(comb_node 257 513 (by decide)).1, (comb_node 257 513 (by decide)).2, bitsSource_unread _⟩,
    ⟨(comb_node 257 512 (by decide)).1, (comb_node 257 512 (by decide)).2, by decide, bitsSource_unread _⟩,
    ⟨(comb_node 0 0 (by decide)).1, (comb_node 0 0 (by decide)).2, bitsSource_unread _⟩,
    ⟨bitsSource_unread _, by decide⟩,
    ⟨(comb_node 1 1 (by decide)).1, (comb_node 1 1 (by decide)).2, by decide, by decide⟩,
    ⟨bitsSource_unread _, by decide⟩⟩

/-- `CutHeadersAreTruncatedInput`: the header of V-T1 without its last bit. -/
theorem witness_cut_header :
    (bitsSource (threeLeaves.header.take 31)).Ready ∧
      (bitsSource (threeLeaves.header.take 31)).srcPos ≤ (bitsSource (threeLeaves.header.take 31)).srcBits.length ∧
      threeLeaves.Fits ∧ (bitsSource (threeLeaves.header.take 31)).unread ++ [false] = threeLeaves.header ∧
      [false] ≠ [] := ⟨ready_of rfl rfl, Nat.zero_le _, three_fits, by decide +kernel, by decide⟩

/-- `EncodeAppendsTheCodes`. -/
theorem witness_encode :
    ∃ s : State, s.Ready ∧ s.codesValid = true ∧ (∀ b ∈ wordsOf s.unread, (codeAt s.code b.toNat).len ≠ 0) ∧
      (codeAt s.code 256).len ≠ 0 ∧ wordsOf s.unread = [0x41, 0x42] :=
  ⟨{ coded with srcBits := bitsOfBytes [0x41, 0x42] }, ready_of rfl rfl, rfl, by decide +kernel, by decide +kernel,
    by decide +kernel⟩

/-- `MissingCodeRaisesNoCode`: a word without a code; no code for the pseudo-EOF alone. -/
theorem witness_no_code :
    (∃ s : State, s.Ready ∧ s.codesValid = true ∧ wordsOf s.unread = [0x41] ++ (0x43 : Byte) :: [0x42] ∧
      (∀ c ∈ [(0x41 : Byte)], (codeAt s.code c.toNat).len ≠ 0) ∧ (codeAt s.code 0x43).len = 0) ∧
    ∃ s : State, s.Ready ∧ s.codesValid = true ∧ (∀ c ∈ wordsOf s.unread, (codeAt s.code c.toNat).len ≠ 0) ∧
      (codeAt s.code 256).len = 0 ∧ wordsOf s.unread = [0x41] :=
  ⟨⟨{ coded with srcBits := bitsOfBytes [0x41, 0x43, 0x42] }, ready_of rfl rfl, rfl, by decide +kernel,
      by decide +kernel, by decide +kernel⟩,
    ⟨{ coded with srcBits := bitsOfBytes [0x41], code := codeSet threeCodes 256 ⟨0, 0⟩ }, ready_of rfl rfl, rfl,
      by decide +kernel, by decide +kernel, by decide +kernel⟩⟩

/-- `DecodeWritesTheLeavesReached`. -/
theorem witness_decode :
    ∃ s : State, s.Ready ∧ s.treeValid = true ∧ TreeInv s ∧ s.tree = some threeLeaves ∧
      (∀ l ∈ [([false], (65 : Sym)), ([true, false], 66)], l ∈ threeLeaves.paths ∧ l.2 ≠ 256) ∧
      ([true, true], (256 : Sym)) ∈ threeLeaves.paths ∧
      s.unread = [([false], (65 : Sym)), ([true, false], 66)].flatMap Prod.fst ++ [true, true] ++ [false] :=
  ⟨treedOn [false, true, false, true, true, false], ready_of rfl rfl, rfl, treedOn_inv _, treedOn_tree _, by decide,
    by decide, treedOn_unread _⟩

/-- `CutBodiesAreTruncatedInput`: the source ends between two codes, and inside one (V-D4b, V-D4). -/
theorem witness_cut_body :
    (∃ s : State, s.Ready ∧ s.treeValid = true ∧ TreeInv s ∧ s.tree = some threeLeaves ∧
      (∀ l ∈ [([false], (65 : Sym))], l ∈ threeLeaves.paths ∧ l.2 ≠ 256) ∧
      ([] ++ [true, true], (256 : Sym)) ∈ threeLeaves.paths ∧ s.srcPos ≤ s.srcBits.length ∧
      s.unread = [([false], (65 : Sym))].flatMap Prod.fst ++ []) ∧
    ∃ s : State, s.Ready ∧ s.treeValid = true ∧ TreeInv s ∧ s.tree = some threeLeaves ∧
      (∀ l ∈ [([false], (65 : Sym))], l ∈ threeLeaves.paths ∧ l.2 ≠ 256) ∧
      ([true] ++ [true], (256 : Sym)) ∈ threeLeaves.paths ∧ s.srcPos ≤ s.srcBits.length ∧
      s.unread = [([false], (65 : Sym))].flatMap Prod.fst ++ [true] :=
  ⟨⟨treedOn [false], ready_of rfl rfl, rfl, treedOn_inv _, treedOn_tree _, by decide, by decide, Nat.zero_le _,
      treedOn_unread _⟩,
    ⟨treedOn [false, true], ready_of rfl rfl, rfl, treedOn_inv _, treedOn_tree _, by decide, by decide, Nat.zero_le _,
      treedOn_unread _⟩⟩

/-- `CompressWritesTheStream`, `RoundTripGivesTheWordsBack`. -/
theorem witness_compress :
    (reading [0x41, 0x41, 0x42]).Ready ∧ (reading [0x41, 0x41, 0x42]).srcBits = bitsOfBytes [0x41, 0x41, 0x42] ∧
      (reading [0x41, 0x41, 0x42]).srcPos = 0 ∧ (reading [0x41, 0x41, 0x42]).snkBits = [] ∧
      (∀ b : Byte, [0x41, 0x41, 0x42].count b < 2 ^ 32) ∧ base.Ready ∧
      base.magicTree = (reading [0x41, 0x41, 0x42]).magicTree :=
  ⟨ready_of rfl rfl, rfl, rfl, rfl, count_small _ (by decide), ready_of rfl rfl, rfl⟩

/-- `DecompressWritesTheWords`. -/
theorem witness_decompress :
    ∃ s : State, s.Ready ∧ threeLeaves.Fits ∧
      (∀ l ∈ [([false], (65 : Sym))], l ∈ threeLeaves.paths ∧ l.2 ≠ 256) ∧
      ([true, true], (256 : Sym)) ∈ threeLeaves.paths ∧
      s.unread = binBits s.magicTree ++ threeLeaves.header ++ [([false], (65 : Sym))].flatMap Prod.fst ++ [true, true] ++
        [false] :=
  ⟨{ base with srcBits := binBits base.magicTree ++ threeLeaves.header ++ [false, true, true, false] },
    ready_of rfl rfl, three_fits, by decide, by decide, by decide +kernel⟩

theorem next_exists {o : Host.Outcome State Fault Refusal} (h : nextIs o (fun _ => true) = true) :
    ∃ t, o = .next t := by
  cases o with
  | next t => exact ⟨t, rfl⟩
  | fault f => cases h
  | refused f => cases h

/-- The four frame statements: each instruction they name answers a next state somewhere. -/
theorem witness_frames :
    (∃ t, exec .count base = .next t) ∧ (∃ t, exec .rdmagic base = .next t) ∧ (∃ t, exec .rewind base = .next t) ∧
    (∃ t, exec .build base = .next t) ∧ (∃ t, exec .gencodes treed = .next t) ∧
    (∃ t, exec .wrmagic base = .next t) ∧ (∃ t, exec .wrtree treed = .next t) ∧
    (∃ t, exec .encode coded = .next t) ∧ (∃ t, exec .streamMagic base = .next t) ∧
    (∃ t, exec .streamHeaderInternal base = .next t) ∧ (∃ t, exec (.streamHeaderLeaf 256) base = .next t) ∧
    (∃ t, exec (.streamBodyCode [true]) base = .next t) ∧ (∃ t, exec (.streamBodyPseudoEof [true]) base = .next t) ∧
    (∃ t, exec (.streamWord 7) base = .next t) ∧ (∃ t, exec .rdtree base = .next t) ∧
    (∃ t, exec .decode treed = .next t) ∧
    (∃ t, exec .compress { base with ioCanFail := true, draws := [.ioErr] } = .next t) ∧
    (∃ t, exec .decompress base = .next t) := by
  refine ⟨?_, ?_, ?_, base_build.imp fun _ h => h.1, ?_, ?_, ?_, ?_, ?_, ?_, ?_, ?_, ?_, ?_, ?_, ?_, ?_, ?_⟩ <;>
    exact next_exists (by decide +kernel)

/-- `TreesAreImmutable`: a REWIND, and a write of a count. -/
theorem witness_immutable :
    (∃ s t : State, step s = .next t ∧ (∀ es, s.host ≠ .reset :: es) ∧ nextEvent s = .run .rewind coded ∧
      Instr.rewind ∉ [Instr.build, .rdtree, .clear, .compress, .decompress]) ∧
    ∃ s t u : State, step s = .next t ∧ (∀ es, s.host ≠ .reset :: es) ∧ nextEvent s = .quiet u :=
  ⟨⟨{ coded with host := [.write 0 6] }, _, rfl, fun es h => (by cases h), rfl, by decide⟩,
    ⟨{ coded with host := [.write 8 6] }, _, _, rfl, fun es h => (by cases h), rfl⟩⟩

/-- `StepKeepsTheInvariants`, `StepNeverStops`, `StreamsAndParametersAreKept`. -/
theorem witness_step : ∃ t, Inv coded ∧ step coded = .next t ∧ ∀ bits es, coded.host ≠ .attach bits :: es :=
  ⟨_, coded_inv, rfl, fun bits es h => by cases h⟩

/-- `CodeTablesNeverOutliveTheirTree`. -/
theorem witness_code_table :
    ∃ t, exec .rewind coded = .next t ∧ t.codesValid = true ∧ Instr.rewind ≠ .gencodes ∧ Instr.rewind ≠ .compress :=
  ⟨_, rfl, rfl, by decide, by decide⟩

end Sys2Proof.Tests
end

section
/-! PROOFS. What each operation leaves as it was: the streams, the parameters, the tables. -/

namespace Sys2Proof.Machine

/-! ## Frames -/

/-- The sink only grew (R52), the source's position stayed within the source (R51), and everything `frame` does not
blank is as it was. -/
structure Moves (frame : State → State) (s t : State) : Prop where
  sink : s.snkBits <+: t.snkBits
  pos : PosKept s t
  frame_eq : frame t = frame s

theorem moves_refl (frame : State → State) (s : State) : Moves frame s s := ⟨List.prefix_rfl, id, rfl⟩

theorem Moves.trans {frame : State → State} {s t u : State} (h : Moves frame s t) (h' : Moves frame t u) :
    Moves frame s u :=
  ⟨h.sink.trans h'.sink, h'.pos ∘ h.pos, h'.frame_eq.trans h.frame_eq⟩

/-- A frame that blanks more is kept too. -/
theorem Moves.mono {f g : State → State} {s t : State} (h : Moves f s t) (hfg : ∀ u, g (f u) = g u) : Moves g s t :=
  ⟨h.sink, h.pos, (hfg t).symm.trans ((congrArg g h.frame_eq).trans (hfg s))⟩

/-- A frame that shows the sink says that it is as it was. -/
theorem moves_of_frame {f : State → State} {s t : State} (hf : f t = f s) (hp : PosKept s t)
    (hsnk : ∀ u, (f u).snkBits = u.snkBits) : Moves f s t := by
  refine ⟨⟨[], ?_⟩, hp, hf⟩
  rw [List.append_nil, ← hsnk s, ← hsnk t, hf]

/-- The state with everything blank that a pseudocode which leaves the tree and the code table alone can touch, `CUR`
apart: `CT`, the streams' movement, the draws and the counter of free values. -/
def workFrame (s : State) : State :=
  { s with ct := Vector.replicate 257 0, srcPos := 0, snkBits := [], draws := [], freeIx := 0 }

/-- The state with everything blank that a pseudocode can touch: what is left are the sequencer's registers, `TSEL`,
the call in flight, the parameters, the source's bits and the host's side. -/
def engineFrame (s : State) : State :=
  { workFrame s with
    node := Vector.replicate 513 State.blankNode, root := 0, nnodes := 0
    code := Vector.replicate 257 State.blankCode, cur := 0, treeValid := false, codesValid := false }

/-- Nothing but what no instruction changes: the parameters and the source's bits. -/
def paramFrame (s : State) : State :=
  { State.reset with magicTree := s.magicTree, ioCanFail := s.ioCanFail, srcBits := s.srcBits }

/-- That and the tree. -/
def treeFrame (s : State) : State := (paramFrame s).withTree s.node s.root s.nnodes

/-- That, the code table and the two flags. -/
def tableFrame (s : State) : State := ((treeFrame s).withCode s.code).withValid s.treeValid s.codesValid

theorem Moves.engine {s t : State} (h : Moves workFrame s t) : Moves engineFrame s t := h.mono fun _ => rfl

theorem moves_source {s t : State} (h : SourceMoved s t) : Moves workFrame s t :=
  ⟨⟨[], by rw [h.1]; simp⟩, h.2, (congrArg workFrame h.1).trans rfl⟩

theorem moves_sink {s t : State} (h : SinkGrew s t) : Moves workFrame s t := by
  obtain ⟨⟨added, ha⟩, h⟩ := h
  refine ⟨⟨added, ha.symm⟩, fun hs => ?_, (congrArg workFrame h).trans rfl⟩
  rw [h]
  exact hs

/-! ## The pseudocodes -/

theorem countBody_moves (s : State) : (countBody s).Ends (Moves workFrame s) :=
  ends_mono (countLoop_moved _ _) fun _ h =>
    (moves_of_frame (h.1.trans rfl) h.2 fun _ => rfl : Moves countFrame s _).mono fun _ => rfl

theorem putMagic_moves (s : State) : (putMagic s).Ends (Moves workFrame s) :=
  ends_mono (put_grew _ s) fun _ => moves_sink

theorem wrtreeBody_moves (s : State) : (wrtreeBody s).Ends (Moves workFrame s) :=
  ends_mono (putTree_grew _ _ s) fun _ => moves_sink

theorem rewindBody_moves (s : State) : (rewindBody s).Ends (Moves workFrame s) := by
  refine ends_andThen (srcRewind_moved s) (fun _ => moves_source) fun a t _ ht => ?_
  cases a <;> exact moves_source ht

theorem encodeBody_moves (s : State) : (encodeBody s).Ends (Moves workFrame s) :=
  ends_mono (encodeLoop_moved _ s) fun _ ⟨⟨added, ha⟩, hp, hf⟩ =>
    (⟨⟨added, ha.symm⟩, hp, hf⟩ : Moves encoderFrame s _).mono fun _ => rfl

theorem rdmagicBody_moves (s : State) : (rdmagicBody s).Ends (Moves workFrame s) := by
  refine readField_ends (fun _ => moves_source) (fun _ => moves_source) fun x t ht => ?_
  split <;> exact moves_source ht

theorem putBits_moves (bits : List Bool) (s : State) : (putBits bits s).Ends (Moves workFrame s) :=
  ends_mono (putBits_grew bits s) fun _ => moves_sink

theorem putWord_moves (w : Byte) (s : State) : (putWord w s).Ends (Moves workFrame s) :=
  ends_mono (put_grew w s) fun _ => moves_sink

theorem putInternal_moves (s : State) : (putInternal s).Ends (Moves workFrame s) :=
  ends_mono (put_grew _ s) fun _ => moves_sink

theorem putLeaf_moves (v : Sym) (s : State) : (putLeaf v s).Ends (Moves workFrame s) :=
  ends_andThen (put_grew 1#1 s) (fun _ => moves_sink) fun _ t _ ht =>
    ends_mono (put_grew v t) fun _ hu => moves_sink (sinkGrew_trans ht hu)

/-- DECODE's pseudocode moves `CUR` besides. -/
theorem decodeBody_moves (s : State) : (decodeBody s).Ends (Moves decoderFrame s) :=
  ends_mono (decodeLoop_moved _ _) fun _ h =>
    have ⟨⟨added, ha⟩, hp, hf⟩ := decoderMoved_trans (decoderMoved_cur s s.root) h
    ⟨⟨added, ha.symm⟩, hp, hf⟩

theorem buildBody_moves (s : State) : (buildBody s).Ends (Moves engineFrame s) := by
  rw [buildBody_eq]
  exact ⟨List.prefix_rfl, id, rfl⟩

/-- GENCODES leaves the tree as it is. -/
theorem gencodesBody_moves (s : State) :
    (gencodesBody s).Ends fun t => Moves engineFrame s t ∧ treeFrame t = treeFrame s := by
  unfold gencodesBody
  split
  · trivial
  · exact ⟨⟨List.prefix_rfl, id, rfl⟩, rfl⟩

/-- What RDTREE leaves, however it ends (R138, R142, R143): no code table, and a valid tree or none. -/
structure RdtreeLeft (s t : State) : Prop where
  moves : Moves engineFrame s t
  codesValid : t.codesValid = false
  cur : t.cur = s.cur
  nnodes : t.nnodes.toNat ≤ Config.nodeCap
  noRoot : t.treeValid = false → t.root = nil
  tree : t.treeValid = true → TreeInv t

/-- A block whose root is an internal node is a valid tree once `ROOT` points to it (R138, R140). -/
theorem treeInv_of_internal_root {t : State} {T : Tree} {k : NodeIx} {n : Node} (hb : Block t.node 0 T)
    (hn : t.nnodes.toNat = T.size) (hcap : t.nnodes.toNat ≤ Config.nodeCap) (hk : k.toNat = T.rootAt 0)
    (hroot : nodeAt t k = some n) (hl : n.leaf = false) :
    TreeInv ((t.withTree t.node k t.nnodes).withValid true t.codesValid) := by
  have h3 : 3 ≤ T.size := by
    cases T with
    | leaf v =>
      have he := (nodeAt_eq_some.mp hroot).2
      rw [hk, show (Tree.leaf v).rootAt 0 = 0 from rfl, hb.2] at he
      cases he
      cases hl
    | node l r =>
      have := l.size_pos
      have := r.size_pos
      simp only [Tree.size]
      omega
  exact treeInv_of_block (T := T) hb hn (hn ▸ hcap) h3 (by simp [hk, Tree.rootAt]; omega)

theorem rdtreeBody_left (s : State) : (rdtreeBody s).Ends (RdtreeLeft s) := by
  obtain ⟨hends, hok⟩ := getTree_ends (Config.nodeCap + 1) 0 (rdtreeStart s) (by omega) (by simp)
  -- until the root is written no tree is valid
  have hleft : ∀ t, headerFrame t = headerFrame (rdtreeStart s) ∧ PosKept (rdtreeStart s) t ∧ t.nnodes.toNat ≤ 513 →
      RdtreeLeft s t := by
    intro t ⟨hf, hp, hn⟩
    have hm : Moves headerFrame (rdtreeStart s) t := moves_of_frame hf hp fun _ => rfl
    have hm : Moves engineFrame (rdtreeStart s) t := hm.mono fun _ => rfl
    have hv : t.treeValid = false := (congrArg State.treeValid hf :)
    exact ⟨⟨hm.sink, hm.pos, hm.frame_eq.trans rfl⟩, (congrArg State.codesValid hf :), (congrArg State.cur hf :), hn,
      fun _ => (congrArg State.root hf :), fun h => by rw [hv] at h; cases h⟩
  refine ends_andThen hends hleft fun ⟨k, seen⟩ t e ht => ?_
  have h := hleft t ht
  obtain ⟨T, -, -, hn, hk, hb, -⟩ := hok k seen t e
  split
  · trivial
  · rename_i n hroot
    split
    · exact h
    · rename_i hl
      refine ⟨h.moves.trans ⟨List.prefix_rfl, id, rfl⟩, h.codesValid, h.cur, h.nnodes, fun h => (by cases h),
        fun _ => ?_⟩
      exact treeInv_of_internal_root hb (by simpa using hn) h.nnodes hk hroot (by simpa using hl)

/-! ## From a pseudocode to its instruction -/

/-- A frame that shows nothing of the sequencer: neither `STATE` and `DONE`, nor `ERR`, nor the call in flight. -/
def Blind (frame : State → State) : Prop :=
  ∀ u q d e c, frame (((u.withSeq q d).withErr e).withInFlight c) = frame u

theorem Moves.sequenced {frame : State → State} {s t : State} (h : Moves frame s t) (hf : Blind frame) (q : Seq)
    (d : Bool) (e : ErrReg) (c : Option PortCall) :
    Moves frame s (((t.withSeq q d).withErr e).withInFlight c) :=
  ⟨h.sink, h.pos, (hf t q d e c).trans h.frame_eq⟩

/-- The rule from a pseudocode to its command. -/
theorem runCommand_moves {frame : State → State} {op : BitVec 4} {p : Bool} {body : State → Res Unit} {s t : State}
    (hf : Blind frame) (hb : ∀ u, (body u).Ends (Moves frame u)) (h : runCommand op p body s = .next t) :
    Moves frame s t :=
  have hs : Moves frame s (s.withSeq .busy false) := (moves_refl frame s).sequenced hf .busy false s.err s.inFlight
  runCommand_ends h (moves_refl frame s) (fun u q d hu => hu.sequenced hf q d u.err u.inFlight)
    (fun u e hu => hu.sequenced hf u.seq u.done e u.inFlight) (fun u c hu => hu.sequenced hf u.seq u.done u.err c)
    (ends_mono (hb _) fun _ => hs.trans)

/-- The rule from a pseudocode to its transfer. -/
theorem runTransfer_moves {frame : State → State} {body : State → Res Unit} {s t : State} (hf : Blind frame)
    (hb : (body s).Ends (Moves frame s)) (h : runTransfer body s = .next t) : Moves frame s t := by
  obtain ⟨-, rfl⟩ | ⟨-, e | ⟨e', u, e, rfl⟩ | ⟨c, u, e, rfl⟩⟩ := runTransfer_cases h
  · exact moves_refl frame _
  all_goals rw [e] at hb
  · exact hb
  · exact hb.sequenced hf .error false e'.reg u.inFlight
  · exact hb.sequenced hf .busy false u.err (some c)

/-- What presenting a reserved opcode comes to: its error is raised at once (R187). -/
def illegalBody (op : BitVec 4) (s : State) : Res Unit := .raised (illegalOpcode op) s

theorem illegalBody_moves (op : BitVec 4) (s : State) : (illegalBody op s).Ends (Moves workFrame s) := moves_refl _ s

theorem runIllegal_eq (op : BitVec 4) (s : State) : runIllegal op s = runTransfer (illegalBody op) s := by
  unfold runIllegal runTransfer
  split <;> rfl

/-- The instructions that may write the tree, the code table or `CUR`. -/
def tableWriters : List Instr := [.build, .gencodes, .rdtree, .decode, .clear, .compress, .decompress]

/-- Every other instruction is a command or a transfer whose pseudocode leaves them alone. -/
theorem exec_of_not_tableWriter {i : Instr} (hi : i ∉ tableWriters) :
    ∃ body : State → Res Unit, (∀ s, (body s).Ends (Moves workFrame s)) ∧
      ((∃ (op : BitVec 4) (p : State → Bool), ∀ s, exec i s = runCommand op (p s) body s) ∨
        ∀ s, exec i s = runTransfer body s) := by
  cases i with
  | build | gencodes | rdtree | decode | clear | compress | decompress => simp [tableWriters] at hi
  | count => exact ⟨_, countBody_moves, .inl ⟨1, fun _ => true, fun _ => rfl⟩⟩
  | wrmagic => exact ⟨_, putMagic_moves, .inl ⟨4, fun _ => true, fun _ => rfl⟩⟩
  | wrtree => exact ⟨_, wrtreeBody_moves, .inl ⟨5, State.treeValid, fun _ => rfl⟩⟩
  | rewind => exact ⟨_, rewindBody_moves, .inl ⟨6, fun _ => true, fun _ => rfl⟩⟩
  | encode => exact ⟨_, encodeBody_moves, .inl ⟨7, State.codesValid, fun _ => rfl⟩⟩
  | rdmagic => exact ⟨_, rdmagicBody_moves, .inl ⟨8, fun _ => true, fun _ => rfl⟩⟩
  | illegal0 => exact ⟨_, illegalBody_moves 0, .inr (runIllegal_eq 0)⟩
  | illegal12 => exact ⟨_, illegalBody_moves 12, .inr (runIllegal_eq 12)⟩
  | illegal13 => exact ⟨_, illegalBody_moves 13, .inr (runIllegal_eq 13)⟩
  | illegal14 => exact ⟨_, illegalBody_moves 14, .inr (runIllegal_eq 14)⟩
  | illegal15 => exact ⟨_, illegalBody_moves 15, .inr (runIllegal_eq 15)⟩
  | streamMagic => exact ⟨_, putMagic_moves, .inr fun _ => rfl⟩
  | streamHeaderInternal => exact ⟨_, putInternal_moves, .inr fun _ => rfl⟩
  | streamHeaderLeaf v =>
    refine ⟨_, fun s => ?_, .inr fun _ => rfl⟩
    split
    · exact putLeaf_moves v s
    · exact moves_refl workFrame s
  | streamBodyCode c => exact ⟨_, putBits_moves c, .inr fun _ => rfl⟩
  | streamBodyPseudoEof c => exact ⟨_, putBits_moves c, .inr fun _ => rfl⟩
  | streamWord w => exact ⟨_, putWord_moves w, .inr fun _ => rfl⟩

/-- What such an instruction, or DECODE, does leaves the tables as they were. -/
theorem exec_keeps_tables {i : Instr} {s t : State} (hi : i = .decode ∨ i ∉ tableWriters)
    (h : exec i s = .next t) : Moves tableFrame s t := by
  have hblind : Blind tableFrame := fun _ _ _ _ _ => rfl
  obtain rfl | hi := hi
  · exact runCommand_moves hblind (fun u => ends_mono (decodeBody_moves u) fun _ h => h.mono fun _ => rfl) h
  · obtain ⟨body, hb, ⟨op, p, he⟩ | he⟩ := exec_of_not_tableWriter hi
    all_goals
      rw [he] at h
      have hb' : ∀ u, (body u).Ends (Moves tableFrame u) := fun u => ends_mono (hb u) fun _ h => h.mono fun _ => rfl
    · exact runCommand_moves hblind hb' h
    · exact runTransfer_moves hblind (hb' s) h

/-- GENCODES leaves the tree as it was. -/
theorem execGencodes_moves {s t : State} (h : execGencodes s = .next t) : Moves treeFrame s t :=
  runCommand_moves (fun _ _ _ _ _ => rfl)
    (fun u => ends_mono (gencodesBody_moves u) fun _ ⟨h, hf⟩ => ⟨h.sink, h.pos, hf⟩) h

/-- CLEAR is ignored while `BUSY`; else it discards the tables (R174). -/
theorem execClear_cases {s t : State} (h : execClear s = .next t) :
    (s.seq = .busy ∧ t = s) ∨ (s.seq ≠ .busy ∧ t = (discardTables s).withSeq .idle true) := by
  unfold execClear at h
  split at h <;> cases h <;> simp_all

/-! ## What every instruction keeps -/

/-- A command whose pseudocode stays within the engine's frame keeps the parameters and the source's bits. -/
theorem runCommand_params {op : BitVec 4} {p : Bool} {body : State → Res Unit} {s t : State}
    (hb : ∀ u, (body u).Ends (Moves engineFrame u)) (h : runCommand op p body s = .next t) : Moves paramFrame s t :=
  runCommand_moves (fun _ _ _ _ _ => rfl) (fun u => ends_mono (hb u) fun _ h => h.mono fun _ => rfl) h

theorem execBuild_moves {s t : State} (h : execBuild s = .next t) : Moves paramFrame s t :=
  runCommand_params buildBody_moves h

theorem execRdtree_moves {s t : State} (h : execRdtree s = .next t) : Moves paramFrame s t :=
  runCommand_params (fun u => ends_mono (rdtreeBody_left u) fun _ h => h.moves) h

theorem execClear_moves {s t : State} (h : execClear s = .next t) : Moves paramFrame s t := by
  obtain ⟨-, rfl⟩ | ⟨-, rfl⟩ := execClear_cases h
  · exact moves_refl _ _
  · exact ⟨List.prefix_rfl, id, rfl⟩

/-- The two pseudo-instructions (R85). -/
def sequences : List Instr := [.compress, .decompress]

/-- Every single instruction keeps the parameters, the source's bits, and what the sink held. -/
theorem exec_single_moves {i : Instr} {s t : State} (hi : i ∉ sequences) (h : exec i s = .next t) :
    Moves paramFrame s t := by
  cases i with
  | build => exact execBuild_moves h
  | gencodes => exact (execGencodes_moves h).mono fun _ => rfl
  | rdtree => exact execRdtree_moves h
  | decode => exact (exec_keeps_tables (.inl rfl) h).mono fun _ => rfl
  | clear => exact execClear_moves h
  | compress | decompress => simp [sequences] at hi
  | _ => exact (exec_keeps_tables (.inr (by simp [tableWriters])) h).mono fun _ => rfl

/-- What two runs do, a sequence of them does. -/
theorem thenRun_rel {R : State → State → Prop} {r : Host.Outcome State Fault Refusal}
    {f : State → Host.Outcome State Fault Refusal} {s t : State} (htrans : ∀ {a b c}, R a b → R b c → R a c)
    (hr : ∀ u, r = .next u → R s u) (hf : ∀ u v, f u = .next v → R u v) (h : thenRun r f = .next t) : R s t := by
  obtain ⟨u, h1, h2⟩ := thenRun_eq_next.mp h
  exact htrans (hr u h1) (hf u t h2)

/-- What the three commands of DECOMPRESS do, it does (R179). -/
theorem execDecompress_rel {R : State → State → Prop} {s t : State} (htrans : ∀ {a b c}, R a b → R b c → R a c)
    (hc : ∀ i ∈ [Instr.rdmagic, .rdtree, .decode], ∀ u v, exec i u = .next v → R u v)
    (h : execDecompress s = .next t) : R s t :=
  thenRun_rel htrans (fun _ => thenRun_rel htrans (hc .rdmagic (by decide) s) (hc .rdtree (by decide)))
    (hc .decode (by decide)) h

/-- What the seven commands of COMPRESS do, it does (R178). -/
theorem execCompress_rel {R : State → State → Prop} {s t : State} (htrans : ∀ {a b c}, R a b → R b c → R a c)
    (hc : ∀ i ∈ [Instr.count, .build, .gencodes, .wrmagic, .wrtree, .rewind, .encode], ∀ u v,
      exec i u = .next v → R u v) (h : execCompress s = .next t) : R s t := by
  refine thenRun_rel htrans (fun _ => ?_) (hc .encode (by decide)) h
  refine thenRun_rel htrans (fun _ => ?_) (hc .rewind (by decide))
  refine thenRun_rel htrans (fun _ => ?_) (hc .wrtree (by decide))
  refine thenRun_rel htrans (fun _ => ?_) (hc .wrmagic (by decide))
  refine thenRun_rel htrans (fun _ => ?_) (hc .gencodes (by decide))
  exact thenRun_rel htrans (hc .count (by decide) s) (hc .build (by decide))

/-- What every single instruction does, the sequences do too. -/
theorem exec_rel {R : State → State → Prop} {i : Instr} {s t : State} (htrans : ∀ {a b c}, R a b → R b c → R a c)
    (hs : ∀ {i u v}, i ∉ sequences → exec i u = .next v → R u v) (h : exec i s = .next t) : R s t := by
  by_cases hi : i ∈ sequences
  · obtain rfl | hi := List.mem_cons.mp hi
    · exact execCompress_rel htrans (fun i hi _ _ => hs (by revert i; decide)) h
    · obtain rfl := List.mem_singleton.mp hi
      exact execDecompress_rel htrans (fun i hi _ _ => hs (by revert i; decide)) h
  · exact hs hi h

/-- Every instruction keeps the parameters, the source's bits, and what the sink held. -/
theorem exec_moves {i : Instr} {s t : State} (h : exec i s = .next t) : Moves paramFrame s t :=
  exec_rel Moves.trans exec_single_moves h

end Sys2Proof.Machine
end

section
/-! PROOFS. One step: the host's events, and what each leaves as it was. -/

namespace Sys2Proof.Machine

/-! ## Which event comes next -/

theorem step_waits {s : State} (h : s.host = []) : step s = .next s := by simp [step, nextEvent, h]

theorem step_read {s : State} {num : BitVec 4} {es : List HostEvent} (h : s.host = .read num :: es) :
    step s = .next (csrRead num (s.withHost es)) := by simp [step, nextEvent, h]

theorem step_command {s : State} {w : Word} {es : List HostEvent} (h : s.host = .write 0 w :: es) :
    step s = exec (decodeCommand w) (s.withHost es) := by simp [step, nextEvent, h]

theorem step_write {s : State} {num : BitVec 4} {data : Word} {es : List HostEvent}
    (h : s.host = .write num data :: es) (hn : num ≠ 0) : step s = .next (csrWrite num data (s.withHost es)) := by
  simp only [step, nextEvent, h, if_neg hn]

theorem step_line {s : State} {i : Instr} {es : List HostEvent} (h : s.host = .line i :: es) :
    step s = exec i (s.withHost es) := by simp [step, nextEvent, h]

theorem step_reset {s : State} {es : List HostEvent} (h : s.host = .reset :: es) :
    step s = .next (engineReset (s.withHost es)) := by simp [step, nextEvent, h]

theorem step_attach {s : State} {bits : List Bool} {es : List HostEvent} (h : s.host = .attach bits :: es) :
    step s = .next (attachStreams bits (s.withHost es)) := by simp [step, nextEvent, h]

/-! ## What the host's events leave -/

/-- The state with everything blank that a CSR access other than of `CMD` can touch. -/
def accessFrame (s : State) : State :=
  { s with ct := Vector.replicate 257 0, tsel := 0, host := [], rdata := 0, freeIx := 0 }

theorem csrRead_frame (num : BitVec 4) (s : State) :
    csrRead num s = (s.withRdata (csrRead num s).rdata).withFree (csrRead num s).freeIx := by
  unfold csrRead
  split <;> rfl

theorem csrWrite_frame (num : BitVec 4) (data : Word) (s : State) :
    csrWrite num data s = (s.withTsel (csrWrite num data s).tsel).withCt (csrWrite num data s).ct := by
  unfold csrWrite
  split
  · split <;> rfl
  · split <;> rfl
  · rfl

theorem csrRead_moves (num : BitVec 4) (s : State) : Moves accessFrame s (csrRead num s) := by
  rw [csrRead_frame]
  exact ⟨List.prefix_rfl, id, rfl⟩

theorem csrWrite_moves (num : BitVec 4) (data : Word) (s : State) : Moves accessFrame s (csrWrite num data s) := by
  rw [csrWrite_frame]
  exact ⟨List.prefix_rfl, id, rfl⟩

theorem withHost_moves (es : List HostEvent) (s : State) : Moves accessFrame s (s.withHost es) :=
  ⟨List.prefix_rfl, id, rfl⟩

/-- Reset leaves the streams, but that a call in flight may take effect (R211). -/
theorem settleInFlight_moves (s : State) : Moves encoderFrame s (settleInFlight s) := by
  have heffect : ∀ c, Moves encoderFrame s (callEffect c s) := by
    intro c
    cases c with
    | read n =>
      rw [callEffect, srcAfterRead]
      split
      · rename_i hn
        exact ⟨List.prefix_rfl, fun _ => hn, rfl⟩
      · exact ⟨List.prefix_rfl, fun _ => Nat.le_refl _, rfl⟩
    | rewind => exact ⟨List.prefix_rfl, fun _ => Nat.zero_le _, rfl⟩
    | write bits => exact ⟨List.prefix_append _ _, id, rfl⟩
  unfold settleInFlight
  split
  · exact moves_refl _ s
  · rename_i c _
    split
    · exact (heffect c).trans ⟨List.prefix_rfl, id, rfl⟩
    · exact ⟨List.prefix_rfl, id, rfl⟩

theorem engineReset_moves (s : State) : Moves paramFrame s (engineReset s) :=
  ((settleInFlight_moves s).mono fun _ => rfl).trans ⟨List.prefix_rfl, id, rfl⟩

/-- Attaching a stream pair changes the streams alone, and the source starts at its first bit (R51). -/
theorem attachStreams_cases (bits : List Bool) (s : State) :
    (s.seq = .busy ∧ attachStreams bits s = s) ∨ attachStreams bits s = s.withStreams bits := by
  unfold attachStreams
  split
  · exact .inl ⟨‹_›, rfl⟩
  · exact .inr rfl

/-! ## Everything a step can do -/

/-- It runs an instruction, waits or serves a CSR access, is a reset, or attaches streams. -/
theorem step_cases {s t : State} (h : step s = .next t) :
    (∃ i es, nextEvent s = .run i (s.withHost es) ∧ exec i (s.withHost es) = .next t) ∨ Moves accessFrame s t ∨
    (∃ es, s.host = .reset :: es ∧ t = engineReset (s.withHost es)) ∨
    (∃ bits es, s.host = .attach bits :: es ∧ t = attachStreams bits (s.withHost es)) := by
  match hh : s.host with
  | [] =>
    rw [step_waits hh] at h; cases h
    exact .inr (.inl (moves_refl _ _))
  | .read num :: es =>
    rw [step_read hh] at h; cases h
    exact .inr (.inl ((withHost_moves es s).trans (csrRead_moves num _)))
  | .write num data :: es =>
    by_cases hn : num = 0
    · subst hn
      rw [step_command hh] at h
      exact .inl ⟨_, es, by simp [nextEvent, hh], h⟩
    · rw [step_write hh hn] at h; cases h
      exact .inr (.inl ((withHost_moves es s).trans (csrWrite_moves num data _)))
  | .line i :: es =>
    rw [step_line hh] at h
    exact .inl ⟨i, es, by simp [nextEvent, hh], h⟩
  | .reset :: es =>
    rw [step_reset hh] at h; cases h
    exact .inr (.inr (.inl ⟨es, rfl, rfl⟩))
  | .attach bits :: es =>
    rw [step_attach hh] at h; cases h
    exact .inr (.inr (.inr ⟨bits, es, rfl, rfl⟩))

/-- Settles O58: every instruction and every event but attaching keeps the frame of the parameters and the source's
bits, and lets the sink only grow. -/
theorem streamsAndParametersAreKept : Obligations.StreamsAndParametersAreKept := by
  intro s t h
  -- a step within the frame keeps all of it
  have hkept : Moves paramFrame s t → t.magicTree = s.magicTree ∧ t.ioCanFail = s.ioCanFail ∧
      ((∀ bits es, s.host ≠ .attach bits :: es) → t.srcBits = s.srcBits ∧ s.snkBits <+: t.snkBits) := fun hm =>
    ⟨(congrArg State.magicTree hm.frame_eq :), (congrArg State.ioCanFail hm.frame_eq :),
      fun _ => ⟨(congrArg State.srcBits hm.frame_eq :), hm.sink⟩⟩
  have hhost : ∀ es, Moves paramFrame s (s.withHost es) := fun es => (withHost_moves es s).mono fun _ => rfl
  obtain ⟨i, es, -, hx⟩ | hm | ⟨es, -, rfl⟩ | ⟨bits, es, hes, rfl⟩ := step_cases h
  · exact hkept ((hhost es).trans (exec_moves hx))
  · exact hkept (hm.mono fun _ => rfl)
  · exact hkept ((hhost es).trans (engineReset_moves _))
  · obtain ⟨-, e⟩ | e := attachStreams_cases bits (s.withHost es) <;> rw [e] <;>
      exact ⟨rfl, rfl, fun hno => absurd hes (hno bits es)⟩

/-! ## The tree and the code table -/

/-- Every single instruction but BUILD, RDTREE and CLEAR leaves the tree as it was. -/
theorem exec_keeps_tree {i : Instr} {s t : State} (hi : i ∉ [Instr.build, .rdtree, .clear, .compress, .decompress])
    (h : exec i s = .next t) : Moves treeFrame s t := by
  cases i with
  | build | rdtree | clear | compress | decompress => simp at hi
  | gencodes => exact execGencodes_moves h
  | decode => exact (exec_keeps_tables (.inl rfl) h).mono fun _ => rfl
  | _ => exact (exec_keeps_tables (.inr (by simp [tableWriters])) h).mono fun _ => rfl

/-- Settles O59: no other instruction and no event but reset writes `NODE`, `ROOT` or `NNODES`. -/
theorem treesAreImmutable : Obligations.TreesAreImmutable := by
  intro s t h hreset hrun
  have hkept : Moves treeFrame s t → t.node = s.node ∧ t.root = s.root ∧ t.nnodes = s.nnodes := fun hm =>
    ⟨(congrArg State.node hm.frame_eq :), (congrArg State.root hm.frame_eq :), (congrArg State.nnodes hm.frame_eq :)⟩
  obtain ⟨i, es, hn, hx⟩ | hm | ⟨es, hes, -⟩ | ⟨bits, es, -, rfl⟩ := step_cases h
  · exact hkept (((withHost_moves es s).mono fun _ => rfl).trans (exec_keeps_tree (hrun i _ hn) hx))
  · exact hkept (hm.mono fun _ => rfl)
  · exact absurd hes (hreset es)
  · obtain ⟨-, e⟩ | e := attachStreams_cases bits (s.withHost es) <;> rw [e] <;> exact ⟨rfl, rfl, rfl⟩

/-- A code table still valid is the one that was there, and so is its tree (R34). -/
def CodesFollow (s t : State) : Prop := t.codesValid = true → tableFrame t = tableFrame s

theorem CodesFollow.trans {s t u : State} (h : CodesFollow s t) (h' : CodesFollow t u) : CodesFollow s u := fun hu =>
  have e := h' hu
  e.trans (h ((congrArg State.codesValid e :).symm.trans hu))

/-- A command whose pseudocode leaves no code table. -/
theorem codesFollow_of_dropped {op : BitVec 4} {p : Bool} {body : State → Res Unit} {s t : State}
    (hb : (body (s.withSeq .busy false)).Ends fun u => u.codesValid = false) (h : runCommand op p body s = .next t) :
    CodesFollow s t :=
  runCommand_ends h (fun _ => rfl) (fun _ _ _ hu => hu) (fun _ _ hu => hu) (fun _ _ hu => hu)
    (ends_mono hb fun u hu hc => by rw [hu] at hc; cases hc)

theorem exec_codesFollow {i : Instr} {s t : State} (hi : i ∉ [Instr.gencodes, .compress, .decompress])
    (h : exec i s = .next t) : CodesFollow s t := by
  cases i with
  | gencodes | compress | decompress => simp at hi
  | build => exact codesFollow_of_dropped (by rw [buildBody_eq]; rfl) h
  | rdtree => exact codesFollow_of_dropped (ends_mono (rdtreeBody_left _) fun _ h => h.codesValid) h
  | clear =>
    obtain ⟨-, rfl⟩ | ⟨-, rfl⟩ := execClear_cases h
    · exact fun _ => rfl
    · exact fun hc => by cases hc
  | decode => exact fun _ => (exec_keeps_tables (.inl rfl) h).frame_eq
  | _ => exact fun _ => (exec_keeps_tables (.inr (by simp [tableWriters])) h).frame_eq

/-- Settles O60: BUILD, RDTREE and CLEAR drop the code table, the other instructions leave it and its tree alone. -/
theorem codeTablesNeverOutliveTheirTree : Obligations.CodeTablesNeverOutliveTheirTree := by
  intro s t i h hc hg hcomp
  have hf : CodesFollow s t := by
    by_cases hi : i = .decompress
    · subst hi
      exact execDecompress_rel CodesFollow.trans (fun i hi _ _ => exec_codesFollow (by revert i; decide)) h
    · exact exec_codesFollow (by simp [hg, hcomp, hi]) h
  have e := hf hc
  exact ⟨(congrArg State.codesValid e :).symm.trans hc, (congrArg State.code e :), (congrArg State.node e :),
    (congrArg State.root e :), (congrArg State.nnodes e :)⟩

end Sys2Proof.Machine
end

section
/-! PROOFS. The invariants of the whole machine. -/

namespace Sys2Proof.Machine

/-! ## Their two parts -/

/-- What `Inv` says of `STATE`, `DONE`, `ERR` and the call in flight (R30 to R32, R216). -/
structure SequencerInv (s : State) : Prop where
  noErrRecorded : s.seq ≠ .error → s.err = ⟨0, 0, 0⟩
  errRecorded : s.seq = .error → 1 ≤ s.err.kind ∧ s.err.kind ≤ 8
  notDone : s.seq ≠ .idle → s.done = false
  waitsWhileBusy : s.inFlight.isSome = true ↔ s.seq = .busy

/-- What `Inv` says of the tables, of `CUR` and of the flags that vouch for the tables (R23, R24, R28, R29, R33,
R34). -/
structure TablesInv (s : State) : Prop where
  nnodesInArena : s.nnodes.toNat ≤ Config.nodeCap
  noRoot : s.treeValid = false → s.root = nil
  curInArena : s.cur.toNat < Config.nodeCap ∨ s.cur = nil
  tree : s.treeValid = true → TreeInv s
  codes : s.codesValid = true → CodesInv s

theorem inv_iff (s : State) :
    Inv s ↔ s.srcPos ≤ s.srcBits.length ∧ SequencerInv s ∧ TablesInv s :=
  ⟨fun ⟨a, b, c, d, e, f, g, h, i, j⟩ => ⟨a, ⟨b, c, d, e⟩, f, g, h, i, j⟩,
    fun ⟨a, ⟨b, c, d, e⟩, f, g, h, i, j⟩ => ⟨a, b, c, d, e, f, g, h, i, j⟩⟩

/-- Nothing but the tables of the tree and its codes, and the two flags. -/
def tablesOnly (s : State) : State := { tableFrame s with magicTree := 0, ioCanFail := false, srcBits := [] }

/-- The tables' part reads the tables, their flags and `CUR` alone. -/
theorem TablesInv.moved_cur {s t : State} (hs : TablesInv s) (hf : tablesOnly t = tablesOnly s)
    (hcur : t.cur.toNat < Config.nodeCap ∨ t.cur = nil) : TablesInv t := by
  have hn : t.node = s.node := (congrArg State.node hf :)
  have hr : t.root = s.root := (congrArg State.root hf :)
  have hc : t.nnodes = s.nnodes := (congrArg State.nnodes hf :)
  have hv : t.treeValid = s.treeValid := (congrArg State.treeValid hf :)
  have hcv : t.codesValid = s.codesValid := (congrArg State.codesValid hf :)
  have hcode : t.code = s.code := (congrArg State.code hf :)
  exact ⟨hc ▸ hs.nnodesInArena, fun h => hr.trans (hs.noRoot (hv.symm.trans h)), hcur,
    fun h => treeInv_congr hn hr hc (hs.tree (hv.symm.trans h)),
    fun h => codesInv_congr hn hr hc hv hcode (hs.codes (hcv.symm.trans h))⟩

theorem TablesInv.congr {s t : State} (hs : TablesInv s) (hf : tablesOnly t = tablesOnly s) (hcur : t.cur = s.cur) :
    TablesInv t := hs.moved_cur hf (by rw [hcur]; exact hs.curInArena)

/-- The sequencer's part reads four registers alone. -/
theorem SequencerInv.congr {s t : State} (hs : SequencerInv s) (hseq : t.seq = s.seq) (hdone : t.done = s.done)
    (herr : t.err = s.err) (hfl : t.inFlight = s.inFlight) : SequencerInv t := by
  obtain ⟨a, b, c, d⟩ := hs
  exact ⟨by rwa [hseq, herr], by rwa [hseq, herr], by rwa [hseq, hdone], by rwa [hseq, hfl]⟩

/-- The state with everything blank that the invariants do not read: `CT`, `TSEL`, the sink, the draws, the counter of
free values and the host's side. The source's position, blank too, `Moves` keeps within the source. -/
def invFrame (s : State) : State := accessFrame (workFrame s)

theorem inv_of_moves {s t : State} (hs : Inv s) (h : Moves invFrame s t) : Inv t := by
  obtain ⟨hp, hq, ht⟩ := (inv_iff s).mp hs
  have hf := h.frame_eq
  exact (inv_iff t).mpr ⟨h.pos hp, hq.congr (congrArg State.seq hf :) (congrArg State.done hf :)
    (congrArg State.err hf :) (congrArg State.inFlight hf :), ht.congr (congrArg tablesOnly hf :)
    (congrArg State.cur hf :)⟩

/-! ## From a pseudocode to its instruction -/

/-- In `IDLE` no error is recorded and no call is in flight. -/
theorem SequencerInv.of_idle {s : State} (hs : SequencerInv s) (h : s.seq = .idle) :
    s.err = ⟨0, 0, 0⟩ ∧ s.inFlight = none := by
  refine ⟨hs.noErrRecorded (by rw [h]; decide), ?_⟩
  have := hs.waitsWhileBusy
  rw [h] at this
  simpa using this

/-- A pseudocode run from this state keeps the tables' part, and touches nothing of the sequencer. -/
def KeepsTables (body : State → Res Unit) (s : State) : Prop :=
  TablesInv s → (body s).Ends fun t => Moves engineFrame s t ∧ TablesInv t

/-- The sequencer's four registers stand in the frame. -/
theorem Moves.sequencer {s t : State} (h : Moves engineFrame s t) :
    t.seq = s.seq ∧ t.done = s.done ∧ t.err = s.err ∧ t.inFlight = s.inFlight :=
  ⟨(congrArg State.seq h.frame_eq :), (congrArg State.done h.frame_eq :), (congrArg State.err h.frame_eq :),
    (congrArg State.inFlight h.frame_eq :)⟩

/-- The sequencer's registers are none of the tables' part. -/
theorem TablesInv.sequenced {s : State} (h : TablesInv s) (q : Seq) (d : Bool) (e : ErrReg) (c : Option PortCall) :
    TablesInv (((s.withSeq q d).withErr e).withInFlight c) := h.congr rfl rfl

/-! How an instruction leaves the engine: in `IDLE`, in `ERROR`, or waiting on a call. -/

theorem inv_idle {t : State} (hp : t.srcPos ≤ t.srcBits.length) (ht : TablesInv t) (hseq : t.seq = .idle)
    (herr : t.err = ⟨0, 0, 0⟩) (hfl : t.inFlight = none) : Inv t :=
  (inv_iff t).mpr ⟨hp, ⟨fun _ => herr, fun h => (by rw [hseq] at h; cases h), fun h => absurd hseq h,
    by simp [hseq, hfl]⟩, ht⟩

theorem inv_enterError (e : Err) {s : State} (hp : s.srcPos ≤ s.srcBits.length) (ht : TablesInv s)
    (hfl : s.inFlight = none) : Inv (enterError e s) :=
  (inv_iff _).mpr ⟨hp, ⟨fun h => absurd rfl h, fun _ => err_kind_range e, fun _ => rfl,
    by rw [enterError_eq]; simp [hfl]⟩, ht.sequenced .error false e.reg s.inFlight⟩

theorem inv_waiting {t : State} (hp : t.srcPos ≤ t.srcBits.length) (ht : TablesInv t) (hseq : t.seq = .busy)
    (hdone : t.done = false) (herr : t.err = ⟨0, 0, 0⟩) (hfl : t.inFlight.isSome = true) : Inv t :=
  (inv_iff t).mpr ⟨hp, ⟨fun _ => herr, fun h => (by rw [hseq] at h; cases h), fun _ => hdone,
    by simp [hseq, hfl]⟩, ht⟩

theorem runCommand_inv {op : BitVec 4} {p : Bool} {body : State → Res Unit} {s t : State} (hs : Inv s)
    (hb : p = true → KeepsTables body (s.withSeq .busy false)) (h : runCommand op p body s = .next t) : Inv t := by
  obtain ⟨hp, hq, ht⟩ := (inv_iff s).mp hs
  have hstart : ∀ q, TablesInv (s.withSeq q false) := fun q => ht.sequenced q false s.err s.inFlight
  obtain ⟨-, rfl⟩ | ⟨hi, -, rfl⟩ | ⟨hi, hpre, h⟩ := runCommand_cases h
  · exact hs
  · exact inv_enterError _ hp (hstart .idle) (hq.of_idle hi).2
  · obtain ⟨herr, hfl⟩ := hq.of_idle hi
    have hends := hb hpre (hstart .busy)
    obtain ⟨u, e, rfl⟩ | ⟨er, u, e, rfl⟩ | ⟨c, u, e, rfl⟩ := h
    all_goals
      rw [e] at hends
      obtain ⟨hm, htu⟩ := hends
      obtain ⟨hseq, hdone, herr', hfl'⟩ := hm.sequencer
    · exact inv_idle (hm.pos hp) (htu.sequenced .idle true u.err u.inFlight) rfl (herr'.trans herr) (hfl'.trans hfl)
    · exact inv_enterError er (hm.pos hp) htu (hfl'.trans hfl)
    · exact inv_waiting (hm.pos hp) (htu.sequenced u.seq u.done u.err (some c)) hseq hdone (herr'.trans herr) rfl

theorem runTransfer_inv {body : State → Res Unit} {s t : State} (hs : Inv s) (hb : KeepsTables body s)
    (h : runTransfer body s = .next t) : Inv t := by
  obtain ⟨hp, hq, ht⟩ := (inv_iff s).mp hs
  obtain ⟨-, rfl⟩ | ⟨hi, h⟩ := runTransfer_cases h
  · exact hs
  · obtain ⟨herr, hfl⟩ := hq.of_idle hi
    have hends := hb ht
    obtain e | ⟨er, u, e, rfl⟩ | ⟨c, u, e, rfl⟩ := h
    all_goals
      rw [e] at hends
      obtain ⟨hm, htu⟩ := hends
      obtain ⟨hseq, -, herr', hfl'⟩ := hm.sequencer
    · exact inv_idle (hm.pos hp) htu (hseq.trans hi) (herr'.trans herr) (hfl'.trans hfl)
    · exact inv_enterError er (hm.pos hp) htu (hfl'.trans hfl)
    · exact inv_waiting (hm.pos hp) (htu.sequenced .busy false u.err (some c)) rfl rfl (herr'.trans herr) rfl

/-! ## The pseudocodes keep the tables' part -/

theorem keepsTables_of_moves {body : State → Res Unit} {s : State} (hb : (body s).Ends (Moves workFrame s)) :
    KeepsTables body s := fun hs =>
  ends_mono hb fun _ h => ⟨h.engine, hs.congr (congrArg tablesOnly h.frame_eq :) (congrArg State.cur h.frame_eq :)⟩

/-- BUILD leaves a valid tree and no code table (R114). -/
theorem buildBody_keepsTables (s : State) : KeepsTables buildBody s := by
  intro hs
  obtain ⟨hm, hn, hl⟩ := buildMerges_spec (ctSet s.ct 256 1) s.node
  rw [buildBody_eq]
  -- the loop's result, opaque from here on, lest the unifier run it
  generalize buildMerges (ctSet s.ct 256 1) s.node = m at hm hn hl
  exact ⟨⟨List.prefix_rfl, id, rfl⟩, Nat.le_refl 513, fun h => (by cases h), hs.curInArena,
    fun _ => treeInv_of_merges hm hn hl rfl rfl rfl, fun h => (by cases h)⟩

/-- GENCODES on a valid tree makes its code table (R120, R28). -/
theorem gencodesBody_keepsTables {s : State} (hv : s.treeValid = true) : KeepsTables gencodesBody s := by
  intro hs
  have htree := hs.tree hv
  obtain ⟨T, hT⟩ := tree_of_inv htree
  obtain ⟨code, hw, hcode⟩ := walk_codeOf hT (treeAt_symbols htree hT)
  rw [gencodesBody, hw]
  exact ⟨⟨List.prefix_rfl, id, rfl⟩, hs.nnodesInArena, hs.noRoot, hs.curInArena,
    fun _ => treeInv_congr (s := s) rfl rfl rfl htree,
    fun _ => ⟨hv, T, hT ▸ tree_congr rfl rfl rfl, fun v _ => hcode v⟩⟩

theorem rdtreeBody_keepsTables (s : State) : KeepsTables rdtreeBody s := fun hs =>
  ends_mono (rdtreeBody_left s) fun _ h =>
    ⟨h.moves, h.nnodes, h.noRoot, by rw [h.cur]; exact hs.curInArena, h.tree,
      fun hc => by rw [h.codesValid] at hc; cases hc⟩

theorem ends_and {α : Type} {P Q : State → Prop} {r : Res α} (hP : r.Ends P) (hQ : r.Ends Q) :
    r.Ends fun s => P s ∧ Q s := by
  cases r with
  | ok a s => exact ⟨hP, hQ⟩
  | raised e s => exact ⟨hP, hQ⟩
  | waits c s => exact ⟨hP, hQ⟩
  | broken f => trivial

/-- DECODE on a valid tree moves `CUR` within it (R29). -/
theorem decodeBody_keepsTables {s : State} (hv : s.treeValid = true) : KeepsTables decodeBody s := by
  intro hs
  have hr := (hs.tree hv).rootLast
  have hn : s.nnodes.toNat ≤ 513 := hs.nnodesInArena
  have hroot : s.root.toNat < 513 := by omega
  refine ends_mono (ends_and (decodeBody_moves s) (decodeLoop_cur _ (s := s.withCur s.root) hn hroot hroot))
    fun t ⟨hm, hcur⟩ => ⟨hm.mono fun _ => rfl, hs.moved_cur (congrArg tablesOnly hm.frame_eq :) (.inl hcur)⟩

/-! ## Every step -/

/-- What CLEAR and reset leave of the tables. -/
theorem tablesInv_discardTables (s : State) : TablesInv (discardTables s) :=
  ⟨by simp [discardTables_eq], fun _ => rfl, .inr rfl, fun h => (by cases h), fun h => (by cases h)⟩

theorem engineReset_inv {s : State} (hp : s.srcPos ≤ s.srcBits.length) : Inv (engineReset s) :=
  inv_idle ((engineReset_moves s).pos hp) ((tablesInv_discardTables _).congr rfl rfl) rfl rfl rfl

theorem execClear_inv {s t : State} (hs : Inv s) (h : execClear s = .next t) : Inv t := by
  obtain ⟨-, rfl⟩ | ⟨hb, rfl⟩ := execClear_cases h
  · exact hs
  · have hfl : s.inFlight = none := by simpa [hb] using hs.waitsWhileBusy
    exact inv_idle hs.posInSource ((tablesInv_discardTables s).congr rfl rfl) rfl rfl hfl

theorem exec_single_inv {i : Instr} {s t : State} (hi : i ∉ sequences) (h : exec i s = .next t) (hs : Inv s) :
    Inv t := by
  by_cases hw : i ∈ tableWriters
  · cases i with
    | build => exact runCommand_inv hs (fun _ => buildBody_keepsTables _) h
    | gencodes => exact runCommand_inv hs (fun hv => gencodesBody_keepsTables hv) h
    | rdtree => exact runCommand_inv hs (fun _ => rdtreeBody_keepsTables _) h
    | decode => exact runCommand_inv hs (fun hv => decodeBody_keepsTables hv) h
    | clear => exact execClear_inv hs h
    | compress | decompress => simp [sequences] at hi
    | _ => simp [tableWriters] at hw
  · obtain ⟨body, hb, ⟨op, p, he⟩ | he⟩ := exec_of_not_tableWriter hw
    · exact runCommand_inv hs (fun _ => keepsTables_of_moves (hb _)) ((he s).symm.trans h)
    · exact runTransfer_inv hs (keepsTables_of_moves (hb s)) ((he s).symm.trans h)

theorem exec_inv {i : Instr} {s t : State} (h : exec i s = .next t) : Inv s → Inv t :=
  exec_rel (R := fun s t => Inv s → Inv t) (fun h h' => h' ∘ h) exec_single_inv h

/-- A source attached stands at its first bit (R51). -/
theorem attachStreams_inv (bits : List Bool) {s : State} (hs : Inv s) : Inv (attachStreams bits s) := by
  obtain ⟨-, e⟩ | e := attachStreams_cases bits s <;> rw [e]
  · exact hs
  obtain ⟨-, hq, ht⟩ := (inv_iff s).mp hs
  exact (inv_iff _).mpr ⟨Nat.zero_le _, hq.congr rfl rfl rfl rfl, ht.congr rfl rfl⟩

/-- Settles O56: instruction by instruction and event by event. -/
theorem stepKeepsTheInvariants : Obligations.StepKeepsTheInvariants := by
  intro s t hs h
  have hhost : ∀ es, Inv (s.withHost es) := fun es => inv_of_moves hs ((withHost_moves es s).mono fun _ => rfl)
  obtain ⟨i, es, -, hx⟩ | hm | ⟨es, -, rfl⟩ | ⟨bits, es, -, rfl⟩ := step_cases h
  · exact exec_inv hx (hhost es)
  · exact inv_of_moves hs (hm.mono fun _ => rfl)
  · exact engineReset_inv hs.posInSource
  · exact attachStreams_inv bits (hhost es)

/-- Settles O55: the reset state is what reset leaves of itself. -/
theorem resetMeetsTheInvariants : Obligations.ResetMeetsTheInvariants :=
  engineReset_inv (s := State.reset) (Nat.le_refl 0)

end Sys2Proof.Machine
end

section
/-! PROOFS. What a step runs, what reset leaves, what the CSRs show and take. -/

namespace Sys2Proof.Machine

/-! ## Running and reset -/

/-- Settles O5: one lemma per event says what comes next. -/
theorem stepRunsWhatTheHostPresents : Obligations.StepRunsWhatTheHostPresents := by
  intro s es
  refine ⟨fun w h => step_command h, fun i h => step_line h, fun nbits w i h => ?_, step_waits⟩
  have he : step (s.withFetchWord nbits w) = exec (decodeCommand (BitVec.ofNat 32 (w % 2 ^ nbits))) s :=
    step_command (es := s.host) rfl
  unfold decodeTableWord at h
  split at h
  · rw [he, Option.some.inj h]
  · cases h

/-- Settles O7: the reset state written out. -/
theorem resetStateHoldsTheSpecsValues : Obligations.ResetStateHoldsTheSpecsValues :=
  ⟨rfl, rfl, rfl, rfl, rfl, rfl, rfl, rfl, rfl, fun v _ => ctAt_replicate v⟩

/-- Settles O6: `discardTables` and the writes after it leave the reset values, `settleInFlight` moves the streams
alone, and only for a call in flight. -/
theorem resetLeavesTheResetValues : Obligations.ResetLeavesTheResetValues := by
  intro s es h
  have hf := (engineReset_moves (s.withHost es)).frame_eq
  refine ⟨_, step_reset h, rfl, rfl, rfl, rfl, rfl, rfl, rfl, rfl, rfl, rfl, fun v _ => ctAt_replicate v,
    (congrArg State.srcBits hf :), (congrArg State.magicTree hf :), (congrArg State.ioCanFail hf :), fun hnone => ?_⟩
  have hsettle : settleInFlight (s.withHost es) = s.withHost es := by
    rw [settleInFlight, State.withHost_inFlight, hnone]
  rw [engineReset, hsettle]
  exact ⟨rfl, rfl⟩

/-! ## CSR reads -/

/-- A read answers what the CSR holds, where that is specified. -/
theorem csrRead_rdata {num : BitVec 4} {s : State} {w : Word} (h : csrContents num s = .value w) :
    (csrRead num s).rdata = w := by rw [csrRead, h]; rfl

theorem csrRead_rdata_toNat {num : BitVec 4} {s : State} {n : Nat} {x : BitVec n} (hn : n ≤ 32)
    (h : csrContents num s = .value (x.setWidth 32)) : (csrRead num s).rdata.toNat = x.toNat := by
  rw [csrRead_rdata h]
  exact BitVec.toNat_setWidth_of_le hn

/-- `STATUS` shows the sequencer's state and the flags in bits 4:0 (R38). -/
theorem statusWord_fields (s : State) :
    ((statusWord s).extractLsb' 0 2).toNat = (match s.seq with | .idle => 0 | .busy => 1 | .error => 2) ∧
    (statusWord s).getLsbD 2 = s.done ∧ (statusWord s).getLsbD 3 = s.treeValid ∧
    (statusWord s).getLsbD 4 = s.codesValid ∧ (statusWord s).extractLsb' 5 27 = 0 := by
  unfold statusWord
  generalize s.done = d, s.treeValid = v, s.codesValid = c
  cases s.seq <;> revert d v c <;> decide

/-- A field above the last part of a concatenation is a field of what stands before it. -/
theorem extractLsb'_append_add {a b start n : Nat} (x : BitVec a) (y : BitVec b) :
    (x ++ y).extractLsb' (start + b) n = x.extractLsb' start n := by
  rw [BitVec.extractLsb'_append_eq_of_le (Nat.le_add_left ..), Nat.add_sub_cancel]

/-- The last part but one of a concatenation. -/
theorem extractLsb'_append_middle {a b c : Nat} (x : BitVec a) (y : BitVec b) (z : BitVec c) :
    (x ++ y ++ z).extractLsb' (0 + c) b = y :=
  (extractLsb'_append_add _ _).trans BitVec.extractLsb'_append_eq_right

/-- `ERR` shows `KIND`, `SUB`, `INFO` in bits 17:0 (R39). -/
theorem errWord_fields (s : State) :
    (errWord s).extractLsb' 0 4 = s.err.kind ∧ (errWord s).extractLsb' 4 4 = s.err.sub ∧
    (errWord s).extractLsb' 8 10 = s.err.info ∧ (errWord s).extractLsb' 18 14 = 0 := by
  have above (start n : Nat) : (errWord s).extractLsb' (start + 4 + 4) n = (0#14 ++ s.err.info).extractLsb' start n :=
    (extractLsb'_append_add _ _).trans (extractLsb'_append_add _ _)
  exact ⟨BitVec.extractLsb'_append_eq_right, extractLsb'_append_middle ..,
    (above 0 10).trans BitVec.extractLsb'_append_eq_right,
    (above 10 14).trans ((extractLsb'_append_add (start := 0) _ _).trans BitVec.extractLsb'_eq_self)⟩

/-- Numbers 11 to 15 read 0 (R36). -/
theorem csrContents_of_unused {num : BitVec 4} (s : State) (h : 11 ≤ num.toNat) : csrContents num s = .value 0 := by
  unfold csrContents
  split
  case h_11 => rfl
  all_goals omega

/-- Settles O9: each register's contents, and the fields of `STATUS` and `ERR`. -/
theorem csrReadsShowTheRegisters : Obligations.CsrReadsShowTheRegisters := by
  intro s num es h
  refine ⟨_, step_read h, csrRead_frame num _, ?_, ?_, ?_, ?_, ?_, ?_, ?_, ?_, ?_, ?_, ?_⟩
  · rintro rfl; exact csrRead_rdata rfl
  · rintro rfl; rw [csrRead_rdata rfl]; exact statusWord_fields s
  · rintro rfl; rw [csrRead_rdata rfl]; exact errWord_fields s
  · rintro rfl hb; exact csrRead_rdata_toNat (by decide) (if_neg hb)
  · rintro rfl hb; exact csrRead_rdata_toNat (by decide) (if_neg hb)
  · rintro rfl hb; exact csrRead_rdata_toNat (by decide) (if_neg hb)
  · rintro rfl; exact csrRead_rdata rfl
  · rintro rfl; exact csrRead_rdata_toNat (by decide) rfl
  · rintro rfl; exact csrRead_rdata (by rfl)
  · rintro rfl; exact csrRead_rdata (by rfl)
  · exact fun hn => csrRead_rdata (csrContents_of_unused _ hn)

/-! ## The table window -/

theorem tsel_fields {s : State} {tbl : BitVec 2} {idx : BitVec 10} {word : BitVec 4} (h : s.tsel = word ++ idx ++ tbl) :
    tselTbl s = tbl ∧ tselIdx s = idx ∧ tselWord s = word := by
  rw [tselTbl, tselIdx, tselWord, h]
  exact ⟨BitVec.extractLsb'_append_eq_right, extractLsb'_append_middle ..,
    (extractLsb'_append_add (start := 0 + 10) _ _).trans
      ((extractLsb'_append_add (start := 0) _ _).trans BitVec.extractLsb'_eq_self)⟩

theorem windowWord_count {s : State} (ht : tselTbl s = 0) (hi : (tselIdx s).toNat ≤ 256) (hw : tselWord s = 0) :
    windowWord s = .value (ctAt s.ct (tselIdx s).toNat) := by
  simp [windowWord, ht, hi, hw]

theorem windowWord_node {s : State} {n : Node} (ht : tselTbl s = 1) (hv : s.treeValid = true)
    (hn : nodeAt s (tselIdx s) = some n) (hw : (tselWord s).toNat ≤ 2) :
    windowWord s = .value (nodeWord n (tselWord s).toNat) := by
  have hi : (tselIdx s).toNat ≤ 512 := by
    have := (Vector.getElem?_eq_some_iff.mp (nodeAt_eq_some.mp hn).2).1
    omega
  simp [windowWord, ht, hi, hw, hv, hn]

theorem windowWord_code {s : State} (ht : tselTbl s = 2) (hv : s.codesValid = true) (hi : (tselIdx s).toNat ≤ 256)
    (hw : (tselWord s).toNat ≤ 8) :
    windowWord s = .value (codeWord (codeAt s.code (tselIdx s).toNat) (tselWord s).toNat) := by
  simp [windowWord, ht, hi, hw, hv]

/-- A selection that names no word reads as 0 (R42). -/
theorem windowWord_outside {s : State} (h : tselTbl s = 3 ∨
    (tselTbl s = 0 ∧ (256 < (tselIdx s).toNat ∨ tselWord s ≠ 0)) ∨
    (tselTbl s = 1 ∧ (512 < (tselIdx s).toNat ∨ 2 < (tselWord s).toNat)) ∨
    (tselTbl s = 2 ∧ (256 < (tselIdx s).toNat ∨ 8 < (tselWord s).toNat))) : windowWord s = .value 0 := by
  have hzero : tselWord s ≠ 0 ↔ (tselWord s).toNat ≠ 0 := by simp [← BitVec.toNat_inj]
  rw [hzero] at h
  obtain ht | ⟨ht, h⟩ | ⟨ht, h⟩ | ⟨ht, h⟩ := h <;> rw [windowWord, ht]
  · rfl
  · exact if_neg (by omega)
  · exact if_neg (by omega)
  · exact if_neg (by omega)

/-- Word 2 of a record shows its links, its value and its kind (R42). -/
theorem nodeWord_two_fields (n : Node) :
    (nodeWord n 2).extractLsb' 0 10 = n.right ∧ (nodeWord n 2).extractLsb' 10 10 = n.left ∧
    (nodeWord n 2).extractLsb' 20 9 = n.value ∧ (nodeWord n 2).getLsbD 29 = n.leaf ∧
    (nodeWord n 2).extractLsb' 30 2 = 0 := by
  have above (start m : Nat) : (nodeWord n 2).extractLsb' (start + 10 + 10) m =
      (0#2 ++ BitVec.ofBool n.leaf ++ n.value).extractLsb' start m :=
    (extractLsb'_append_add _ _).trans (extractLsb'_append_add _ _)
  have hleaf : (nodeWord n 2).extractLsb' 29 1 = BitVec.ofBool n.leaf :=
    (above 9 1).trans (extractLsb'_append_middle ..)
  refine ⟨BitVec.extractLsb'_append_eq_right, extractLsb'_append_middle ..,
    (above 0 9).trans BitVec.extractLsb'_append_eq_right, by simpa using congrArg (·.getLsbD 0) hleaf, ?_⟩
  exact (above 10 2).trans ((extractLsb'_append_add (start := 1) _ _).trans
    ((extractLsb'_append_add (start := 0) _ _).trans BitVec.extractLsb'_eq_self))

/-- Settles O10: the window's words table by table, and 0 outside. -/
theorem tableWindowShowsTheSelectedWord : Obligations.TableWindowShowsTheSelectedWord := by
  intro s tbl idx word es h hsel hb
  obtain ⟨rfl, rfl, rfl⟩ := tsel_fields hsel
  have hread : ∀ w, windowWord (s.withHost es) = .value w → (csrRead 8 (s.withHost es)).rdata = w := fun w hw =>
    csrRead_rdata ((if_neg hb).trans hw)
  refine ⟨_, step_read h, csrRead_frame 8 _, fun ht hi hw => hread _ (windowWord_count ht hi hw), ?_, ?_,
    fun hout => hread _ (windowWord_outside hout)⟩
  · intro ht hv n hn
    have hword : ∀ k ≤ 2, (tselWord s).toNat = k → (csrRead 8 (s.withHost es)).rdata = nodeWord n k := by
      rintro k hk rfl
      exact hread _ (windowWord_node ht hv hn hk)
    refine ⟨fun hw => hword 0 (by decide) (by rw [hw]; rfl), fun hw => ?_, fun hw => ?_⟩
    · rw [hword 1 (by decide) (by rw [hw]; rfl)]
      exact BitVec.toNat_setWidth_of_le (by decide)
    · rw [hword 2 (by decide) (by rw [hw]; rfl)]
      exact nodeWord_two_fields n
  · intro ht hv hi
    have hword : ∀ k ≤ 8, (tselWord s).toNat = k →
        (csrRead 8 (s.withHost es)).rdata = codeWord (codeAt s.code (tselIdx s).toNat) k := by
      rintro k hk rfl
      exact hread _ (windowWord_code ht hv hi hk)
    refine ⟨fun hw => ?_, fun j hj hj7 => hword (j + 1) (by omega) hj⟩
    rw [hword 0 (by decide) (by rw [hw]; rfl)]
    exact BitVec.toNat_setWidth_of_le (by decide)

/-! ## CSR writes -/

theorem csrWrite_seven (data : Word) (s : State) :
    csrWrite 7 data s = if s.seq = .busy then s else s.withTsel (data.extractLsb' 0 16) := rfl

theorem csrWrite_eight (data : Word) (s : State) :
    csrWrite 8 data s =
      if s.seq = .idle ∧ tselTbl s = 0 ∧ tselIdx s ≤ 256 ∧ tselWord s = 0 then
        s.withCt (ctSet s.ct (tselIdx s).toNat data) else s := rfl

/-- Every other number but 0 ignores the write (R36). -/
theorem csrWrite_of_ignored {num : BitVec 4} (data : Word) (s : State) (h7 : num ≠ 7) (h8 : num ≠ 8) :
    csrWrite num data s = s := by
  unfold csrWrite
  split
  · exact absurd (BitVec.eq_of_toNat_eq ‹_›) h7
  · exact absurd (BitVec.eq_of_toNat_eq ‹_›) h8
  · rfl

/-- A write changes `TSEL` only as number 7, unless `BUSY` (R43). -/
theorem csrWrite_tsel (num : BitVec 4) (data : Word) (s : State) :
    (csrWrite num data s).tsel = if num = 7 ∧ s.seq ≠ .busy then data.extractLsb' 0 16 else s.tsel := by
  by_cases h7 : num = 7
  · subst h7
    rw [csrWrite_seven]
    by_cases hb : s.seq = .busy <;> simp [hb]
  rw [if_neg fun h => h7 h.1]
  by_cases h8 : num = 8
  · subst h8
    rw [csrWrite_eight]
    split <;> rfl
  · rw [csrWrite_of_ignored data s h7 h8]

/-- A write changes an entry of `CT` only as number 8, in `IDLE`, and only the entry `TSEL` selects (R41). -/
theorem csrWrite_ct (num : BitVec 4) (data : Word) (s : State) (v : Nat) (hv : v ≤ 256) :
    ctAt (csrWrite num data s).ct v =
      if num = 8 ∧ s.seq = .idle ∧ tselTbl s = 0 ∧ tselWord s = 0 ∧ (tselIdx s).toNat = v then data
      else ctAt s.ct v := by
  by_cases h8 : num = 8
  · subst h8
    rw [csrWrite_eight]
    split
    · rename_i h
      obtain ⟨hi, ht, hx, hw⟩ := h
      rw [State.withCt_ct, ctAt_ctSet _ _ _ _ (Nat.lt_succ_of_le (BitVec.le_def.mp hx))]
      simp [hi, ht, hw, eq_comm]
    · rename_i h
      refine (if_neg fun ⟨_, hi, ht, hw, hx⟩ => h ⟨hi, ht, BitVec.le_def.mpr ?_, hw⟩).symm
      exact hx.trans_le hv
  rw [if_neg fun h => h8 h.1]
  by_cases h7 : num = 7
  · subst h7
    rw [csrWrite_seven]
    split <;> rfl
  · rw [csrWrite_of_ignored data s h7 h8]

/-- Settles O11: the write's frame, and what it makes of `TSEL` and of each count. -/
theorem csrWritesReachTselAndCountsOnly : Obligations.CsrWritesReachTselAndCountsOnly := by
  intro s num data es h hn
  exact ⟨_, step_write h hn, csrWrite_frame num data _, csrWrite_tsel num data _,
    fun v hv => csrWrite_ct num data _ v hv⟩

end Sys2Proof.Machine
end

section
/-! PROOFS. The frames of the instructions: what each leaves as it was besides the sequencer's own registers. -/

namespace Sys2Proof.Machine

/-! ## The sequencer's registers -/

/-- `ERR` is written only on the way into `ERROR`, the call in flight only on the way into `BUSY` (R170, R225). -/
structure SequencerKept (s t : State) : Prop where
  err : t.seq ≠ .error → t.err = s.err
  inFlight : t.seq ≠ .busy → t.inFlight = s.inFlight

theorem sequencerKept_refl (s : State) : SequencerKept s s := ⟨fun _ => rfl, fun _ => rfl⟩

/-- Entering `ERROR` leaves the call in flight. -/
theorem sequencerKept_enterError (e : Err) {s u : State} (h : u.inFlight = s.inFlight) :
    SequencerKept s (enterError e u) := ⟨fun hne => absurd rfl hne, fun _ => h⟩

/-- Waiting on a call leaves `ERR`. -/
theorem sequencerKept_waiting {s t : State} (hseq : t.seq = .busy) (herr : t.err = s.err) : SequencerKept s t :=
  ⟨fun _ => herr, fun hne => absurd hseq hne⟩

/-- The rule for a command, whatever tables its pseudocode writes. -/
theorem runCommand_sequencerKept {op : BitVec 4} {p : Bool} {body : State → Res Unit} {s t : State}
    (hb : ∀ u, (body u).Ends (Moves engineFrame u)) (h : runCommand op p body s = .next t) : SequencerKept s t := by
  obtain ⟨-, rfl⟩ | ⟨-, -, rfl⟩ | ⟨-, -, h⟩ := runCommand_cases h
  · exact sequencerKept_refl _
  · exact sequencerKept_enterError _ rfl
  have hm := hb (s.withSeq .busy false)
  obtain ⟨u, e, rfl⟩ | ⟨er, u, e, rfl⟩ | ⟨c, u, e, rfl⟩ := h
  all_goals
    rw [e] at hm
    obtain ⟨hseq, -, herr, hfl⟩ := hm.sequencer
  · exact ⟨fun _ => herr, fun _ => hfl⟩
  · exact sequencerKept_enterError er hfl
  · exact sequencerKept_waiting hseq herr

/-- The rule for a transfer. -/
theorem runTransfer_sequencerKept {body : State → Res Unit} {s t : State}
    (hb : (body s).Ends (Moves engineFrame s)) (h : runTransfer body s = .next t) : SequencerKept s t := by
  obtain ⟨-, rfl⟩ | ⟨-, h⟩ := runTransfer_cases h
  · exact sequencerKept_refl _
  obtain e | ⟨er, u, e, rfl⟩ | ⟨c, u, e, rfl⟩ := h
  all_goals
    rw [e] at hb
    obtain ⟨-, -, herr, hfl⟩ := hb.sequencer
  · exact ⟨fun _ => herr, fun _ => hfl⟩
  · exact sequencerKept_enterError er hfl
  · exact sequencerKept_waiting rfl herr

theorem exec_sequencerKept {i : Instr} {s t : State} (hi : i ∉ tableWriters) (h : exec i s = .next t) :
    SequencerKept s t := by
  obtain ⟨body, hb, ⟨op, p, he⟩ | he⟩ := exec_of_not_tableWriter hi
  all_goals
    rw [he] at h
    have hb' : ∀ u, (body u).Ends (Moves engineFrame u) := fun u => ends_mono (hb u) fun _ h => h.engine
  · exact runCommand_sequencerKept hb' h
  · exact runTransfer_sequencerKept (hb' s) h

/-! ## The sink writers -/

/-- The state with the sequencer's own registers blank: `STATE`, `DONE`, `ERR` and the call in flight. -/
def unsequenced (s : State) : State := ((s.withSeq .idle false).withErr ⟨0, 0, 0⟩).withInFlight none

/-- The state with everything blank that ENCODE can touch: the sequencer's registers, the streams' movement, the draws
and the counter of free values. -/
def encodeCommandFrame (s : State) : State := unsequenced (encoderFrame s)

/-- The state with everything blank that an instruction which only writes the sink can touch: the source's position
stands. -/
def sinkFrame (s : State) : State := unsequenced { s with snkBits := [], draws := [], freeIx := 0 }

theorem sinkGrew_moves {s t : State} (h : SinkGrew s t) : Moves sinkFrame s t :=
  have hm := moves_sink h
  ⟨hm.sink, hm.pos, (congrArg sinkFrame h.2).trans rfl⟩

theorem putLeaf_grew (v : Sym) (s : State) : (putLeaf v s).Ends (SinkGrew s) :=
  ends_andThen (put_grew 1#1 s) (fun _ h => h) fun _ t _ ht => ends_mono (put_grew v t) fun _ => sinkGrew_trans ht

/-- The instructions that make sink calls only: WRMAGIC, WRTREE and the stream elements (R74 to R82, R130, R132). -/
def writesSinkOnly : Instr → Bool
  | .wrmagic | .wrtree | .streamMagic | .streamHeaderInternal | .streamHeaderLeaf _ | .streamBodyCode _
  | .streamBodyPseudoEof _ | .streamWord _ => true
  | _ => false

/-- Each of them is a command or a transfer whose pseudocode touches the sink alone. -/
theorem exec_of_writesSinkOnly {i : Instr} (hi : writesSinkOnly i = true) :
    ∃ body : State → Res Unit, (∀ s, (body s).Ends (SinkGrew s)) ∧
      ((∃ (op : BitVec 4) (p : State → Bool), ∀ s, exec i s = runCommand op (p s) body s) ∨
        ∀ s, exec i s = runTransfer body s) := by
  cases i with
  | wrmagic => exact ⟨putMagic, fun s => put_grew _ s, .inl ⟨4, fun _ => true, fun _ => rfl⟩⟩
  | wrtree => exact ⟨wrtreeBody, fun s => putTree_grew _ _ s, .inl ⟨5, State.treeValid, fun _ => rfl⟩⟩
  | streamMagic => exact ⟨putMagic, fun s => put_grew _ s, .inr fun _ => rfl⟩
  | streamHeaderInternal => exact ⟨_, put_grew _, .inr fun _ => rfl⟩
  | streamHeaderLeaf v =>
    refine ⟨_, fun s => ?_, .inr fun _ => rfl⟩
    split
    · exact putLeaf_grew v s
    · exact sinkGrew_refl s
  | streamBodyCode c | streamBodyPseudoEof c => exact ⟨_, putBits_grew c, .inr fun _ => rfl⟩
  | streamWord w => exact ⟨_, put_grew w, .inr fun _ => rfl⟩
  | _ => cases hi

theorem exec_writesSinkOnly_moves {i : Instr} {s t : State} (hi : writesSinkOnly i = true) (h : exec i s = .next t) :
    Moves sinkFrame s t := by
  obtain ⟨body, hb, ⟨op, p, he⟩ | he⟩ := exec_of_writesSinkOnly hi
  all_goals
    rw [he] at h
    have hb' : ∀ u, (body u).Ends (Moves sinkFrame u) := fun u => ends_mono (hb u) fun _ => sinkGrew_moves
  · exact runCommand_moves (fun _ _ _ _ _ => rfl) hb' h
  · exact runTransfer_moves (fun _ _ _ _ _ => rfl) (hb' s) h

theorem execEncode_moves {s t : State} (h : execEncode s = .next t) : Moves encodeCommandFrame s t :=
  runCommand_moves (fun _ _ _ _ _ => rfl)
    (fun u => ends_mono (encodeLoop_moved _ u) fun _ ⟨⟨added, ha⟩, hp, hf⟩ =>
      ⟨⟨added, ha.symm⟩, hp, congrArg unsequenced hf⟩) h

/-- ENCODE and the sink's writers leave ENCODE's frame; all but ENCODE the source's position too. -/
theorem exec_sinkWriter_moves {i : Instr} {s t : State} (hi : i = .encode ∨ writesSinkOnly i = true)
    (h : exec i s = .next t) : Moves encodeCommandFrame s t ∧ (i ≠ .encode → t.srcPos = s.srcPos) := by
  obtain rfl | hi := hi
  · exact ⟨execEncode_moves h, fun hne => absurd rfl hne⟩
  · have hm := exec_writesSinkOnly_moves hi h
    exact ⟨hm.mono fun _ => rfl, fun _ => (congrArg State.srcPos hm.frame_eq :)⟩

theorem not_tableWriter_of_sinkWriter {i : Instr} (hi : i = .encode ∨ writesSinkOnly i = true) :
    i ∉ tableWriters := by
  obtain rfl | hi := hi
  · decide
  · intro hw
    have hno : ∀ j ∈ tableWriters, writesSinkOnly j = false := by decide
    rw [hno i hw] at hi
    cases hi

/-- Settles O53: the sink's writers and ENCODE keep their frame, and the sequencer writes `ERR` and the call in flight
only on its way into `ERROR` and `BUSY`. -/
theorem frameOfTheSinkWriters : Obligations.FrameOfTheSinkWriters := by
  intro s t i hi h
  have hw : i = .encode ∨ writesSinkOnly i = true := by
    obtain hi | ⟨v, rfl⟩ | ⟨c, rfl⟩ | ⟨c, rfl⟩ | ⟨w, rfl⟩ := hi
    · clear h; revert i; decide
    all_goals exact .inr rfl
  obtain ⟨hm, hpos⟩ := exec_sinkWriter_moves hw h
  obtain ⟨herr, hfl⟩ := exec_sequencerKept (not_tableWriter_of_sinkWriter hw) h
  have hf := hm.frame_eq
  exact ⟨(congrArg State.ct hf :), (congrArg State.node hf :), (congrArg State.root hf :), (congrArg State.nnodes hf :),
    (congrArg State.code hf :), (congrArg State.cur hf :), (congrArg State.treeValid hf :),
    (congrArg State.codesValid hf :), (congrArg State.tsel hf :), (congrArg State.magicTree hf :),
    (congrArg State.ioCanFail hf :), (congrArg State.srcBits hf :), hpos, (congrArg State.host hf :),
    (congrArg State.rdata hf :), herr, hfl, hm.sink⟩

end Sys2Proof.Machine
end

section
/-! PROOFS. The encodings: decoding what is encoded, and what the encoded elements and reserved opcodes do. -/

namespace Sys2Proof.Machine

/-! ## Command words -/

/-- The `OP` field is bits 3:0 (R70). -/
theorem and_fifteen_eq_opField (w : Word) : w &&& 0xF = (w.extractLsb' 0 4).setWidth 32 := by
  apply BitVec.eq_of_toNat_eq
  rw [BitVec.toNat_and, BitVec.toNat_setWidth, BitVec.extractLsb'_toNat, Nat.shiftRight_zero,
    show (0xF : Word).toNat = 2 ^ 4 - 1 from rfl, Nat.and_two_pow_sub_one_eq_mod]
  omega

/-- A word presents what its bits 3:0 alone present. -/
theorem decodeCommand_and_fifteen (w : Word) : decodeCommand (w &&& 0xF) = decodeCommand w := by
  have h : (w &&& 0xF).extractLsb' 0 4 = w.extractLsb' 0 4 := by
    rw [and_fifteen_eq_opField]
    exact BitVec.eq_of_toNat_eq (by simp)
  rw [decodeCommand, h, decodeCommand]

/-- The word the table gives for what a word presents is that word with its ignored bits cleared (R71, R72). -/
theorem commandWords_decodeCommand (w : Word) : (decodeCommand w).commandWords = [w &&& 0xF] := by
  have rows : ∀ op : BitVec 4, (decodeCommand (op.setWidth 32)).commandWords = [op.setWidth 32] := by decide
  rw [← decodeCommand_and_fifteen, and_fifteen_eq_opField, rows]

/-- The rows of the opcode table, one word each (R71, R72). -/
theorem commandWords_of_isCommand {i : Instr} (hi : isCommand i = true) :
    ∃ c, i.commandWords = [c] ∧ decodeCommand c = i ∧ ∀ magic, encode magic i = binBits c := by
  cases i with
  | compress | decompress | streamMagic | streamHeaderInternal | streamHeaderLeaf | streamBodyCode
  | streamBodyPseudoEof | streamWord => cases hi
  | _ => exact ⟨_, rfl, rfl, fun _ => List.append_nil _⟩

/-- Settles O1: decoding reads bits 3:0 alone, and gives back the row whose word they are. -/
theorem commandWordPresentsItsOpcode : Obligations.CommandWordPresentsItsOpcode := by
  intro i c w hi hc
  obtain ⟨c', hc', hdec, -⟩ := commandWords_of_isCommand hi
  obtain rfl : c' = c := List.singleton_inj.mp (hc'.symm.trans hc)
  constructor
  · rintro rfl
    rw [← decodeCommand_and_fifteen, hdec]
  · rintro rfl
    exact List.singleton_inj.mp ((commandWords_decodeCommand w).symm.trans hc)

/-! ## The decoder at each place -/

theorem decode_command_binBits (magic c : Word) (rest : List Bool) :
    decode .command magic (binBits c ++ rest) = .ok (decodeCommand c, rest) := by
  simp [decode, takeBits_append]

theorem decode_magic_binBits (magic m : Word) (rest : List Bool) :
    decode .magic magic (binBits m ++ rest) = if m = magic then .ok (.streamMagic, rest) else .error .notMagic := by
  simp [decode, takeBits_append]

theorem decodeHeader_leaf (v : Sym) (rest : List Bool) :
    decodeHeader (true :: (binBits v ++ rest)) =
      if v ≤ pseudoEof then .ok (.streamHeaderLeaf v, rest) else .error .reservedSymbol := by
  simp [decodeHeader, takeBits_append]

theorem decode_word_binBits (magic : Word) (w : Byte) (rest : List Bool) :
    decode .word magic (binBits w ++ rest) = .ok (.streamWord w, rest) := by
  simp [decode, takeBits_append]

/-- Under a prefix-free book the entry found is the one whose code was written: the codes of both are the beginning of
the same bits, so one is the beginning of the other (R80). -/
theorem decodeCode_append {book : List (List Bool × Sym)} {c : List Bool} {v : Sym} (hfree : PrefixFree book)
    (hmem : (c, v) ∈ book) (hc : c ≠ []) (rest : List Bool) :
    decodeCode book (c ++ rest) =
      .ok (if v = pseudoEof then .streamBodyPseudoEof c else .streamBodyCode c, rest) := by
  have hfind : book.find? (fun e => !e.1.isEmpty && e.1.isPrefixOf (c ++ rest)) = some (c, v) := by
    cases hf : book.find? fun e => !e.1.isEmpty && e.1.isPrefixOf (c ++ rest) with
    | none => simpa [hc] using List.find?_eq_none.mp hf _ hmem
    | some e =>
      have he := List.mem_of_find?_eq_some hf
      have hpre : e.1 <+: c ++ rest := by
        have := List.find?_some hf
        simp only [Bool.and_eq_true] at this
        exact List.isPrefixOf_iff_prefix.mp this.2
      obtain h | h := List.prefix_or_prefix_of_prefix hpre (List.prefix_append c rest)
      · rw [hfree e he _ hmem h]
      · rw [hfree _ hmem e he h]
  simp [decodeCode, hfind]

/-- Settles O2: place by place; at a command the rows of the opcode table, in the body the prefix-free book. -/
theorem decodeInvertsEncode : Obligations.DecodeInvertsEncode := by
  intro magic i place rest hwf hplace
  have nonempty : ∀ {c : List Bool}, codeLengthOk c → c ≠ [] := fun h => List.ne_nil_of_length_pos h.1
  cases i with
  | streamMagic => subst hplace; exact (decode_magic_binBits magic magic rest).trans (if_pos rfl)
  | streamHeaderInternal => subst hplace; rfl
  | streamHeaderLeaf v => subst hplace; exact (decodeHeader_leaf v rest).trans (if_pos (of_decide_eq_true hwf))
  | streamBodyCode c =>
    obtain ⟨book, v, rfl, hfree, hmem, hv⟩ := hplace
    exact (decodeCode_append hfree hmem (nonempty (of_decide_eq_true hwf)) rest).trans (by rw [if_neg hv])
  | streamBodyPseudoEof c =>
    obtain ⟨book, rfl, hfree, hmem⟩ := hplace
    exact decodeCode_append hfree hmem (nonempty (of_decide_eq_true hwf)) rest
  | streamWord w => subst hplace; exact decode_word_binBits magic w rest
  | _ =>
    obtain ⟨hi, rfl⟩ := hplace
    obtain ⟨c, -, hdec, henc⟩ := commandWords_of_isCommand hi
    rw [henc, decode_command_binBits, hdec]

/-- Settles O3: the two tests the decoder makes of a field it has read. -/
theorem reservedStreamFieldsAreRejected : Obligations.ReservedStreamFieldsAreRejected := by
  intro magic m v rest
  exact ⟨fun hv => (decodeHeader_leaf v rest).trans (if_neg (Nat.not_le_of_lt hv)),
    fun hm => (decode_magic_binBits magic m rest).trans (if_neg hm)⟩

/-- Settles O4: `0xFFFFFFF2` by its bits 3:0, the leaf as the written-out token of symbol 65, the rest row by row. -/
theorem writtenOutWordsDecode : Obligations.WrittenOutWordsDecode :=
  ⟨rfl, (commandWordPresentsItsOpcode .build 2 _ rfl rfl).mp (by decide), rfl, rfl, rfl, rfl, rfl,
    decodeHeader_leaf 65 [], rfl, rfl⟩

/-! ## What reserved opcodes and stream elements do -/

theorem runTransfer_ok {body : State → Res Unit} {s t : State} (h : s.seq = .idle) (hb : body s = .ok () t) :
    runTransfer body s = .next t := by simp only [runTransfer, h, hb]

theorem runTransfer_raised {body : State → Res Unit} {e : Err} {s t : State} (h : s.seq = .idle)
    (hb : body s = .raised e t) : runTransfer body s = .next (enterError e t) := by
  simp only [runTransfer, h, hb]

/-- A reserved opcode raises its error in the state it is presented in (R72, R187). -/
theorem runIllegal_idle {s : State} (op : BitVec 4) (h : s.seq = .idle) :
    runIllegal op s = .next { s with seq := .error, done := false, err := ⟨8, 0, op.setWidth 10⟩ } := by
  rw [runIllegal_eq]
  exact runTransfer_raised h rfl

/-- Settles O14: each reserved opcode is presented as an illegal command. -/
theorem reservedOpcodesRaiseIllegalCommand : Obligations.ReservedOpcodesRaiseIllegalCommand := by
  intro s hs p hp
  simp only [List.mem_cons, List.not_mem_nil, or_false] at hp
  obtain rfl | rfl | rfl | rfl | rfl := hp
  · exact runIllegal_idle 0 hs
  · exact runIllegal_idle 12 hs
  · exact runIllegal_idle 13 hs
  · exact runIllegal_idle 14 hs
  · exact runIllegal_idle 15 hs

/-- A leaf's token on a sink that answers: its 10 bits in two writes (R76). -/
theorem putLeaf_answered (v : Sym) {s : State} (h : s.PortsAnswer) :
    putLeaf v s = .ok () ((s.withDraws (s.draws.drop 2)).withSnk (s.snkBits ++ true :: binBits v)) := by
  rw [putLeaf, put_answered _ h, andThen_ok, put_answered _ (by exact portsAnswer_tail h)]
  simp [State.withDraws, State.withSnk, ← List.drop_one, binBits]

theorem execStreamHeaderLeaf_of_symbol {v : Sym} (hv : v ≤ pseudoEof) (s : State) :
    execStreamHeaderLeaf v s = runTransfer (putLeaf v) s := by
  simp only [execStreamHeaderLeaf, if_pos hv]

/-- No bit of a reserved leaf value is written (R77). -/
theorem execStreamHeaderLeaf_of_reserved {v : Sym} (hv : ¬ v ≤ pseudoEof) (s : State) :
    execStreamHeaderLeaf v s = runTransfer (.raised (symbolReserved v)) s := by
  simp only [execStreamHeaderLeaf, if_neg hv]

/-- Settles O47: the writes of each element on a sink that answers, and the symbol test of a leaf. -/
theorem elementsAppendTheirBits : Obligations.ElementsAppendTheirBits := by
  rintro s ⟨hidle, hports⟩
  refine ⟨runTransfer_ok hidle (put_answered _ hports), runTransfer_ok hidle (put_answered 0#1 hports),
    fun v hv => ?_, fun v hv => ?_, fun c => runTransfer_ok hidle (putBits_answered c hports),
    fun c => runTransfer_ok hidle (putBits_answered c hports), fun w => runTransfer_ok hidle (put_answered w hports)⟩
  · exact (execStreamHeaderLeaf_of_symbol hv s).trans (runTransfer_ok hidle (putLeaf_answered v hports))
  · exact (execStreamHeaderLeaf_of_reserved (Nat.not_le_of_lt hv) s).trans (runTransfer_raised hidle rfl)

end Sys2Proof.Machine
end

section
/-! PROOFS. COUNT's results, and the frames of the operations that make source calls only. -/

namespace Sys2Proof.Machine

/-! ## Counting -/

/-- COUNT's pseudocode on ports that answer counts from a cleared table (R100, R101, R102). -/
theorem countBody_answered {s : State} (h : s.PortsAnswer) :
    ∃ ds, (∃ ct, countAll (Vector.replicate 257 0) (wordsOf s.unread) = .ok ct ∧
        countBody s = .ok () (((s.withCt ct).withSrcPos s.srcBits.length).withDraws ds)) ∨
      (∃ b n ct, countAll (Vector.replicate 257 0) (wordsOf s.unread) = .error (b, n, ct) ∧
        countBody s = .raised (countFull b) (((s.withCt ct).withSrcPos (s.srcPos + 8 * n)).withDraws ds)) :=
  countLoop_answered _ (s.withCt (Vector.replicate 257 0)) h (Nat.lt_succ_of_le (Nat.le_of_eq (unread_length s)))

/-- In a cleared table a word's count is its occurrences. -/
theorem ctAt_cleared_add (b : Byte) (n : Nat) : (ctAt (Vector.replicate 257 0) b.toNat).toNat + n = n := by simp

/-- Where no word occurs `2^32` times, COUNT's pseudocode runs to its end and leaves exact counts (R100, R103). -/
theorem countBody_completes {s : State} (h : s.PortsAnswer) (hc : ∀ b : Byte, (wordsOf s.unread).count b < 2 ^ 32) :
    ∃ t, countBody s = .ok () t ∧ t.srcPos = s.srcBits.length ∧
      (∀ b : Byte, (ctAt t.ct b.toNat).toNat = (wordsOf s.unread).count b) ∧ ctAt t.ct 256 = 0 := by
  obtain ⟨ct, hall, hcounts, heof⟩ := countAll_counts (wordsOf s.unread) (Vector.replicate 257 0)
    fun b => by rw [ctAt_cleared_add]; exact hc b
  obtain ⟨ds, ⟨ct', hok, hbody⟩ | ⟨b, n, ct', herr, -⟩⟩ := countBody_answered h
  · obtain rfl : ct = ct' := Except.ok.inj (hall.symm.trans hok)
    exact ⟨_, hbody, rfl, fun b => (hcounts b).trans (ctAt_cleared_add b _), heof.trans (ctAt_replicate 256)⟩
  · cases hall.symm.trans herr

/-- At a word whose count is full COUNT's pseudocode raises its error, just past the word and with the words before it
counted (R102, R103). -/
theorem countBody_overflows {s : State} {pre post : List Byte} {b : Byte} (h : s.PortsAnswer)
    (hw : wordsOf s.unread = pre ++ b :: post) (hfull : pre.count b = 2 ^ 32 - 1)
    (hc : ∀ c : Byte, pre.count c < 2 ^ 32) :
    ∃ t, countBody s = .raised (countFull b) t ∧ t.srcPos = s.srcPos + 8 * (pre.length + 1) ∧
      ∀ c : Byte, (ctAt t.ct c.toNat).toNat = pre.count c := by
  obtain ⟨ct, hall, hcounts⟩ := countAll_full pre post b (Vector.replicate 257 0)
    (fun c => by rw [ctAt_cleared_add]; exact hc c) (by rw [ctAt_cleared_add]; exact hfull)
  rw [← hw] at hall
  obtain ⟨ds, ⟨ct', hok, -⟩ | ⟨b', n, ct', herr, hbody⟩⟩ := countBody_answered h
  · cases hall.symm.trans hok
  · cases hall.symm.trans herr
    exact ⟨_, hbody, rfl, fun c => (hcounts c).trans (ctAt_cleared_add c _)⟩

/-- Settles O20: COUNT's pseudocode runs to its end with exact counts, and so the command completes. -/
theorem countCountsEveryWord : Obligations.CountCountsEveryWord := by
  rintro s ⟨hidle, hports⟩ hc
  obtain ⟨t, hbody, hpos, hcounts, heof⟩ := countBody_completes (s := s.withSeq .busy false) hports hc
  exact ⟨_, runCommand_ok hidle rfl hbody, ⟨rfl, rfl⟩, hpos, hcounts, heof⟩

/-- Settles O21: COUNT's pseudocode raises the overflow at the word whose count is full, and so the command fails. -/
theorem fullCountRaisesOverflow : Obligations.FullCountRaisesOverflow := by
  rintro s pre post b ⟨hidle, hports⟩ hw hfull hc
  obtain ⟨t, hbody, hpos, hcounts⟩ := countBody_overflows (s := s.withSeq .busy false) hports hw hfull hc
  exact ⟨_, runCommand_raised hidle rfl hbody, ⟨rfl, rfl, rfl⟩, hpos, hcounts⟩

/-! ## The frame of the source's readers -/

/-- The state with everything blank that RDMAGIC and REWIND can touch: the sequencer's registers, the source's
position, the draws and the counter of free values. -/
def sourceFrame (s : State) : State := unsequenced { s with srcPos := 0, draws := [], freeIx := 0 }

/-- That, and `CT`: everything COUNT can touch. -/
def countCommandFrame (s : State) : State := unsequenced (countFrame s)

theorem sourceMoved_moves {s t : State} (h : SourceMoved s t) : Moves sourceFrame s t :=
  moves_of_frame ((congrArg sourceFrame h.1).trans rfl) h.2 fun _ => rfl

theorem rdmagicBody_moved (s : State) : (rdmagicBody s).Ends (SourceMoved s) := by
  refine readField_ends (fun _ h => h) (fun _ h => h) fun m t ht => ?_
  split <;> exact ht

theorem rewindBody_moved (s : State) : (rewindBody s).Ends (SourceMoved s) := by
  refine ends_andThen (srcRewind_moved s) (fun _ h => h) fun a t _ ht => ?_
  cases a <;> exact ht

theorem execCount_moves {s t : State} (h : execCount s = .next t) : Moves countCommandFrame s t :=
  runCommand_moves (body := countBody) (fun _ _ _ _ _ => rfl)
    (fun _ => ends_mono (countLoop_moved _ _) fun _ ⟨hframe, hpos⟩ =>
      moves_of_frame (congrArg unsequenced hframe) hpos fun _ => rfl) h

/-- A command whose pseudocode makes source calls only moves nothing but the source. -/
theorem runCommand_sourceMoves {op : BitVec 4} {p : Bool} {body : State → Res Unit} {s t : State}
    (hb : ∀ u, (body u).Ends (SourceMoved u)) (h : runCommand op p body s = .next t) : Moves sourceFrame s t :=
  runCommand_moves (fun _ _ _ _ _ => rfl) (fun u => ends_mono (hb u) fun _ => sourceMoved_moves) h

/-- COUNT, RDMAGIC and REWIND leave COUNT's frame; all but COUNT `CT` too. -/
theorem exec_sourceReader_moves {i : Instr} {s t : State} (hi : i ∈ [Instr.count, .rdmagic, .rewind])
    (h : exec i s = .next t) : Moves countCommandFrame s t ∧ (i ≠ .count → t.ct = s.ct) := by
  have hsource (hm : Moves sourceFrame s t) : Moves countCommandFrame s t ∧ (i ≠ .count → t.ct = s.ct) :=
    ⟨hm.mono fun _ => rfl, fun _ => (congrArg State.ct hm.frame_eq :)⟩
  simp only [List.mem_cons, List.not_mem_nil, or_false] at hi
  obtain rfl | rfl | rfl := hi
  · exact ⟨execCount_moves h, fun hne => absurd rfl hne⟩
  · exact hsource (runCommand_sourceMoves rdmagicBody_moved h)
  · exact hsource (runCommand_sourceMoves rewindBody_moved h)

/-- Settles O51: the source's readers keep their frame, and the sequencer writes `ERR` and the call in flight only on
its way into `ERROR` and `BUSY`. -/
theorem frameOfCountRdmagicRewind : Obligations.FrameOfCountRdmagicRewind := by
  intro s t i hi h
  have hread : i ∉ tableWriters := by clear h; revert i; decide
  obtain ⟨hm, hct⟩ := exec_sourceReader_moves hi h
  obtain ⟨herr, hfl⟩ := exec_sequencerKept hread h
  have hf := hm.frame_eq
  exact ⟨(congrArg State.node hf :), (congrArg State.root hf :), (congrArg State.nnodes hf :),
    (congrArg State.code hf :), (congrArg State.cur hf :), (congrArg State.treeValid hf :),
    (congrArg State.codesValid hf :), (congrArg State.tsel hf :), (congrArg State.magicTree hf :),
    (congrArg State.ioCanFail hf :), (congrArg State.srcBits hf :), (congrArg State.snkBits hf :),
    (congrArg State.host hf :), (congrArg State.rdata hf :), herr, hfl, hct⟩

end Sys2Proof.Machine
end

section
/-! PROOFS. BUILD: what it leaves behind (R114), on what it depends (R117), and its frame, with GENCODES's. -/

namespace Sys2Proof.Machine

/-! ## The order -/

/-- Settles O22: `less` compares the weights, then the indices, as natural numbers. -/
theorem mergeOrderIsStrictTotal : Obligations.MergeOrderIsStrictTotal := by
  refine ⟨fun a b => ?_, fun a => ?_, fun a b c => less_trans, fun a b hne => ?_⟩
  · rw [less_iff, BitVec.toNat_inj]
  · simp [less]
  · cases h : less a b with
    | true => exact .inl rfl
    | false => exact .inr (less_total hne h)

/-! ## What BUILD leaves -/

/-- The counts after BUILD: the pseudo-EOF's is forced to 1 (R111). -/
abbrev builtCounts (s : State) : Vector Word 257 := ctSet s.ct 256 1

/-- What BUILD leaves of an `IDLE` state (R110). -/
structure Built (s t : State) : Prop where
  completed : t.Completed
  treeValid : t.treeValid = true
  codesValid : t.codesValid = false
  nnodes : t.nnodes = 513
  root : t.root = 512
  ct : t.ct = builtCounts s
  node : t.node = (buildMerges (builtCounts s) s.node).node

theorem exec_build {s : State} (h : s.seq = .idle) : ∃ t, exec .build s = .next t ∧ Built s t :=
  ⟨_, runCommand_ok h rfl (buildBody_eq _), by constructor <;> simp [State.Completed, builtCounts]⟩

theorem built_of_exec {s t : State} (h : s.seq = .idle) (he : exec .build s = .next t) : Built s t := by
  obtain ⟨t', he', hB⟩ := exec_build h
  cases he.symm.trans he'
  exact hB

section
variable {s t : State} (h : Built s t)
include h

/-- The records BUILD leaves, with the root alone in `live`, are where its loop ends. -/
theorem Built.merges :
    ∃ w, MergeInv (builtCounts s) (totalCount (builtCounts s)) { node := t.node, live := [(w, 512)], next := 513 } := by
  obtain ⟨hm, hn, w, hl⟩ := buildMerges_spec (builtCounts s) s.node
  have hnode := h.node
  -- the loop's result, opaque from here on, lest the unifier run it
  generalize buildMerges (builtCounts s) s.node = m at hm hn hl hnode
  obtain ⟨node, live, next⟩ := m
  cases hn
  cases hl
  exact ⟨w, hnode ▸ hm⟩

theorem Built.nodeAt_eq_some {k : NodeIx} {n : Node} :
    nodeAt t k = some n ↔ k.toNat < 513 ∧ t.node[k.toNat]? = some n := by
  rw [Machine.nodeAt_eq_some, h.nnodes]
  rfl

/-- `NODE[0..256]` are the leaves (R114, item 2). -/
theorem Built.leaf {k : NodeIx} (hk : k.toNat ≤ 256) :
    nodeAt t k = some ⟨true, k.setWidth 9, (ctAt (builtCounts s) k.toNat).setWidth 41, nil, nil⟩ := by
  obtain ⟨w, hm⟩ := h.merges
  have hl := hm.leaves k.toNat (by omega)
  rw [buildLeaf, leafNode, BitVec.ofNat_toNat] at hl
  exact h.nodeAt_eq_some.mpr ⟨by omega, hl⟩

/-- `NODE[257..512]` are the merges (R114, item 3). -/
theorem Built.internal {k : NodeIx} (h1 : 257 ≤ k.toNat) (h2 : k.toNat ≤ 512) :
    ∃ w l r a b, nodeAt t k = some (internalNode w l r) ∧ l.toNat < k.toNat ∧ r.toNat < k.toNat ∧
      nodeAt t l = some a ∧ nodeAt t r = some b ∧ less (a.weight, l) (b.weight, r) = true ∧
      w.toNat = a.weight.toNat + b.weight.toNat ∧
      ∀ (j : NodeIx) c, j.toNat < k.toNat → nodeAt t j = some c → NoChild t.node k.toNat j.toNat →
        j = l ∨ j = r ∨ (less (a.weight, l) (c.weight, j) = true ∧ less (b.weight, r) (c.weight, j) = true) := by
  obtain ⟨w0, hm⟩ := h.merges
  obtain ⟨w, l, r, a, b, hk, hl, hr, ha, hb, hab, hw, hleast⟩ := hm.internals k.toNat h1 (Nat.lt_succ_of_le h2)
  refine ⟨w, l, r, a, b, h.nodeAt_eq_some.mpr ⟨by omega, hk⟩, hl, hr, h.nodeAt_eq_some.mpr ⟨by omega, ha⟩,
    h.nodeAt_eq_some.mpr ⟨by omega, hb⟩, hab, hw, fun j c hj hc hno => ?_⟩
  simpa only [BitVec.toNat_inj, BitVec.ofNat_toNat, BitVec.setWidth_eq] using
    hleast j.toNat c hj (h.nodeAt_eq_some.mp hc).2 hno

/-- Every index has at most one parent (R114, item 3). -/
theorem Built.parent_unique {j p q : NodeIx} {n n' : Node} (hp : 257 ≤ p.toNat) (hn : nodeAt t p = some n)
    (hj : n.left = j ∨ n.right = j) (hq : 257 ≤ q.toNat) (hn' : nodeAt t q = some n')
    (hj' : n'.left = j ∨ n'.right = j) : p.toNat = q.toNat := by
  obtain ⟨w, hm⟩ := h.merges
  obtain ⟨hp', hn⟩ := h.nodeAt_eq_some.mp hn
  obtain ⟨hq', hn'⟩ := h.nodeAt_eq_some.mp hn'
  exact hm.oneParent j.toNat _ _ n n' hp hp' hn (hj.imp (congrArg _) (congrArg _)) hq hq' hn'
    (hj'.imp (congrArg _) (congrArg _))

theorem Built.rising {j k : NodeIx} {m n : Node} (hj : 257 ≤ j.toNat) (hjk : j.toNat ≤ k.toNat)
    (hm : nodeAt t j = some m) (hn : nodeAt t k = some n) : m.weight.toNat ≤ n.weight.toNat := by
  obtain ⟨w, hinv⟩ := h.merges
  obtain ⟨hk, hn⟩ := h.nodeAt_eq_some.mp hn
  exact hinv.rising _ _ m n hj hjk hk (h.nodeAt_eq_some.mp hm).2 hn

/-- The root weighs what all the leaves weigh (R114, item 4). -/
theorem Built.root_weight :
    ∃ n, nodeAt t t.root = some n ∧ n.weight.toNat = totalCount (builtCounts s) := by
  obtain ⟨w, hm⟩ := h.merges
  obtain ⟨hlt, n, hn, hw⟩ := hm.weighed (w, 512) (List.mem_singleton.mpr rfl)
  refine ⟨n, h.nodeAt_eq_some.mpr (by rw [h.root]; exact ⟨hlt, hn⟩), ?_⟩
  rw [hw, ← hm.sum]
  simp

/-- A record no earlier merge has as its child, in the terms of the loop's invariant. -/
theorem Built.noChild {k j : NodeIx} (hk : k.toNat ≤ 513)
    (hno : ∀ (p : NodeIx) (m : Node), 257 ≤ p.toNat → p.toNat < k.toNat → nodeAt t p = some m →
      m.left ≠ j ∧ m.right ≠ j) : NoChild t.node k.toNat j.toNat := by
  intro p n h1 h2 hn
  have hp : (BitVec.ofNat 10 p).toNat = p := by simp only [BitVec.toNat_ofNat]; omega
  obtain ⟨hl, hr⟩ := hno (BitVec.ofNat 10 p) n (by omega) (by omega)
    (h.nodeAt_eq_some.mpr (by rw [hp]; exact ⟨by omega, hn⟩))
  exact ⟨fun e => hl (BitVec.eq_of_toNat_eq e), fun e => hr (BitVec.eq_of_toNat_eq e)⟩

end

theorem ctAt_builtCounts {s : State} {v : Nat} (hv : v ≤ 255) : ctAt (builtCounts s) v = ctAt s.ct v :=
  ctAt_ctSet_of_ne _ _ _ _ (by omega)

theorem totalCount_builtCounts (s : State) :
    totalCount (builtCounts s) = ((List.range 256).map fun v => (ctAt s.ct v).toNat).sum + 1 := by
  have hbytes : (List.range 256).map (fun v => (ctAt (builtCounts s) v).toNat) =
      (List.range 256).map fun v => (ctAt s.ct v).toNat :=
    List.map_congr_left fun v hv => by rw [ctAt_builtCounts (Nat.le_of_lt_succ (List.mem_range.mp hv))]
  rw [totalCount, List.range_succ, List.map_append, List.sum_append, hbytes]
  simp

/-- Settles O23: the invariant of the merge loop gives the leaves and, for each merge, its children. -/
theorem buildMakesAllLeavesAndMerges : Obligations.BuildMakesAllLeavesAndMerges := by
  intro s hs
  obtain ⟨t, he, h⟩ := exec_build hs
  refine ⟨t, he, h.completed, h.treeValid, h.codesValid, h.nnodes, h.root, fun k hk => ?_, ?_, fun k h1 h2 => ?_, ?_,
    fun v hv => ?_⟩
  · rw [h.leaf (by omega), ctAt_builtCounts hk]
  · rw [h.leaf (k := 256) (Nat.le_refl 256)]
    simp
  · obtain ⟨w, l, r, a, b, hk, hl, hr, ha, hb, hab, hw, -⟩ := h.internal h1 h2
    exact ⟨w, l, r, a, b, hk, hl, hr, ha, hb, hab, hw⟩
  · rw [h.ct, ctAt_ctSet_self _ _ _ (by decide)]
  · rw [h.ct, ctAt_builtCounts hv]

/-- Settles O24: an earlier node with the same child would be a second parent, and the loop's invariant says that a
node not yet merged is one of the two taken or greater. -/
theorem buildMergesTheTwoLeast : Obligations.BuildMergesTheTwoLeast := by
  intro s t hs he k n h1 hk
  have h := built_of_exec hs he
  have h2 := (h.nodeAt_eq_some.mp hk).1
  constructor
  · intro p m hp hpk hm
    have hne : ∀ j, n.left = j ∨ n.right = j → ¬ (m.left = j ∨ m.right = j) := fun j hj hj' =>
      absurd (h.parent_unique hp hm hj' h1 hk hj) (by omega)
    have hl := hne n.left (.inl rfl)
    have hr := hne n.right (.inr rfl)
    push Not at hl hr
    exact ⟨hl.1, hl.2, hr.1, hr.2⟩
  · intro j a b c hj ha hb hc hno
    obtain ⟨w, l, r, a', b', hk', -, -, ha', hb', -, -, hleast⟩ := h.internal h1 (by omega)
    cases hk.symm.trans hk'
    cases ha.symm.trans ha'
    cases hb.symm.trans hb'
    exact hleast j c hj hc (h.noChild (by omega) hno)

/-- Settles O25: the sum of the weights of the live nodes is kept by every merge. -/
theorem buildConservesWeight : Obligations.BuildConservesWeight := by
  intro s hs
  obtain ⟨t, he, h⟩ := exec_build hs
  obtain ⟨n, hn, hw⟩ := h.root_weight
  exact ⟨t, n, he, hn, hw.trans (totalCount_builtCounts s)⟩

/-- Settles O26: a merge takes two nodes no lighter than those the merge before it took. -/
theorem buildWeightsRise : Obligations.BuildWeightsRise :=
  fun _ _ hs he _ _ _ _ hj hjk hm hn => (built_of_exec hs he).rising hj hjk hm hn

/-! ## On what the tree depends -/

/-- The loop's states agree but for the records not made yet. -/
structure MadeAlike (m m' : Merging) : Prop where
  live : m.live = m'.live
  next : m.next = m'.next
  node : ∀ k, k < m.next.toNat → m.node[k]? = m'.node[k]?

/-- One pass makes the same record in both. -/
theorem MadeAlike.merged {m m' : Merging} (h : MadeAlike m m') (a b : Live) (rest : List Live) :
    MadeAlike (merged m a b rest) (merged m' a b rest) := by
  refine ⟨by simp only [Machine.merged, h.next], by simp only [Machine.merged, h.next], fun k hk => ?_⟩
  have hk : k < m.next.toNat + 1 := by
    simp only [Machine.merged, BitVec.toNat_add] at hk
    exact Nat.lt_of_lt_of_le hk (Nat.mod_le _ _)
  simp only [Machine.merged, nodeSet, ← h.next, Vector.getElem?_setIfInBounds]
  split
  · rfl
  · exact h.node k (by omega)

theorem MadeAlike.mergeLoop (fuel : Nat) {m m' : Merging} (h : MadeAlike m m') :
    MadeAlike (mergeLoop fuel m) (mergeLoop fuel m') := by
  induction fuel generalizing m m' with
  | zero => exact h
  | succ fuel ih =>
    rw [Machine.mergeLoop, Machine.mergeLoop, ← h.live]
    split
    · rename_i a b rest _
      exact ih (h.merged a b rest)
    · exact h

/-- What `NODE` held before BUILD is all overwritten. -/
theorem buildMerges_node_eq (ct : Vector Word 257) (node node' : Vector Node 513) :
    (buildMerges ct node).node = (buildMerges ct node').node := by
  have hstart : MadeAlike { node := buildLeaves ct node, live := initialLive ct, next := 257 }
      { node := buildLeaves ct node', live := initialLive ct, next := 257 } :=
    ⟨rfl, rfl, fun k hk => by rw [buildLeaves_get ct node k hk, buildLeaves_get ct node' k hk]⟩
  have h : MadeAlike (buildMerges ct node) (buildMerges ct node') := hstart.mergeLoop 257
  have hn := (buildMerges_spec ct node).2.1
  refine Vector.ext fun k hk => Option.some_inj.mp ?_
  rw [← Vector.getElem?_eq_getElem hk, ← Vector.getElem?_eq_getElem hk]
  exact h.node k (by rw [hn]; exact hk)

theorem ctAt_eq_getElem (ct : Vector Word 257) {v : Nat} (hv : v < 257) : ctAt ct v = ct[v] := by simp [ctAt, hv]

theorem builtCounts_congr {s s' : State} (h : ∀ v, v ≤ 255 → ctAt s.ct v = ctAt s'.ct v) :
    builtCounts s = builtCounts s' := by
  refine Vector.ext fun v hv => ?_
  rw [← ctAt_eq_getElem _ hv, ← ctAt_eq_getElem _ hv]
  by_cases hv' : v ≤ 255
  · rw [ctAt_builtCounts hv', ctAt_builtCounts hv', h v hv']
  · rw [show v = 256 by omega, ctAt_ctSet_self _ _ _ (by decide), ctAt_ctSet_self _ _ _ (by decide)]

/-- Settles O27: the counts BUILD works on are the same, and it overwrites every record. -/
theorem buildDependsOnTheByteCountsOnly : Obligations.BuildDependsOnTheByteCountsOnly := by
  intro s s' t t' hs hs' hct he he'
  have h := built_of_exec hs he
  have h' := built_of_exec hs' he'
  refine ⟨?_, h.root.trans h'.root.symm, h.nnodes.trans h'.nnodes.symm⟩
  rw [h.node, h'.node, builtCounts_congr hct]
  exact buildMerges_node_eq _ _ _

/-! ## The frames of BUILD and GENCODES -/

@[simp] theorem ctSet_ctSet (ct : Vector Word 257) (v : Nat) (w w' : Word) :
    ctSet (ctSet ct v w) v w' = ctSet ct v w' := Vector.setIfInBounds_setIfInBounds w

/-- The state with everything blank that BUILD can touch: the sequencer's registers, the tree, the flags and
`CT[256]`. -/
def buildFrame (s : State) : State :=
  unsequenced { s with
    ct := ctSet s.ct 256 0, node := Vector.replicate 513 State.blankNode, root := 0, nnodes := 0
    treeValid := false, codesValid := false }

/-- The state with everything blank that GENCODES can touch: the sequencer's registers, `CODE` and `CODES_VALID`. -/
def gencodesFrame (s : State) : State :=
  unsequenced ((s.withCode (Vector.replicate 257 State.blankCode)).withValid s.treeValid false)

/-- The rule for a command whose pseudocode makes no port call: besides its frame it keeps `ERR` outside `ERROR`, and
the call in flight. -/
theorem runCommand_quiet {frame : State → State} {op : BitVec 4} {p : Bool} {body : State → Res Unit} {s t : State}
    (hf : Blind frame) (hb : ∀ u, (body u).Ends fun v => Moves frame u v ∧ Moves engineFrame u v)
    (hquiet : ∀ u c v, body u ≠ .waits c v) (h : runCommand op p body s = .next t) :
    frame t = frame s ∧ (t.seq ≠ .error → t.err = s.err) ∧ t.inFlight = s.inFlight := by
  have hkept : SequencerKept s t := runCommand_sequencerKept (fun u => ends_mono (hb u) fun _ hv => hv.2) h
  refine ⟨(runCommand_moves hf (fun u => ends_mono (hb u) fun _ hv => hv.1) h).frame_eq, hkept.err, ?_⟩
  obtain ⟨-, rfl⟩ | ⟨-, -, rfl⟩ | ⟨-, -, ⟨u, -, rfl⟩ | ⟨e, u, -, rfl⟩ | ⟨c, u, hw, -⟩⟩ := runCommand_cases h
  · rfl
  · rfl
  · exact hkept.inFlight (by simp)
  · exact hkept.inFlight (by simp [enterError])
  · exact absurd hw (hquiet _ c u)

theorem execBuild_quiet {s t : State} (h : execBuild s = .next t) :
    buildFrame t = buildFrame s ∧ (t.seq ≠ .error → t.err = s.err) ∧ t.inFlight = s.inFlight := by
  refine runCommand_quiet (fun _ _ _ _ _ => rfl) (fun u => ?_) (fun u c v => ?_) h
  · have hmoves := buildBody_moves u
    rw [buildBody_eq] at hmoves ⊢
    exact ⟨⟨hmoves.sink, hmoves.pos, by simp [buildFrame]⟩, hmoves⟩
  · rw [buildBody_eq]
    exact fun hw => by cases hw

theorem execGencodes_quiet {s t : State} (h : execGencodes s = .next t) :
    gencodesFrame t = gencodesFrame s ∧ (t.seq ≠ .error → t.err = s.err) ∧ t.inFlight = s.inFlight := by
  refine runCommand_quiet (fun _ _ _ _ _ => rfl) (fun u => ?_) (fun u c v => ?_) h
  all_goals
    unfold gencodesBody
    split
  · trivial
  · exact ⟨⟨List.prefix_rfl, id, rfl⟩, ⟨List.prefix_rfl, id, rfl⟩⟩
  · exact fun hw => by cases hw
  · exact fun hw => by cases hw

/-- The state with everything blank that either of them can touch. -/
def buildGencodesFrame (s : State) : State := { buildFrame s with code := Vector.replicate 257 State.blankCode }

/-- Both leave the common frame, BUILD the code table too, GENCODES the counts and the tree. -/
theorem exec_buildGencodes_quiet {i : Instr} {s t : State} (hi : i ∈ [Instr.build, .gencodes])
    (h : exec i s = .next t) :
    (buildGencodesFrame t = buildGencodesFrame s ∧ (t.seq ≠ .error → t.err = s.err) ∧ t.inFlight = s.inFlight) ∧
      (i = .build → t.code = s.code) ∧
      (i = .gencodes → t.ct = s.ct ∧ t.node = s.node ∧ t.root = s.root ∧ t.nnodes = s.nnodes ∧
        t.treeValid = s.treeValid) := by
  simp only [List.mem_cons, List.not_mem_nil, or_false] at hi
  obtain rfl | rfl := hi
  · obtain ⟨hf, hkept⟩ := execBuild_quiet h
    exact ⟨⟨(congrArg (fun u => { u with code := Vector.replicate 257 State.blankCode }) hf :), hkept⟩,
      fun _ => (congrArg State.code hf :), fun hi => (by cases hi)⟩
  · obtain ⟨hf, hkept⟩ := execGencodes_quiet h
    exact ⟨⟨(congrArg buildGencodesFrame hf :), hkept⟩, fun hi => (by cases hi), fun _ => ⟨(congrArg State.ct hf :),
      (congrArg State.node hf :), (congrArg State.root hf :), (congrArg State.nnodes hf :),
      (congrArg State.treeValid hf :)⟩⟩

/-- Settles O52: each keeps its frame, and as neither waits on a port the call in flight is as it was. -/
theorem frameOfBuildGencodes : Obligations.FrameOfBuildGencodes := by
  intro s t i hi h
  obtain ⟨⟨hf, herr, hfl⟩, hbuild, hgencodes⟩ := exec_buildGencodes_quiet hi h
  have hct : ctSet t.ct 256 0 = ctSet s.ct 256 0 := (congrArg State.ct hf :)
  have hbytes (v : Nat) (hv : v ≤ 255) : ctAt t.ct v = ctAt s.ct v := by
    have hne : v ≠ 256 := by omega
    rw [← ctAt_ctSet_of_ne t.ct 256 v 0 hne, hct, ctAt_ctSet_of_ne s.ct 256 v 0 hne]
  exact ⟨(congrArg State.cur hf :), (congrArg State.tsel hf :), hfl, (congrArg State.magicTree hf :),
    (congrArg State.ioCanFail hf :), (congrArg State.srcBits hf :), (congrArg State.srcPos hf :),
    (congrArg State.snkBits hf :), (congrArg State.draws hf :), (congrArg State.host hf :),
    (congrArg State.rdata hf :), (congrArg State.freeIx hf :), herr, hbytes, hbuild, hgencodes⟩

end Sys2Proof.Machine
end

section
/-! PROOFS. GENCODES: the register image of a path (R121), the leaves of a tree and their codes (R122 to R125). -/

namespace Sys2Proof.Machine

/-! ## The register image of a path -/

theorem codeOfPath_getLsbD {p : List Bool} (hp : p.length ≤ 256) (i : Nat) :
    (codeOfPath p).bits.getLsbD i = (bitsVal p).testBit i := by
  rw [codeOfPath, ofBits, BitVec.getLsbD_ofNat]
  by_cases hi : i < 256
  · simp [hi]
  · have hlt : bitsVal p < 2 ^ i := (bitsVal_lt p).trans_le (Nat.pow_le_pow_right (by decide) (by omega))
    simp [Nat.testBit_lt_two_pow hlt]

/-- Branch `j` of a path of `n` bits is bit `n - 1 - j` of its image (R121). -/
theorem codeOfPath_branch {p : List Bool} (hp : p.length ≤ 256) (j : Nat) (hj : j < p.length) :
    (codeOfPath p).bits.getLsbD (p.length - 1 - j) = p[j] := by
  have hback : p.length - 1 - (p.length - 1 - j) = j := by omega
  rw [codeOfPath_getLsbD hp, bitsVal_testBit p _ (by omega)]
  simp only [hback]

/-- The bits of an image above its path are 0 (R121). -/
theorem codeOfPath_above {p : List Bool} (hp : p.length ≤ 256) {i : Nat} (hi : p.length ≤ i) :
    (codeOfPath p).bits.getLsbD i = false := by
  rw [codeOfPath_getLsbD hp]
  exact Nat.testBit_lt_two_pow ((bitsVal_lt p).trans_le (Nat.pow_le_pow_right (by decide) hi))

/-- The bit string of an image is the path it was made from (R27, R121). -/
theorem codeOfPath_path {p : List Bool} (hp : p.length ≤ 256) : (codeOfPath p).path = p := by
  have hlen := codeOfPath_len p hp
  refine List.ext_getElem (by rw [Code.path_length, hlen]) fun j _ hj => ?_
  simp only [Code.path, hlen, List.getElem_map, List.getElem_range]
  exact codeOfPath_branch hp j hj

/-- Settles O28: the image is the number the path writes, whose bits are the path's from the right. -/
theorem codeImageKeepsThePath : Obligations.CodeImageKeepsThePath := fun p hp =>
  ⟨codeOfPath_len p hp, codeOfPath_branch hp, fun _ hi => codeOfPath_above hp hi, codeOfPath_path hp⟩

/-! ## The leaves of a tree -/

theorem Tree.leaves_eq (T : Tree) : T.leaves = T.internals + 1 := by
  induction T with
  | leaf v => rfl
  | node l r ihl ihr => simp only [Tree.leaves, Tree.internals]; omega

theorem Tree.paths_nonempty (T : Tree) : ∃ p, p ∈ T.paths := by
  induction T with
  | leaf v => exact ⟨_, List.mem_singleton.mpr rfl⟩
  | node l r ihl ihr =>
    obtain ⟨p, hp⟩ := ihl
    exact ⟨_, List.mem_append_left _ (List.mem_map_of_mem hp)⟩

/-- Settles O33: below a root each subtree has one level less, and fills one half of the code space. -/
theorem kraftSumIsOne : Obligations.KraftSumIsOne := by
  intro T
  induction T with
  | leaf v => intro d _; simp [Tree.paths]
  | node l r ihl ihr =>
    intro d hd
    have hl : ∀ p ∈ l.paths, p.1.length + 1 ≤ d := fun p hp =>
      hd (false :: p.1, p.2) (List.mem_append_left _ (List.mem_map_of_mem hp))
    have hr : ∀ p ∈ r.paths, p.1.length + 1 ≤ d := fun p hp =>
      hd (true :: p.1, p.2) (List.mem_append_right _ (List.mem_map_of_mem hp))
    obtain ⟨p, hp⟩ := l.paths_nonempty
    obtain ⟨d, rfl⟩ : ∃ e, d = e + 1 := ⟨d - 1, by have := hl p hp; omega⟩
    simp only [Tree.paths, List.map_append, List.map_map, List.sum_append, Function.comp_def, List.length_cons,
      Nat.add_sub_add_right]
    rw [ihl d fun p hp => Nat.le_of_succ_le_succ (hl p hp), ihr d fun p hp => Nat.le_of_succ_le_succ (hr p hp),
      Nat.pow_succ, Nat.mul_two]

section
variable {s : State} {T : Tree} (h : TreeInv s) (hT : s.tree = some T)
include h hT

/-- A valid tree's records are its internal nodes and one leaf more than those (R24, item 5). -/
theorem tree_internals : 2 * T.internals + 1 = s.nnodes.toNat := by rw [← T.size_eq, tree_size h hT]

/-- No leaf of a valid tree is the root, and none is deeper than 256 (R122). -/
theorem tree_depth : ∀ p ∈ T.paths, 1 ≤ p.1.length ∧ p.1.length ≤ 256 := by
  intro p hp
  have hcap : s.nnodes.toNat ≤ 513 := h.atMostCap
  have hinternals := tree_internals h hT
  have hdepth := paths_length_le T p hp
  exact ⟨List.length_pos_iff.mpr (paths_ne_nil h hT p hp), by omega⟩

end

/-- Settles O30: at most 513 records make at most 256 internal nodes, and a path passes each at most once. -/
theorem validTreesHaveBoundedDepth : Obligations.ValidTreesHaveBoundedDepth := by
  intro s h
  obtain ⟨T, hT⟩ := tree_of_inv h
  have hinternals := tree_internals h hT
  exact ⟨T, hT, tree_depth h hT, by rw [T.leaves_eq]; omega, hinternals⟩

/-- Every leaf a walk meets is one of the tree's (R120). -/
theorem leaf_mem_paths {s : State} {fuel : Nat} {k j : NodeIx} {T : Tree} {n : Node}
    (hT : treeAt s fuel k = some T) (hj : j ∈ indices s fuel k) (hn : nodeAt s j = some n) (hl : n.leaf = true) :
    ∃ p, (p, n.value) ∈ T.paths := by
  induction fuel generalizing k T with
  | zero => cases hT
  | succ fuel ih =>
    obtain ⟨m, hm, ⟨hml, rfl⟩ | ⟨hml, l, r, h1, h2, rfl⟩⟩ := treeAt_succ_eq_some.mp hT
    · have hjk : j = k := by simpa [indices, children, hm, hml] using hj
      subst hjk
      cases hn.symm.trans hm
      exact ⟨[], List.mem_singleton.mpr rfl⟩
    · have hj : j = k ∨ j ∈ indices s fuel m.left ∨ j ∈ indices s fuel m.right := by
        simpa [indices, children, hm, hml] using hj
      obtain rfl | hj | hj := hj
      · cases hn.symm.trans hm
        rw [hl] at hml
        cases hml
      · obtain ⟨p, hp⟩ := ih h1 hj
        exact ⟨false :: p, List.mem_append_left _ (List.mem_map.mpr ⟨_, hp, rfl⟩)⟩
      · obtain ⟨p, hp⟩ := ih h2 hj
        exact ⟨true :: p, List.mem_append_right _ (List.mem_map.mpr ⟨_, hp, rfl⟩)⟩

/-! ## The codes of a tree -/

/-- A symbol's code is the path of one of its leaves; a symbol without a leaf has none (R28). -/
theorem codeOf_cases (T : Tree) (v : Sym) :
    (∃ p, (p, v) ∈ T.paths ∧ T.codeOf v = codeOfPath p) ∨ ((∀ p, (p, v) ∉ T.paths) ∧ T.codeOf v = ⟨0, 0⟩) := by
  rw [Tree.codeOf, Tree.lastPath]
  cases hlast : (T.paths.filter fun p => decide (p.2 = v)).getLast? with
  | none =>
    rw [List.getLast?_eq_none_iff, List.filter_eq_nil_iff] at hlast
    exact .inr ⟨fun p hp => hlast _ hp (decide_eq_true rfl), rfl⟩
  | some q =>
    obtain ⟨hq, hv⟩ := List.mem_filter.mp (List.mem_of_getLast? hlast)
    obtain rfl := of_decide_eq_true hv
    exact .inl ⟨q.1, hq, rfl⟩

/-- Settles O29: the walk writes each leaf's path over the ones before it. -/
theorem gencodesWritesEveryPath : Obligations.GencodesWritesEveryPath := by
  intro s hs hv h
  obtain ⟨T, hT⟩ := tree_of_inv h
  have hbusy : (s.withSeq .busy false).tree = some T :=
    (tree_congr (s := s) (t := s.withSeq .busy false) rfl rfl rfl).trans hT
  obtain ⟨code, hwalk, hcode⟩ := walk_codeOf hbusy (treeAt_symbols h hT)
  have hbody : gencodesBody (s.withSeq .busy false) =
      .ok () (((s.withSeq .busy false).withCode code).withValid s.treeValid true) := by
    rw [gencodesBody, hwalk, State.withSeq_treeValid]
  exact ⟨_, T, runCommand_ok hs hv hbody, ⟨rfl, rfl⟩, hv, rfl, hT, fun v _ => hcode v⟩

/-- The tree BUILD leaves is valid (R24, R114). -/
theorem Built.treeInv {s t : State} (h : Built s t) : TreeInv t := by
  obtain ⟨w, hm⟩ := h.merges
  exact treeInv_of_merges hm rfl ⟨w, rfl⟩ rfl h.root h.nnodes

/-- Every symbol has a leaf in the tree BUILD leaves (R114, item 2). -/
theorem Built.symbol_mem_paths {s t : State} (h : Built s t) {T : Tree} (hT : t.tree = some T) {v : Sym}
    (hv : v.toNat ≤ 256) : ∃ p, (p, v) ∈ T.paths := by
  have hk : (v.setWidth 10 : NodeIx).toNat = v.toNat := by rw [BitVec.toNat_setWidth]; omega
  have hmet : v.setWidth 10 ∈ indices t t.nnodes.toNat t.root := by
    refine List.one_le_count_iff.mp (indices_count h.treeInv hT _ ?_).ge
    rw [h.root, BitVec.le_def, hk]
    exact hv.trans (by decide)
  obtain ⟨p, hp⟩ := leaf_mem_paths hT hmet (h.leaf (by omega)) rfl
  exact ⟨p, by simpa using hp⟩

/-- Settles O31: every symbol has a leaf in the tree BUILD leaves, and no leaf is its root. -/
theorem everySymbolHasACodeAfterBuild : Obligations.EverySymbolHasACodeAfterBuild := by
  intro s hs
  obtain ⟨t, hbuild, hB⟩ := exec_build hs
  obtain ⟨u, T, hgencodes, hdone, -, -, hT, hcode⟩ :=
    gencodesWritesEveryPath t hB.completed.1 hB.treeValid hB.treeInv
  refine ⟨t, u, hbuild, hgencodes, hdone, fun v hv => ?_⟩
  have hv' : (BitVec.ofNat 9 v).toNat = v := by rw [BitVec.toNat_ofNat]; omega
  have hentry := hcode (BitVec.ofNat 9 v) (by omega)
  rw [hv'] at hentry
  obtain ⟨q, hq⟩ := hB.symbol_mem_paths hT (v := BitVec.ofNat 9 v) (by omega)
  obtain ⟨p, hp, hcodeOf⟩ | ⟨hnone, -⟩ := codeOf_cases T (BitVec.ofNat 9 v)
  · obtain ⟨hpos, hdepth⟩ := tree_depth hB.treeInv hT _ hp
    rw [hentry, hcodeOf, codeOfPath_len p hdepth]
    exact hpos
  · exact absurd hq (hnone q)

/-- The bits ENCODE sends for a symbol that has a code are the path of one of its leaves (R27, R28). -/
theorem codeBits_mem_paths {s : State} {T : Tree} (h : TreeInv s) (hT : s.tree = some T) {v : Sym}
    (hcode : codeAt s.code v.toNat = T.codeOf v) (hlen : (codeAt s.code v.toNat).len ≠ 0) :
    (s.codeBits v, v) ∈ T.paths := by
  obtain ⟨p, hp, hcodeOf⟩ | ⟨-, hnone⟩ := codeOf_cases T v
  · rw [State.codeBits, hcode, hcodeOf, codeOfPath_path (tree_depth h hT _ hp).2]
    exact hp
  · rw [hcode, hnone] at hlen
    exact absurd rfl hlen

/-- Settles O32: the codes are paths of leaves, none of which is the beginning of another's. -/
theorem codesArePrefixFree : Obligations.CodesArePrefixFree := by
  intro s h hcodes u v hu hv hne hlu hlv hprefix
  obtain ⟨-, T, hT, hcode⟩ := hcodes
  have hmu := codeBits_mem_paths h hT (hcode u (BitVec.le_def.mpr hu)) hlu
  have hmv := codeBits_mem_paths h hT (hcode v (BitVec.le_def.mpr hv)) hlv
  exact hne (congrArg Prod.snd (paths_prefixFree T _ hmu _ hmv hprefix))

end Sys2Proof.Machine
end

section
/-! PROOFS. The Header Codec: what WRTREE writes, what RDTREE loads and what it refuses, and that the one reads back
what the other wrote. -/

namespace Sys2Proof.Machine

/-! ## The magic number -/

/-- Settles O34: one write of the magic number, answered. -/
theorem wrmagicAppendsTheMagicNumber : Obligations.WrmagicAppendsTheMagicNumber := fun _ ⟨hidle, hports⟩ =>
  runCommand_ok hidle rfl (put_answered _ hports)

/-- RDMAGIC's pseudocode on 32 bits, on a source that answers (R135, R136). -/
theorem rdmagicBody_value {s : State} {m : Word} {rest : List Bool} (h : s.PortsAnswer)
    (hu : s.unread = binBits m ++ rest) :
    rdmagicBody s =
      if m = s.magicTree then .ok () (readOn 32 s) else .raised magicMismatch (readOn 32 s) := by
  have hlen : s.srcPos + 32 ≤ s.srcBits.length := by
    have hlen := congrArg List.length hu
    simp at hlen
    omega
  rw [rdmagicBody, readField_value h hlen, hu, List.take_left' (binBits_length m), ofBits_binBits]
  rfl

/-- Settles O37: one read of 32 bits, which gives the magic number, other bits, or none. -/
theorem rdmagicChecksTheMagicNumber : Obligations.RdmagicChecksTheMagicNumber := by
  rintro s ⟨hidle, hports⟩ hpos
  refine ⟨fun m rest hu => ?_, fun hshort => ?_⟩
  · have hbody := rdmagicBody_value (s := s.withSeq .busy false) hports hu
    by_cases hm : m = s.magicTree
    · rw [if_pos (show m = (s.withSeq .busy false).magicTree from hm)] at hbody
      exact ⟨_, runCommand_ok hidle rfl hbody, rfl, rfl, fun _ => ⟨rfl, rfl⟩, fun hne => absurd hm hne⟩
    · rw [if_neg (show ¬ m = (s.withSeq .busy false).magicTree from hm)] at hbody
      exact ⟨_, runCommand_raised hidle rfl hbody, rfl, rfl, fun he => absurd he hm, fun _ => ⟨rfl, rfl, rfl⟩⟩
  · have hlen : s.srcBits.length < s.srcPos + 32 := by
      rw [unread_length] at hshort
      omega
    have hbody : rdmagicBody (s.withSeq .busy false) = .raised magicAbsent (readOut (s.withSeq .busy false)) :=
      readField_endOfData (s := s.withSeq .busy false) hports hlen
    exact ⟨_, runCommand_raised hidle rfl hbody, rfl, rfl, rfl, rfl, rfl⟩

/-! ## Writing a tree -/

/-- An internal node's token has one bit, a leaf's has ten (R78, R133). -/
theorem Tree.header_length (T : Tree) : T.header.length = T.internals + 10 * T.leaves := by
  induction T with
  | leaf v => simp [Tree.header, Tree.internals, Tree.leaves]
  | node l r ihl ihr =>
    simp only [Tree.header, Tree.internals, Tree.leaves, List.length_cons, List.length_append, ihl, ihr]
    omega

theorem Tree.paths_length (T : Tree) : T.paths.length = T.leaves := by
  induction T with
  | leaf v => rfl
  | node l r ihl ihr => simp only [Tree.paths, Tree.leaves, List.length_append, List.length_map, ihl, ihr]

/-- Settles O36: the header's bits and the tree's nodes, counted by kind. -/
theorem headerLengthFollowsFromTheTree : Obligations.HeaderLengthFollowsFromTheTree := by
  intro T
  have hsize := T.size_eq
  have hleaves := T.leaves_eq
  exact ⟨T.header_length, hleaves, by omega, T.paths_length⟩

@[simp] theorem withSeq_tree (s : State) (q : Seq) (d : Bool) : (s.withSeq q d).tree = s.tree :=
  tree_congr rfl rfl rfl

/-- WRTREE's pseudocode where a tree is there and every port answers (R132). -/
theorem wrtreeBody_answered {s : State} {T : Tree} (hports : s.PortsAnswer) (hT : s.tree = some T) :
    ∃ n, wrtreeBody s = .ok () ((s.withDraws (s.draws.drop n)).withSnk (s.snkBits ++ T.header)) :=
  putTree_answered hports hT

/-- WRTREE where a tree is there and every port answers: its header is appended, some draws are used up, and nothing
else changes (R132). -/
theorem exec_wrtree {s : State} {T : Tree} (hs : s.Ready) (hv : s.treeValid = true) (hT : s.tree = some T) :
    ∃ n, exec .wrtree s =
      .next (((s.withDraws (s.draws.drop n)).withSnk (s.snkBits ++ T.header)).withSeq .idle true) := by
  obtain ⟨hidle, hports⟩ := hs
  obtain ⟨n, hbody⟩ := wrtreeBody_answered (s := s.withSeq .busy false) hports ((withSeq_tree s _ _).trans hT)
  exact ⟨n, (runCommand_ok hidle hv hbody).trans rfl⟩

/-- Settles O35: the tree of a valid state is there to be written. -/
theorem wrtreeAppendsTheHeader : Obligations.WrtreeAppendsTheHeader := by
  intro s hs hv h
  obtain ⟨T, hT⟩ := tree_of_inv h
  obtain ⟨n, hexec⟩ := exec_wrtree hs hv hT
  exact ⟨_, T, hexec, ⟨rfl, rfl⟩, hT, rfl⟩

/-! ## A tree in postorder from record 0 -/

/-- The records of the tree are those RDTREE makes of it: one block from record 0, its root last (R138 to R140). -/
structure HoldsBlock (t : State) (T : Tree) : Prop where
  block : Block t.node 0 T
  nnodes : t.nnodes.toNat = T.size
  root : t.root = BitVec.ofNat 10 (T.rootAt 0)

section
variable {t : State} {T : Tree} (h : HoldsBlock t T)
include h

theorem HoldsBlock.tree : t.tree = some T := by
  rw [State.tree, h.nnodes, h.root]
  exact treeAt_block h.block (by rw [h.nnodes]; omega)

theorem HoldsBlock.root_toNat : t.root.toNat + 1 = t.nnodes.toNat := by
  have hlt := t.nnodes.isLt
  have hpos := T.size_pos
  rw [h.nnodes] at hlt ⊢
  rw [h.root, BitVec.toNat_ofNat, Tree.rootAt]
  omega

theorem HoldsBlock.weight (hcap : T.size ≤ Config.nodeCap) {k : NodeIx} {n : Node} (hn : nodeAt t k = some n) :
    n.weight = 0 := by
  obtain ⟨hlt, hget⟩ := nodeAt_eq_some.mp hn
  have hk : k.toNat < T.size := h.nnodes ▸ BitVec.lt_def.mp hlt
  exact (block_shape h.block (by simpa using hcap) (Nat.zero_le _) (by omega) hget).1

theorem HoldsBlock.treeInv (hT : T.Fits) : TreeInv t := by
  obtain ⟨hinternal, hcap, -⟩ := hT
  have hsize := T.size_eq
  exact treeInv_of_block h.block h.nnodes hcap (by omega) (h.root_toNat.trans h.nnodes)

end

/-! ## Reading a tree -/

/-- The record at the root of a tree that is there. -/
theorem nodeAt_of_treeAt_leaf {s : State} {fuel : Nat} {k : NodeIx} {v : Sym} (h : treeAt s fuel k = some (.leaf v)) :
    ∃ n, nodeAt s k = some n ∧ n.leaf = true ∧ n.value = v := by
  cases fuel with
  | zero => cases h
  | succ fuel =>
    obtain ⟨n, hn, ⟨hl, he⟩ | ⟨-, l, r, -, -, he⟩⟩ := treeAt_succ_eq_some.mp h
    · exact ⟨n, hn, hl, (Tree.leaf.inj he).symm⟩
    · cases he

theorem nodeAt_of_treeAt_node {s : State} {fuel : Nat} {k : NodeIx} {l r : Tree}
    (h : treeAt s fuel k = some (.node l r)) : ∃ n, nodeAt s k = some n ∧ n.leaf = false := by
  cases fuel with
  | zero => cases h
  | succ fuel =>
    obtain ⟨n, hn, ⟨-, he⟩ | ⟨hl, -⟩⟩ := treeAt_succ_eq_some.mp h
    · cases he
    · exact ⟨n, hn, hl⟩

/-- The state in which RDTREE's reader has read the whole header of `T`: the records stand, `ROOT` does not point to
them yet (R138). -/
abbrev headerRead (s : State) (T : Tree) (node : Vector Node 513) (ds : List Draw) : State :=
  ((((s.withValid false false).withTree node nil (BitVec.ofNat 10 T.size)).withSrcPos
    (s.srcPos + T.header.length))).withDraws ds

/-- RDTREE's reader on the header of a tree whose leaves are symbols and for which the arena has room (R138, R139). -/
theorem getTree_header {s : State} {T : Tree} {rest : List Bool} (hports : s.PortsAnswer)
    (hcap : T.size ≤ Config.nodeCap) (hsym : ∀ p ∈ T.paths, p.2 ≤ pseudoEof) (hu : s.unread = T.header ++ rest) :
    ∃ node n, Block node 0 T ∧ getTree (Config.nodeCap + 1) 0 (rdtreeStart s) =
      .ok (BitVec.ofNat 10 (T.rootAt 0), T.size) (headerRead s T node (s.draws.drop n)) := by
  have hcap' : T.size ≤ 513 := hcap
  have hpasses := (getTree_full (fuel := Config.nodeCap + 1) (seen := 0) (s := rdtreeStart s) hsym hu (by omega)
    (by omega) (by simpa using hcap)).2
  obtain ⟨a, t, hget, hdraws, -, rfl, node, ht, hblock, -⟩ :=
    hpasses (answers_of_portsAnswer (s := rdtreeStart s) hports _)
  refine ⟨node, (calls (rdtreeStart s) (T.nodes.flatMap fun x => tokenReads x.2)).length, hblock, hget.trans ?_⟩
  rw [ht, hdraws]
  simp [State.withTree, State.withDraws, State.withSrcPos, State.withValid]

/-- How RDTREE ends once its reader has answered: the root is an internal node, or it is refused (R138, R142). -/
theorem rdtreeBody_of_getTree {s t : State} {k : NodeIx} {seen : Nat} {n : Node}
    (hget : getTree (Config.nodeCap + 1) 0 (rdtreeStart s) = .ok (k, seen) t) (hn : nodeAt t k = some n) :
    rdtreeBody s =
      if n.leaf then .raised (rootIsLeaf n.value) t
      else .ok () ((t.withTree t.node k t.nnodes).withValid true t.codesValid) := by
  rw [rdtreeBody, hget, andThen_ok]
  simp only [hn]

/-- What RDTREE leaves when it accepts the header of `T` (R138 to R140). -/
structure Loads (s : State) (T : Tree) (t : State) : Prop where
  holds : HoldsBlock t T
  treeValid : t.treeValid = true
  codesValid : t.codesValid = false
  pos : t.srcPos = s.srcPos + T.header.length
  srcBits : t.srcBits = s.srcBits
  snkBits : t.snkBits = s.snkBits
  ports : t.PortsAnswer

theorem Loads.unread {s t : State} {T : Tree} {rest : List Bool} (h : Loads s T t)
    (hu : s.unread = T.header ++ rest) : t.unread = rest := by
  have hdrop : t.unread = s.unread.drop T.header.length := by
    rw [State.unread, State.unread, h.srcBits, h.pos, List.drop_drop]
  rw [hdrop, hu, List.drop_left]

/-- RDTREE where every port answers, on the header of a tree it accepts (R138 to R140). -/
theorem exec_rdtree_header {s : State} {T : Tree} {rest : List Bool} (hs : s.Ready) (hT : T.Fits)
    (hu : s.unread = T.header ++ rest) : ∃ t, exec .rdtree s = .next t ∧ t.Completed ∧ Loads s T t := by
  obtain ⟨hidle, hports⟩ := hs
  obtain ⟨hinternal, hcap, hsym⟩ := hT
  obtain ⟨node, n, hblock, hget⟩ := getTree_header (s := s.withSeq .busy false) hports hcap hsym hu
  have hsize : (BitVec.ofNat 10 T.size).toNat = T.size := by
    have hcap' : T.size ≤ 513 := hcap
    rw [BitVec.toNat_ofNat]
    omega
  have hread := treeAt_block (s := headerRead (s.withSeq .busy false) T node (s.draws.drop n)) hblock
    (by simp [hsize])
  have hroot : ∃ m, nodeAt (headerRead (s.withSeq .busy false) T node (s.draws.drop n))
      (BitVec.ofNat 10 (T.rootAt 0)) = some m ∧ m.leaf = false := by
    cases T with
    | leaf v => simp [Tree.internals] at hinternal
    | node l r => exact nodeAt_of_treeAt_node hread
  obtain ⟨m, hm, hl⟩ := hroot
  have hbody := rdtreeBody_of_getTree hget hm
  rw [if_neg (by simp [hl])] at hbody
  exact ⟨_, runCommand_ok hidle rfl hbody, ⟨rfl, rfl⟩, ⟨hblock, hsize, rfl⟩, rfl, rfl, rfl, rfl, rfl,
    fun d hd => hports d (List.mem_of_mem_drop hd)⟩

/-- Settles O38: RDTREE holds the tree as one block from record 0, in which every weight is 0. -/
theorem rdtreeLoadsTheHeadersTree : Obligations.RdtreeLoadsTheHeadersTree := by
  intro s T rest hs hT hu
  obtain ⟨t, hexec, hdone, hload⟩ := exec_rdtree_header hs hT hu
  have hholds := hload.holds
  exact ⟨t, hexec, hdone, hload.treeValid, hload.codesValid, hholds.tree, hholds.nnodes, hholds.root_toNat, hload.pos,
    hholds.block, fun k n => hholds.weight hT.2.1⟩

/-! ## Refusing a header -/

/-- The rule from RDTREE's pseudocode to its refusal (R143, R190). -/
theorem rdtreeRefuses_of_raised {s : State} {e : Err} {completed pos : Nat} (hidle : s.seq = .idle)
    (hbody : ∃ t, rdtreeBody (s.withSeq .busy false) = .raised e t ∧ t.nnodes.toNat = completed ∧ t.srcPos = pos ∧
      t.treeValid = false ∧ t.codesValid = false ∧ t.root = nil) : RdtreeRefuses s e.reg completed pos := by
  obtain ⟨t, hraised, hn, hpos, hv, hc, hr⟩ := hbody
  exact ⟨_, runCommand_raised hidle rfl hraised, ⟨rfl, rfl, rfl⟩, hv, hc, hr, hn, hpos⟩

/-- A root that is a leaf is refused when its record is made and before `ROOT` points to it (R142, R143). -/
theorem rdtreeRefuses_leaf {s : State} {v : Sym} {rest : List Bool} (hs : s.Ready) (hv : v.toNat ≤ 256)
    (hu : s.unread = true :: (binBits v ++ rest)) : RdtreeRefuses s (rootIsLeaf v).reg 1 (s.srcPos + 10) := by
  obtain ⟨hidle, hports⟩ := hs
  have hcap : (Tree.leaf v).size ≤ Config.nodeCap := show 1 ≤ 513 by decide
  have hsym : ∀ p ∈ (Tree.leaf v).paths, p.2 ≤ pseudoEof := by simpa [Tree.paths, BitVec.le_def] using hv
  obtain ⟨node, n, hblock, hget⟩ := getTree_header (s := s.withSeq .busy false) (T := .leaf v) hports hcap hsym hu
  obtain ⟨m, hm, hl, hval⟩ := nodeAt_of_treeAt_leaf
    (treeAt_block (s := headerRead (s.withSeq .busy false) (.leaf v) node (s.draws.drop n)) hblock (Nat.le_refl 1))
  have hbody := rdtreeBody_of_getTree hget hm
  rw [if_pos hl, hval] at hbody
  exact rdtreeRefuses_of_raised hidle ⟨_, hbody, rfl, by simp [Tree.header], rfl, rfl, rfl⟩

/-- Settles O39: the faults a header can have at its node `k` are the cases in which the reader raises, and past the
reader there is the root that is a leaf. -/
theorem rdtreeRefusesBadHeaders : Obligations.RdtreeRefusesBadHeaders := by
  rintro s ⟨hidle, hports⟩ hpos
  refine ⟨fun T k p o rest hk hT => ?_, fun v rest hu hv => rdtreeRefuses_leaf ⟨hidle, hports⟩ hv hu⟩
  have hrefuse := fun {tail e pos} h513 hu hcase => rdtreeRefuses_of_raised hidle
    (rdtreeBody_refuses (s := s.withSeq .busy false) (tail := tail) (e := e) (pos := pos) hports hk hT h513 hu hcase)
  refine ⟨fun h hu => ?_, fun h hu => ?_, fun h hu hr => ?_, fun v h hu hv => ?_⟩
  · exact hrefuse h.le hu (.inl ⟨h, rfl, rfl⟩)
  · exact hrefuse (tail := []) h.le (hu.trans (List.append_nil _).symm) (.inr (.inl ⟨h, rfl, rfl, rfl⟩))
  · exact hrefuse h.le hu (.inr (.inr (.inl ⟨h, ⟨rest, rfl, hr⟩, rfl, rfl⟩)))
  · exact hrefuse h.le hu (.inr (.inr (.inr ⟨h, v, rest, rfl, hv, rfl, rfl⟩)))

/-! ## The tree read back -/

/-- GENCODES where a tree is there writes the paths of its leaves into a blank table, whatever records hold the tree
(R120). -/
theorem exec_gencodes_tree {s : State} {T : Tree} (hidle : s.seq = .idle) (hv : s.treeValid = true)
    (hT : s.tree = some T) (hsym : ∀ p ∈ T.paths, p.2 ≤ pseudoEof) :
    ∃ t, exec .gencodes s = .next t ∧ t.code = writePaths [] (Vector.replicate 257 ⟨0, 0⟩) T.paths := by
  have hwalk := walk_tree [] (Vector.replicate 257 ⟨0, 0⟩) ((withSeq_tree s .busy false).trans hT) hsym
  have hbody : gencodesBody (s.withSeq .busy false) = .ok () (((s.withSeq .busy false).withCode
      (writePaths [] (Vector.replicate 257 ⟨0, 0⟩) T.paths)).withValid s.treeValid true) := by
    rw [gencodesBody, hwalk, State.withSeq_treeValid]
  exact ⟨_, runCommand_ok hidle hv hbody, rfl⟩

/-- Settles O41: RDTREE accepts the header of every valid tree and loads that tree, from which GENCODES and WRTREE make
what they made before. -/
theorem codecGivesTheTreeBack : Obligations.CodecGivesTheTreeBack := by
  intro s u rest hs hv h hu
  obtain ⟨T, hT⟩ := tree_of_inv h
  have hfits := fits_of_inv h hT
  have hsym := hfits.2.2
  obtain ⟨n, hwrite⟩ := exec_wrtree hs hv hT
  obtain ⟨v, hread, hdone, hload⟩ := exec_rdtree_header (s := u.withStreams (T.header ++ rest)) hu hfits rfl
  have hvT := hload.holds.tree
  obtain ⟨w, hw, hwcode⟩ := exec_gencodes_tree hs.1 hv hT hsym
  obtain ⟨x, hx, hxcode⟩ := exec_gencodes_tree hdone.1 hload.treeValid hvT hsym
  obtain ⟨m, hagain⟩ := exec_wrtree ⟨hdone.1, hload.ports⟩ hload.treeValid hvT
  refine ⟨_, T.header, v, w, x, _, hwrite, rfl, hread, hdone, hvT.trans hT.symm, hload.unread rfl,
    fun k n => hload.holds.weight hfits.2.1, hw, hx, hwcode.trans hxcode.symm, hagain, ?_⟩
  simp [hload.snkBits, State.withStreams]

end Sys2Proof.Machine
end

section
/-! PROOFS. The frames of RDTREE, DECODE and the two sequences. -/

namespace Sys2Proof.Machine

/-! ## What the commands of the sequences keep -/

/-- The state with everything blank that the commands of COMPRESS and DECOMPRESS can touch: what is left are `TSEL`,
the parameters, the source's bits and the host's side. -/
def sequenceFrame (s : State) : State := unsequenced (engineFrame s)

/-- What such a command, or a sequence of them, does besides its own work: it keeps that frame, writes `ERR` and the
call in flight only on its way into `ERROR` and `BUSY`, and outside `IDLE` does nothing (R170). -/
structure Presented (s t : State) : Prop where
  moves : Moves sequenceFrame s t
  kept : SequencerKept s t
  ignored : s.seq ≠ .idle → t = s

/-- In a sequence the first command that does not end in `IDLE` leaves its registers to the end. -/
theorem Presented.trans {s t u : State} (h : Presented s t) (h' : Presented t u) : Presented s u := by
  have hignored : s.seq ≠ .idle → u = s := fun hs => by
    obtain rfl := h.ignored hs
    exact h'.ignored hs
  have hstays {q : Seq} (hq : q ≠ .idle) (hu : u.seq ≠ q) : t.seq ≠ q := fun ht => by
    obtain rfl := h'.ignored (ht ▸ hq)
    exact hu ht
  exact ⟨h.moves.trans h'.moves, ⟨fun hu => (h'.kept.err hu).trans (h.kept.err (hstays (by decide) hu)),
    fun hu => (h'.kept.inFlight hu).trans (h.kept.inFlight (hstays (by decide) hu))⟩, hignored⟩

/-- A command whose pseudocode stays within the engine's frame is one such. -/
theorem runCommand_presented {op : BitVec 4} {p : Bool} {body : State → Res Unit} {s t : State}
    (hb : ∀ u, (body u).Ends (Moves engineFrame u)) (h : runCommand op p body s = .next t) : Presented s t := by
  refine ⟨runCommand_moves (fun _ _ _ _ _ => rfl) (fun u => ends_mono (hb u) fun _ hu => hu.mono fun _ => rfl) h,
    runCommand_sequencerKept hb h, fun hs => ?_⟩
  obtain ⟨-, ht⟩ | ⟨hidle, -⟩ | ⟨hidle, -⟩ := runCommand_cases h
  · exact ht
  · exact absurd hidle hs
  · exact absurd hidle hs

/-- The commands of which COMPRESS and DECOMPRESS are made (R178, R179). -/
def sequenced : List Instr :=
  [.count, .build, .gencodes, .wrmagic, .wrtree, .rewind, .encode, .rdmagic, .rdtree, .decode]

theorem exec_presented {i : Instr} {s t : State} (hi : i ∈ sequenced) (h : exec i s = .next t) : Presented s t := by
  cases i with
  | count => exact runCommand_presented (fun u => ends_mono (countBody_moves u) fun _ => Moves.engine) h
  | build => exact runCommand_presented buildBody_moves h
  | gencodes => exact runCommand_presented (fun u => ends_mono (gencodesBody_moves u) fun _ hu => hu.1) h
  | wrmagic => exact runCommand_presented (fun u => ends_mono (putMagic_moves u) fun _ => Moves.engine) h
  | wrtree => exact runCommand_presented (fun u => ends_mono (wrtreeBody_moves u) fun _ => Moves.engine) h
  | rewind => exact runCommand_presented (fun u => ends_mono (rewindBody_moves u) fun _ => Moves.engine) h
  | encode => exact runCommand_presented (fun u => ends_mono (encodeBody_moves u) fun _ => Moves.engine) h
  | rdmagic => exact runCommand_presented (fun u => ends_mono (rdmagicBody_moves u) fun _ => Moves.engine) h
  | rdtree => exact runCommand_presented (fun u => ends_mono (rdtreeBody_left u) fun _ hu => hu.moves) h
  | decode =>
    exact runCommand_presented (fun u => ends_mono (decodeBody_moves u) fun _ hu => hu.mono fun _ => rfl) h
  | _ => simp [sequenced] at hi

/-- RDTREE, DECODE and the two sequences too. -/
theorem exec_presented_of_sequence {i : Instr} {s t : State}
    (hi : i ∈ [Instr.rdtree, .decode, .compress, .decompress]) (h : exec i s = .next t) : Presented s t := by
  simp only [List.mem_cons, List.not_mem_nil, or_false] at hi
  obtain rfl | rfl | rfl | rfl := hi
  · exact exec_presented (by decide) h
  · exact exec_presented (by decide) h
  · exact execCompress_rel Presented.trans (fun j hj _ _ => exec_presented (by revert j; decide)) h
  · exact execDecompress_rel Presented.trans (fun j hj _ _ => exec_presented (by revert j; decide)) h

/-! ## What each keeps besides -/

/-- The state with everything blank that RDTREE can touch: the sequencer's registers, the tree, the flags, the source's
position, the draws and the counter of free values. -/
def rdtreeFrame (s : State) : State :=
  unsequenced { headerFrame s with root := 0, treeValid := false, codesValid := false }

theorem rdtreeBody_moves (s : State) : (rdtreeBody s).Ends (Moves rdtreeFrame s) := by
  have hget := (getTree_ends (Config.nodeCap + 1) 0 (rdtreeStart s) (by omega) (by simp)).1
  have hread : ∀ t, headerFrame t = headerFrame (rdtreeStart s) ∧ PosKept (rdtreeStart s) t ∧ t.nnodes.toNat ≤ 513 →
      Moves rdtreeFrame s t := fun t ⟨hf, hp, _⟩ =>
    moves_of_frame
      (congrArg (fun u : State => unsequenced { u with root := 0, treeValid := false, codesValid := false }) hf :) hp
      fun _ => rfl
  refine ends_andThen hget hread fun ⟨k, seen⟩ t _ ht => ?_
  have hm := hread t ht
  split
  · trivial
  · split
    · exact hm
    · exact ⟨hm.sink, hm.pos, hm.frame_eq⟩

theorem execRdtree_moves_rdtreeFrame {s t : State} (h : execRdtree s = .next t) : Moves rdtreeFrame s t :=
  runCommand_moves (fun _ _ _ _ _ => rfl) rdtreeBody_moves h

/-- The state with everything blank that DECODE can touch: what its loop can, and the sequencer's registers. -/
def decodeCommandFrame (s : State) : State := unsequenced (decoderFrame s)

theorem execDecode_moves {s t : State} (h : execDecode s = .next t) : Moves decodeCommandFrame s t :=
  runCommand_moves (fun _ _ _ _ _ => rfl)
    (fun u => ends_mono (decodeBody_moves u) fun _ hu => hu.mono fun _ => rfl) h

/-- The counts and the code table are as they were. -/
def SameCtAndCode (s t : State) : Prop := t.ct = s.ct ∧ t.code = s.code

theorem SameCtAndCode.trans {s t u : State} (h : SameCtAndCode s t) (h' : SameCtAndCode t u) : SameCtAndCode s u :=
  ⟨h'.1.trans h.1, h'.2.trans h.2⟩

/-- DECOMPRESS's commands leave the counts and the code table (R135, R138, R160). -/
theorem exec_sameCtAndCode {i : Instr} {s t : State} (hi : i ∈ [Instr.rdmagic, .rdtree, .decode])
    (h : exec i s = .next t) : SameCtAndCode s t := by
  simp only [List.mem_cons, List.not_mem_nil, or_false] at hi
  obtain rfl | rfl | rfl := hi
  · have hf := (runCommand_sourceMoves rdmagicBody_moved h).frame_eq
    exact ⟨(congrArg State.ct hf :), (congrArg State.code hf :)⟩
  · have hf := (execRdtree_moves_rdtreeFrame h).frame_eq
    exact ⟨(congrArg State.ct hf :), (congrArg State.code hf :)⟩
  · have hf := (execDecode_moves h).frame_eq
    exact ⟨(congrArg State.ct hf :), (congrArg State.code hf :)⟩

/-- COMPRESS's commands leave `CUR` (R29). -/
theorem exec_same_cur {i : Instr} {s t : State}
    (hi : i ∈ [Instr.count, .build, .gencodes, .wrmagic, .wrtree, .rewind, .encode]) (h : exec i s = .next t) :
    t.cur = s.cur := by
  simp only [List.mem_cons, List.not_mem_nil, or_false] at hi
  have hread (hi : i ∈ [Instr.count, .rdmagic, .rewind]) : t.cur = s.cur :=
    (congrArg State.cur (exec_sourceReader_moves hi h).1.frame_eq :)
  have hmake (hi : i ∈ [Instr.build, .gencodes]) : t.cur = s.cur :=
    (congrArg State.cur (exec_buildGencodes_quiet hi h).1.1 :)
  have hwrite (hi : i = .encode ∨ writesSinkOnly i = true) : t.cur = s.cur :=
    (congrArg State.cur (exec_sinkWriter_moves hi h).1.frame_eq :)
  obtain rfl | rfl | rfl | rfl | rfl | rfl | rfl := hi
  · exact hread (by decide)
  · exact hmake (by decide)
  · exact hmake (by decide)
  · exact hwrite (.inr rfl)
  · exact hwrite (.inr rfl)
  · exact hread (by decide)
  · exact hwrite (.inl rfl)

/-- What each of the four leaves besides the sequences' common frame. -/
theorem exec_sequence_keeps {i : Instr} {s t : State} (hi : i ∈ [Instr.rdtree, .decode, .compress, .decompress])
    (h : exec i s = .next t) :
    (i ≠ .compress → SameCtAndCode s t) ∧ (i = .rdtree ∨ i = .compress → t.cur = s.cur) ∧
      (i = .rdtree → t.snkBits = s.snkBits) ∧ (i = .decode → tableFrame t = tableFrame s) := by
  simp only [List.mem_cons, List.not_mem_nil, or_false] at hi
  obtain rfl | rfl | rfl | rfl := hi
  · have hf := (execRdtree_moves_rdtreeFrame h).frame_eq
    exact ⟨fun _ => exec_sameCtAndCode (by decide) h, fun _ => (congrArg State.cur hf :),
      fun _ => (congrArg State.snkBits hf :), nofun⟩
  · exact ⟨fun _ => exec_sameCtAndCode (by decide) h, nofun, nofun,
      fun _ => (exec_keeps_tables (.inl rfl) h).frame_eq⟩
  · refine ⟨fun hne => absurd rfl hne, fun _ => ?_, nofun, nofun⟩
    exact execCompress_rel (R := fun u v => v.cur = u.cur) (fun hu hv => hv.trans hu)
      (fun _ hj _ _ => exec_same_cur hj) h
  · exact ⟨fun _ => execDecompress_rel SameCtAndCode.trans (fun _ hj _ _ => exec_sameCtAndCode hj) h, nofun, nofun,
      nofun⟩

/-- Settles O54: the frame all four keep, with the sequencer's registers, and what each keeps besides. -/
theorem frameOfTheReadersAndTheSequences : Obligations.FrameOfTheReadersAndTheSequences := by
  intro s t i hi h
  obtain ⟨hm, ⟨herr, hfl⟩, -⟩ := exec_presented_of_sequence hi h
  obtain ⟨htables, hcur, hsnk, hdecode⟩ := exec_sequence_keeps hi h
  have hf := hm.frame_eq
  refine ⟨(congrArg State.tsel hf :), (congrArg State.magicTree hf :), (congrArg State.ioCanFail hf :),
    (congrArg State.srcBits hf :), (congrArg State.host hf :), (congrArg State.rdata hf :), herr, hfl, hm.sink, htables,
    hcur, hsnk, fun hi => ?_⟩
  have hkept := hdecode hi
  exact ⟨(congrArg State.node hkept :), (congrArg State.root hkept :), (congrArg State.nnodes hkept :),
    (congrArg State.treeValid hkept :), (congrArg State.codesValid hkept :)⟩

end Sys2Proof.Machine
end

section
/-! PROOFS. ENCODE: the codes it appends, and the symbol it stops at. -/

namespace Sys2Proof.Machine

/-- The symbol of a word has a code where the word's entry of `CODE` has one (R27, R150). -/
theorem symbols_coded {s : State} {words : List Byte} (h : ∀ b ∈ words, (codeAt s.code b.toNat).len ≠ 0) :
    ∀ u ∈ words.map (fun b => (b.setWidth 9 : Sym)), (codeAt s.code u.toNat).len ≠ 0 := by
  intro u hu
  obtain ⟨b, hb, rfl⟩ := List.mem_map.mp hu
  rw [BitVec.toNat_setWidth_of_le (by decide)]
  exact h b hb

/-- The `INFO` of a word without a code is the word (R152, R188). -/
theorem noCodeFor_word_reg (b : Byte) : (noCodeFor (b.setWidth 9)).reg = ⟨6, 0, b.setWidth 10⟩ := by
  rw [Err.reg, noCodeFor, BitVec.setWidth_setWidth (by decide), ErrKind.code]

/-- Where every symbol to send has a code, ENCODE sends them all and leaves the source at its end (R150, R153). -/
theorem exec_encode_completes {s : State} (hs : s.Ready) (hv : s.codesValid = true)
    (hcoded : ∀ u ∈ symbolsToSend (wordsOf s.unread), (codeAt s.code u.toNat).len ≠ 0) :
    ∃ t, exec .encode s = .next t ∧ t.Completed ∧ t.srcPos = s.srcBits.length ∧
      t.snkBits = s.snkBits ++ (symbolsToSend (wordsOf s.unread)).flatMap s.codeBits := by
  obtain ⟨hidle, hports⟩ := hs
  obtain ⟨ds, hbody⟩ := (encodeLoop_answered _ (s.withSeq .busy false) hports
    (Nat.lt_succ_of_le (unread_length s).le)).2 hcoded
  exact ⟨_, runCommand_ok hidle hv hbody, ⟨rfl, rfl⟩, rfl, rfl⟩

/-- At the first symbol without a code ENCODE fails, with the codes of the symbols before it sent (R152). -/
theorem exec_encode_fails {s : State} {pre post : List Sym} {v : Sym} (hs : s.Ready) (hv : s.codesValid = true)
    (hw : symbolsToSend (wordsOf s.unread) = pre ++ v :: post)
    (hpre : ∀ u ∈ pre, (codeAt s.code u.toNat).len ≠ 0) (hnone : (codeAt s.code v.toNat).len = 0) :
    ∃ t, exec .encode s = .next t ∧ t.Failed (noCodeFor v).reg ∧
      t.snkBits = s.snkBits ++ pre.flatMap s.codeBits := by
  obtain ⟨hidle, hports⟩ := hs
  obtain ⟨pos, ds, hbody⟩ := (encodeLoop_answered _ (s.withSeq .busy false) hports
    (Nat.lt_succ_of_le (unread_length s).le)).1 pre post v hw hpre hnone
  exact ⟨_, runCommand_raised hidle hv hbody, ⟨rfl, rfl, rfl⟩, rfl⟩

/-- Settles O43: the symbols to send are the words' and the pseudo-EOF, and each has a code. -/
theorem encodeAppendsTheCodes : Obligations.EncodeAppendsTheCodes := by
  intro s hs hv hwords heof
  obtain ⟨t, he, hdone, hpos, hsnk⟩ := exec_encode_completes hs hv
    (List.forall_mem_append.mpr ⟨symbols_coded hwords, List.forall_mem_singleton.mpr heof⟩)
  refine ⟨t, he, hdone, hpos, hsnk.trans ?_⟩
  rw [symbolsToSend, List.flatMap_append, List.flatMap_map, List.flatMap_singleton, List.append_assoc]

/-- Settles O44: the first symbol without a code is a word's, or the pseudo-EOF behind all the words. -/
theorem missingCodeRaisesNoCode : Obligations.MissingCodeRaisesNoCode := by
  refine fun s hs hv => ⟨fun pre post b hw hpre hnone => ?_, fun hwords hnone => ?_⟩
  · have hsend : symbolsToSend (wordsOf s.unread) =
        pre.map (fun b => b.setWidth 9) ++ b.setWidth 9 :: symbolsToSend post := by
      simp [symbolsToSend, hw]
    have hnone' : (codeAt s.code (b.setWidth 9 : Sym).toNat).len = 0 := by
      rwa [BitVec.toNat_setWidth_of_le (by decide)]
    obtain ⟨t, he, hfail, hsnk⟩ := exec_encode_fails hs hv hsend (symbols_coded hpre) hnone'
    exact ⟨t, he, noCodeFor_word_reg b ▸ hfail, hsnk.trans (by rw [List.flatMap_map])⟩
  · obtain ⟨t, he, hfail, hsnk⟩ := exec_encode_fails (post := []) hs hv rfl (symbols_coded hwords) hnone
    exact ⟨t, he, hfail, hsnk.trans (by rw [List.flatMap_map])⟩

end Sys2Proof.Machine
end

section
/-! PROOFS. DECODE: the words of whole codes, then the pseudo-EOF or the source's end (R160 to R163). -/

namespace Sys2Proof.Machine

/-- The state in which DECODE's pseudocode has decoded the codes `ls` and stands at the root again (R160). -/
abbrev afterWords (s : State) (ls : List (List Bool × Sym)) (ds : List Draw) : State :=
  (((s.withCur s.root).withDraws ds).withSrcPos (s.srcPos + (ls.flatMap Prod.fst).length)).withSnk
    (s.snkBits ++ ls.flatMap fun l => binBits (l.2.setWidth 8))

theorem afterWords_unread {s : State} {ls : List (List Bool × Sym)} {rest : List Bool} (ds : List Draw)
    (hu : s.unread = ls.flatMap Prod.fst ++ rest) : (afterWords s ls ds).unread = rest := by
  have hdrop : (afterWords s ls ds).unread = s.unread.drop (ls.flatMap Prod.fst).length := List.drop_drop.symm
  rw [hdrop, hu, List.drop_left]

theorem afterWords_descend (s : State) (ls : List (List Bool × Sym)) (ds : List Draw) (k : NodeIx) (p : List Bool) :
    descend (afterWords s ls ds) k p = descend s k p :=
  descend_congr (by simp) (by simp) k p

@[simp] theorem withSeq_descend (s : State) (q : Seq) (d : Bool) (k : NodeIx) (p : List Bool) :
    descend (s.withSeq q d) k p = descend s k p :=
  descend_congr (by simp) (by simp) k p

section
variable {s : State} {T : Tree} {ls : List (List Bool × Sym)} {rest : List Bool}
  (hports : s.PortsAnswer) (hT : s.tree = some T) (hne : ∀ l ∈ T.paths, l.1 ≠ [])
  (hls : ∀ l ∈ ls, l ∈ T.paths ∧ l.2 ≠ 256)
include hports hT hne hls

/-- DECODE's pseudocode follows the whole codes of words and goes on with the rest of the source (R160, R161). -/
theorem decodeBody_words (hu : s.unread = ls.flatMap Prod.fst ++ rest) :
    ∃ ds, decodeBody s = decodeLoop (rest.length + 1) (afterWords s ls ds) ∧
      (afterWords s ls ds).PortsAnswer ∧ treeAt (afterWords s ls ds) s.nnodes.toNat s.root = some T := by
  have hfuel : s.srcBits.length - s.srcPos + 1 = rest.length + 1 + (ls.flatMap Prod.fst).length := by
    rw [← unread_length, hu, List.length_append]
    omega
  obtain ⟨ds, hloop, hds⟩ := decodeLoop_words (s := s.withCur s.root) (rest.length + 1) hports
    ((treeAt_congr (by simp) (by simp) _ _).trans hT) rfl hls hne hu
  refine ⟨ds, ?_, hds, (treeAt_congr (by simp) (by simp) _ _).trans hT⟩
  rw [decodeBody, hfuel]
  exact hloop

/-- Behind them the path of a pseudo-EOF leaf ends the pseudocode on that leaf (R161, R162). -/
theorem decodeBody_completes {e : List Bool} (he : (e, (256 : Sym)) ∈ T.paths)
    (hu : s.unread = ls.flatMap Prod.fst ++ (e ++ rest)) :
    ∃ ds n, decodeBody s = .ok () (((afterWords s ls ds).withSrcPos
        (s.srcPos + (ls.flatMap Prod.fst ++ e).length)).withCur (descend s s.root e)) ∧
      nodeAt s (descend s s.root e) = some n ∧ n.leaf = true ∧ n.value = 256 := by
  obtain ⟨ds, hbody, hports', hT'⟩ := decodeBody_words hports hT hne hls hu
  obtain ⟨n, hn, hl, hv, hloop⟩ := decodeLoop_path (rest.length + 1) hports' hT' rfl he (hne _ he)
    (afterWords_unread ds hu)
  have hfuel : (e ++ rest).length + 1 = rest.length + 1 + e.length := by
    rw [List.length_append]
    omega
  rw [afterWords_descend] at hn hloop
  refine ⟨(afterWords s ls ds).draws.drop e.length, n, ?_, hn, hl, hv⟩
  rw [hbody, hfuel, hloop, List.length_append, ← Nat.add_assoc]
  rfl

/-- Behind them a path cut short ends the pseudocode with an error at the record reached (R163). -/
theorem decodeBody_truncated {p cut : List Bool} {v : Sym} (hp : (p ++ cut, v) ∈ T.paths) (hcut : cut ≠ [])
    (hpos : s.srcPos ≤ s.srcBits.length) (hu : s.unread = ls.flatMap Prod.fst ++ p) :
    ∃ ds, decodeBody s = .raised bodyMissing
      (((afterWords s ls ds).withSrcPos s.srcBits.length).withCur (descend s s.root p)) := by
  obtain ⟨ds, hbody, hports', hT'⟩ := decodeBody_words hports hT hne hls hu
  have hpos' : (afterWords s ls ds).srcPos ≤ (afterWords s ls ds).srcBits.length := by
    have hlen := congrArg List.length hu
    rw [unread_length, List.length_append] at hlen
    simp only [State.withSnk_srcPos, State.withSrcPos_srcPos, State.withSnk_srcBits, State.withSrcPos_srcBits,
      State.withDraws_srcBits, State.withCur_srcBits]
    omega
  obtain ⟨ds', hloop⟩ := decodeLoop_cut 0 hports' hT' rfl hp hcut hpos' (afterWords_unread ds hu)
  rw [afterWords_descend, Nat.zero_add] at hloop
  exact ⟨ds', by rw [hbody, hloop]; rfl⟩

end

/-- Settles O45: the codes of words are followed one by one, and the code behind them ends on a pseudo-EOF leaf. -/
theorem decodeWritesTheLeavesReached : Obligations.DecodeWritesTheLeavesReached := by
  rintro s T ls e rest ⟨hidle, hports⟩ hv hinv hT hls he hu
  rw [List.append_assoc] at hu
  obtain ⟨ds, n, hbody, hn, hl, hval⟩ := decodeBody_completes (s := s.withSeq .busy false) hports
    ((withSeq_tree s _ _).trans hT) (paths_ne_nil hinv hT) hls he hu
  rw [State.withSeq_root, withSeq_descend] at hbody hn
  exact ⟨_, n, runCommand_ok hidle hv hbody, ⟨rfl, rfl⟩, rfl, rfl, rfl,
    (nodeAt_congr (by simp) (by simp) _).trans hn, hl, hval⟩

/-- Settles O46: the source ends in the code behind the codes of words, before its first bit or later. -/
theorem cutBodiesAreTruncatedInput : Obligations.CutBodiesAreTruncatedInput := by
  rintro s T ls p cut v ⟨hidle, hports⟩ hv hinv hT hls hp hcut hpos hu
  obtain ⟨ds, hbody⟩ := decodeBody_truncated (s := s.withSeq .busy false) hports
    ((withSeq_tree s _ _).trans hT) (paths_ne_nil hinv hT) hls hp hcut hpos hu
  exact ⟨_, runCommand_raised hidle hv hbody, ⟨rfl, rfl, rfl⟩, rfl, withSeq_descend .., rfl⟩

end Sys2Proof.Machine
end

section
/-! PROOFS. The two data flows: the stream COMPRESS writes, and DECOMPRESS on a stream (R166, R178, R179). -/

namespace Sys2Proof.Machine

/-! ## COMPRESS: from the words to a code for every symbol -/

/-- Where every port answers, so do the draws COUNT's loop leaves. -/
theorem countLoop_ports (fuel : Nat) {s : State} (h : s.PortsAnswer) : (countLoop fuel s).Ends State.PortsAnswer := by
  induction fuel generalizing s with
  | zero => exact h
  | succ fuel ih =>
    by_cases hn : s.srcPos + 8 ≤ s.srcBits.length
    · rw [countLoop, readField_value h hn]
      split
      · exact portsAnswer_tail h
      · exact ih (portsAnswer_tail h)
    · rw [countLoop, readField_endOfData h (by omega)]
      exact portsAnswer_tail h

/-- What the commands before WRMAGIC leave: the ports still answer, and the streams' bits and the magic number are as
they were. -/
structure Undisturbed (s t : State) : Prop where
  ports : t.PortsAnswer
  magicTree : t.magicTree = s.magicTree
  srcBits : t.srcBits = s.srcBits
  snkBits : t.snkBits = s.snkBits

theorem exec_count {s : State} (hs : s.Ready) (hc : ∀ b : Byte, (wordsOf s.unread).count b < 2 ^ 32) :
    ∃ t, exec .count s = .next t ∧ t.Completed ∧ Undisturbed s t := by
  obtain ⟨t, he, hdone, -⟩ := countCountsEveryWord s hs hc
  have hf := (execCount_moves he).frame_eq
  have hports : t.PortsAnswer := runCommand_ends he hs.2 (fun _ _ _ => id) (fun _ _ => id) (fun _ _ => id)
    (countLoop_ports _ hs.2)
  exact ⟨t, he, hdone, hports, (congrArg State.magicTree hf :), (congrArg State.srcBits hf :),
    (congrArg State.snkBits hf :)⟩

/-- The state holds a tree such as BUILD makes, with a leaf for every symbol, and its code table (R24, R28, R124). -/
structure Coded (t : State) (T : Tree) : Prop where
  treeValid : t.treeValid = true
  codesValid : t.codesValid = true
  treeInv : TreeInv t
  nnodes : t.nnodes = 513
  tree : t.tree = some T
  coded : ∀ v : Sym, v.toNat ≤ 256 → (codeAt t.code v.toNat).len ≠ 0
  leaf : ∀ v : Sym, v.toNat ≤ 256 → (t.codeBits v, v) ∈ T.paths

theorem Coded.congr {s t : State} {T : Tree} (h : Coded s T) (hf : tableFrame t = tableFrame s) : Coded t T := by
  have hnode : t.node = s.node := (congrArg State.node hf :)
  have hroot : t.root = s.root := (congrArg State.root hf :)
  have hnnodes : t.nnodes = s.nnodes := (congrArg State.nnodes hf :)
  have hcode : t.code = s.code := (congrArg State.code hf :)
  refine ⟨((congrArg State.treeValid hf :) : t.treeValid = s.treeValid).trans h.treeValid,
    ((congrArg State.codesValid hf :) : t.codesValid = s.codesValid).trans h.codesValid,
    treeInv_congr hnode hroot hnnodes h.treeInv, hnnodes.trans h.nnodes,
    (tree_congr hnode hroot hnnodes).trans h.tree, ?_, ?_⟩
  · rw [hcode]
    exact h.coded
  · unfold State.codeBits
    rw [hcode]
    exact h.leaf

/-- BUILD, then GENCODES: a tree with a leaf for every symbol, and a code for each (R114, R124). -/
theorem exec_build_gencodes {s : State} (hs : s.Ready) :
    ∃ t u T, exec .build s = .next t ∧ exec .gencodes t = .next u ∧ u.Completed ∧ Undisturbed s u ∧ Coded u T := by
  obtain ⟨t, u, hbuild, hgencodes, hdone, hlen⟩ := everySymbolHasACodeAfterBuild s hs.1
  have hB := built_of_exec hs.1 hbuild
  obtain ⟨u', T, hgencodes', -, htree, hcodes, hT, hcode⟩ :=
    gencodesWritesEveryPath t hB.completed.1 hB.treeValid hB.treeInv
  cases hgencodes.symm.trans hgencodes'
  obtain ⟨⟨hmade, -⟩, -, hkept⟩ := exec_buildGencodes_quiet (by decide) hgencodes
  obtain ⟨-, hnode, hroot, hnnodes, -⟩ := hkept rfl
  have hf := hmade.trans (exec_buildGencodes_quiet (by decide) hbuild).1.1
  have hinv : TreeInv u := treeInv_congr hnode hroot hnnodes hB.treeInv
  have hT' : u.tree = some T := (tree_congr hnode hroot hnnodes).trans hT
  have hcoded (v : Sym) (hv : v.toNat ≤ 256) : (codeAt u.code v.toNat).len ≠ 0 := fun h0 => by
    have hpos := hlen v.toNat hv
    rw [h0] at hpos
    cases hpos
  exact ⟨t, u, T, hbuild, hgencodes, hdone,
    ⟨(portsAnswer_congr (congrArg State.draws hf :) (congrArg State.ioCanFail hf :)).mpr hs.2,
      (congrArg State.magicTree hf :), (congrArg State.srcBits hf :), (congrArg State.snkBits hf :)⟩,
    ⟨htree, hcodes, hinv, hnnodes.trans hB.nnodes, hT', hcoded, fun v hv =>
      codeBits_mem_paths hinv hT' (hcode v hv) (hcoded v hv)⟩⟩

/-! ## COMPRESS: from the codes to the stream -/

/-- What a command between GENCODES and ENCODE does: it appends these bits, leaves the tables, and the engine is ready
for the next. -/
structure Wrote (s : State) (bits : List Bool) (t : State) : Prop where
  ready : t.Ready
  tables : tableFrame t = tableFrame s
  snkBits : t.snkBits = s.snkBits ++ bits

theorem exec_wrmagic_wrote {s : State} (hs : s.Ready) :
    ∃ t, exec .wrmagic s = .next t ∧ Wrote s (binBits s.magicTree) t :=
  ⟨_, wrmagicAppendsTheMagicNumber s hs, ⟨rfl, portsAnswer_tail hs.2⟩, rfl, rfl⟩

theorem exec_wrtree_wrote {s : State} {T : Tree} (hs : s.Ready) (h : Coded s T) :
    ∃ t, exec .wrtree s = .next t ∧ Wrote s T.header t := by
  obtain ⟨n, he⟩ := exec_wrtree hs h.treeValid h.tree
  exact ⟨_, he, ⟨rfl, fun d hd => hs.2 d (List.mem_of_mem_drop hd)⟩, rfl, rfl⟩

/-- REWIND where the source answers (R172). -/
theorem exec_rewind {s : State} (hs : s.Ready) :
    ∃ t, exec .rewind s = .next t ∧ Wrote s [] t ∧ t.srcPos = 0 := by
  have hbody : rewindBody (s.withSeq .busy false) =
      .ok () (((s.withSeq .busy false).withDraws s.draws.tail).withSrcPos 0) := by
    rw [rewindBody, srcRewind_done (s := s.withSeq .busy false) hs.2]
    rfl
  exact ⟨_, runCommand_ok hs.1 rfl hbody, ⟨⟨rfl, portsAnswer_tail hs.2⟩, rfl, (List.append_nil _).symm⟩, rfl⟩

/-- The symbols of words and the pseudo-EOF are at most 256. -/
theorem symbolsToSend_le {words : List Byte} {v : Sym} (hv : v ∈ symbolsToSend words) : v.toNat ≤ 256 := by
  obtain hv | hv := List.mem_append.mp hv
  · obtain ⟨b, -, rfl⟩ := List.mem_map.mp hv
    rw [BitVec.toNat_setWidth_of_le (by decide)]
    exact b.isLt.le
  · rw [List.mem_singleton.mp hv]
    decide

/-- ENCODE from a source of whole words, where every symbol has a code (R150). -/
theorem exec_encode_words {s : State} {T : Tree} {words : List Byte} (hs : s.Ready) (h : Coded s T)
    (hw : s.unread = bitsOfBytes words) :
    ∃ t, exec .encode s = .next t ∧ t.Completed ∧ Coded t T ∧ t.srcPos = t.srcBits.length ∧
      tableFrame t = tableFrame s ∧ t.snkBits = s.snkBits ++ (symbolsToSend words).flatMap t.codeBits := by
  obtain ⟨t, he, hdone, hpos, hsnk⟩ := exec_encode_completes hs h.codesValid fun v hv => h.coded v (symbolsToSend_le hv)
  have hf := (exec_keeps_tables (.inr (by decide)) he).frame_eq
  have hcode : t.code = s.code := (congrArg State.code hf :)
  have hbits : t.codeBits = s.codeBits := by
    unfold State.codeBits
    rw [hcode]
  rw [hw, wordsOf_bitsOfBytes, ← hbits] at hsnk
  exact ⟨t, he, hdone, h.congr hf, hpos.trans (congrArg (fun u : State => u.srcBits.length) hf :).symm, hf, hsnk⟩

/-- The stream of a sequence of words under the tree and the codes of a state (R73). -/
def streamOf (t : State) (T : Tree) (words : List Byte) : List Bool :=
  binBits t.magicTree ++ T.header ++ (symbolsToSend words).flatMap t.codeBits

/-- WRMAGIC, WRTREE, REWIND, ENCODE: the stream of the source's words is appended (R178). -/
theorem exec_write_stream {s : State} {T : Tree} {words : List Byte} (hs : s.Ready) (h : Coded s T)
    (hw : s.srcBits = bitsOfBytes words) :
    ∃ a b c t, exec .wrmagic s = .next a ∧ exec .wrtree a = .next b ∧ exec .rewind b = .next c ∧
      exec .encode c = .next t ∧ t.Completed ∧ Coded t T ∧ t.srcPos = t.srcBits.length ∧
      t.magicTree = s.magicTree ∧ t.snkBits = s.snkBits ++ streamOf t T words := by
  obtain ⟨a, ha, hwa⟩ := exec_wrmagic_wrote hs
  have hca := h.congr hwa.tables
  obtain ⟨b, hb, hwb⟩ := exec_wrtree_wrote hwa.ready hca
  obtain ⟨c, hc, hwc, hpos⟩ := exec_rewind hwb.ready
  have hf := hwc.tables.trans (hwb.tables.trans hwa.tables)
  have hu : c.unread = bitsOfBytes words := by
    rw [State.unread, hpos, List.drop_zero, ← hw]
    exact (congrArg State.srcBits hf :)
  obtain ⟨t, ht, hdone, hct, htpos, htf, hsnk⟩ := exec_encode_words hwc.ready (h.congr hf) hu
  have hmagic : t.magicTree = s.magicTree := (congrArg State.magicTree (htf.trans hf) :)
  refine ⟨a, b, c, t, ha, hb, hc, ht, hdone, hct, htpos, hmagic, ?_⟩
  rw [hsnk, hwc.snkBits, hwb.snkBits, hwa.snkBits, streamOf, hmagic]
  simp only [List.append_assoc, List.nil_append]

/-- COMPRESS on whole words, none of them `2^32` times: it appends their stream (R178). -/
theorem exec_compress_words {s : State} {words : List Byte} (hs : s.Ready) (hw : s.srcBits = bitsOfBytes words)
    (hpos : s.srcPos = 0) (hc : ∀ b : Byte, words.count b < 2 ^ 32) :
    ∃ t T, exec .compress s = .next t ∧ t.Completed ∧ Coded t T ∧ t.srcPos = t.srcBits.length ∧
      t.magicTree = s.magicTree ∧ t.snkBits = s.snkBits ++ streamOf t T words := by
  have hu : wordsOf s.unread = words := by rw [State.unread, hpos, List.drop_zero, hw, wordsOf_bitsOfBytes]
  obtain ⟨a, hcount, ⟨ha, -⟩, hca⟩ := exec_count hs fun b => by rw [hu]; exact hc b
  obtain ⟨b, c, T, hbuild, hgencodes, ⟨hcidle, -⟩, hbc, hcoded⟩ := exec_build_gencodes ⟨ha, hca.ports⟩
  obtain ⟨d, e, f, t, hwrmagic, hwrtree, hrewind, hencode, hdone, ht, htpos, hmagic, hsnk⟩ :=
    exec_write_stream ⟨hcidle, hbc.ports⟩ hcoded (hbc.srcBits.trans (hca.srcBits.trans hw))
  refine ⟨t, T, ?_, hdone, ht, htpos, hmagic.trans (hbc.magicTree.trans hca.magicTree),
    by rw [hsnk, hbc.snkBits, hca.snkBits]⟩
  have hbuilt := thenRun_eq_next.mpr ⟨a, hcount, hbuild⟩
  have hcodes := thenRun_eq_next.mpr ⟨b, hbuilt, hgencodes⟩
  have hmagicked := thenRun_eq_next.mpr ⟨c, hcodes, hwrmagic⟩
  have htreed := thenRun_eq_next.mpr ⟨d, hmagicked, hwrtree⟩
  have hrewound := thenRun_eq_next.mpr ⟨e, htreed, hrewind⟩
  exact thenRun_eq_next.mpr ⟨f, hrewound, hencode⟩

/-! ## DECOMPRESS -/

/-- RDMAGIC on a source that holds the magic number and answers (R135). -/
theorem exec_rdmagic_match {s : State} {rest : List Bool} (hs : s.Ready) (hu : s.unread = binBits s.magicTree ++ rest) :
    ∃ t, exec .rdmagic s = .next t ∧ t.Ready ∧ t.unread = rest ∧ t.snkBits = s.snkBits := by
  have hbody := rdmagicBody_value (s := s.withSeq .busy false) hs.2 hu
  rw [if_pos (by rfl)] at hbody
  refine ⟨_, runCommand_ok hs.1 rfl hbody, ⟨rfl, portsAnswer_tail hs.2⟩, ?_, rfl⟩
  have hdrop : (s.srcBits.drop (s.srcPos + 32)) = s.unread.drop 32 := List.drop_drop.symm
  exact hdrop.trans (by rw [hu, List.drop_left' (binBits_length _)])

/-- DECOMPRESS on the magic number, the header of a tree RDTREE accepts and a body over its leaves (R179). -/
theorem exec_decompress_stream {s : State} {T : Tree} {ls : List (List Bool × Sym)} {e rest : List Bool} (hs : s.Ready)
    (hT : T.Fits) (hls : ∀ l ∈ ls, l ∈ T.paths ∧ l.2 ≠ 256) (he : (e, (256 : Sym)) ∈ T.paths)
    (hu : s.unread = binBits s.magicTree ++ (T.header ++ (ls.flatMap Prod.fst ++ e ++ rest))) :
    ∃ t, exec .decompress s = .next t ∧ t.Completed ∧ t.tree = some T ∧ t.unread = rest ∧
      t.snkBits = s.snkBits ++ ls.flatMap fun l => binBits (l.2.setWidth 8) := by
  obtain ⟨a, hmagic, ha, hua, hsnka⟩ := exec_rdmagic_match hs hu
  obtain ⟨b, hread, ⟨hb, -⟩, hload⟩ := exec_rdtree_header ha hT hua
  have hub := hload.unread hua
  obtain ⟨t, n, hdecode, hdone, hsnk, hpos, -⟩ := decodeWritesTheLeavesReached b T ls e rest ⟨hb, hload.ports⟩
    hload.treeValid (hload.holds.treeInv hT) hload.holds.tree hls he hub
  have hf := (exec_keeps_tables (.inl rfl) hdecode).frame_eq
  have htree : t.tree = b.tree := tree_congr (congrArg State.node hf :) (congrArg State.root hf :)
    (congrArg State.nnodes hf :)
  have hsrc : t.srcBits = b.srcBits := (congrArg State.srcBits hf :)
  refine ⟨t, thenRun_eq_next.mpr ⟨b, thenRun_eq_next.mpr ⟨a, hmagic, hread⟩, hdecode⟩, hdone,
    htree.trans hload.holds.tree, ?_, by rw [hsnk, hload.snkBits, hsnka]⟩
  have hdrop : t.unread = b.unread.drop (ls.flatMap Prod.fst ++ e).length := by
    rw [State.unread, State.unread, hsrc, hpos, List.drop_drop]
  rw [hdrop, hub, List.drop_left]

/-! ## There and back -/

/-- A word as its code among the codes of a state, and its symbol. -/
def codeOfWord (t : State) (b : Byte) : List Bool × Sym := (t.codeBits (b.setWidth 9), b.setWidth 9)

theorem streamOf_eq (t : State) (T : Tree) (words : List Byte) :
    streamOf t T words = binBits t.magicTree ++ (T.header ++
      ((words.map (codeOfWord t)).flatMap Prod.fst ++ t.codeBits 256)) := by
  simp [streamOf, symbolsToSend, codeOfWord, List.flatMap_map]

/-- The symbols of words are no pseudo-EOF, and the tree has a leaf under each code (R150). -/
theorem codeOfWord_mem {t : State} {T : Tree} (h : Coded t T) {words : List Byte} :
    ∀ l ∈ words.map (codeOfWord t), l ∈ T.paths ∧ l.2 ≠ 256 := by
  intro l hl
  obtain ⟨b, -, rfl⟩ := List.mem_map.mp hl
  have hb : (b.setWidth 9 : Sym).toNat = b.toNat := BitVec.toNat_setWidth_of_le (by decide)
  refine ⟨h.leaf _ (hb.trans_le b.isLt.le), fun he => ?_⟩
  exact absurd ((congrArg BitVec.toNat he).symm.trans hb) (Nat.ne_of_gt b.isLt)

/-- The words written for the codes of words are those words (R82). -/
theorem codeOfWord_words (t : State) (words : List Byte) :
    ((words.map (codeOfWord t)).flatMap fun l => binBits (l.2.setWidth 8)) = bitsOfBytes words := by
  simp [codeOfWord, List.flatMap_map, bitsOfBytes]

/-- Settles O50: what COMPRESS wrote is a stream DECOMPRESS reads, over a tree that has a leaf under each code. -/
theorem roundTripGivesTheWordsBack : Obligations.RoundTripGivesTheWordsBack := by
  intro s u words fill hs hw hpos hempty hc hu hmagic
  obtain ⟨t, T, hcompress, -, hcoded, -, hmagict, hsnk⟩ := exec_compress_words hs hw hpos hc
  rw [hempty, List.nil_append, streamOf_eq, hmagict, ← hmagic] at hsnk
  have hunread : (u.withStreams (t.snkBits ++ fill)).unread = binBits u.magicTree ++ (T.header ++
      ((words.map (codeOfWord t)).flatMap Prod.fst ++ t.codeBits 256 ++ fill)) := by
    rw [hsnk]
    simp [State.unread, State.withStreams]
  obtain ⟨v, hdecompress, hdone, -, hrest, hout⟩ := exec_decompress_stream (s := u.withStreams (t.snkBits ++ fill)) hu
    (fits_of_inv hcoded.treeInv hcoded.tree) (codeOfWord_mem hcoded) (hcoded.leaf 256 (by decide)) hunread
  exact ⟨t, v, hcompress, hdecompress, hdone, hout.trans (codeOfWord_words t words), hrest⟩

end Sys2Proof.Machine
end

section
/-! PROOFS. The sequencer: what it ignores, CLEAR and REWIND, and the two sequences on their streams (R170 to R179). -/

namespace Sys2Proof.Machine

/-! ## What is ignored -/

/-- Outside `IDLE` a command does not start (R170). -/
theorem runCommand_ignored {op : BitVec 4} {p : Bool} {body : State → Res Unit} {s : State} (h : s.seq ≠ .idle) :
    runCommand op p body s = .next s := by
  cases hs : s.seq with
  | idle => exact absurd hs h
  | busy => exact runCommand_busy hs
  | error => exact runCommand_error hs

/-- Outside `IDLE` the engine starts no transfer (log entry 7). -/
theorem runTransfer_ignored {body : State → Res Unit} {s : State} (h : s.seq ≠ .idle) :
    runTransfer body s = .next s := by
  cases hs : s.seq with
  | idle => exact absurd hs h
  | busy | error => simp only [runTransfer, hs]

/-- Outside `IDLE` every instruction but CLEAR is ignored, a sequence because each of its commands is (R170, R195). -/
theorem exec_ignored {i : Instr} {s : State} (hs : s.seq ≠ .idle) (hi : i ≠ .clear) : exec i s = .next s := by
  by_cases hw : i ∈ tableWriters
  · cases i with
    | build | gencodes | rdtree | decode => exact runCommand_ignored hs
    | clear => exact absurd rfl hi
    | compress =>
      simp only [exec, execCompress, execCount, execBuild, execGencodes, execWrmagic, execWrtree, execRewind,
        execEncode, runCommand_ignored hs, thenRun_next]
    | decompress =>
      simp only [exec, execDecompress, execRdmagic, execRdtree, execDecode, runCommand_ignored hs, thenRun_next]
    | _ => simp [tableWriters] at hw
  · obtain ⟨body, -, ⟨op, p, he⟩ | he⟩ := exec_of_not_tableWriter hw
    · exact (he s).trans (runCommand_ignored hs)
    · exact (he s).trans (runTransfer_ignored hs)

/-- Settles O12: `ERROR` is not `IDLE`. -/
theorem errorIgnoresAllButClear : Obligations.ErrorIgnoresAllButClear := fun _ _ hs hi =>
  exec_ignored (by rw [hs]; decide) hi

/-! ## CLEAR and REWIND -/

/-- CLEAR is accepted in `IDLE` and in `ERROR` (R174). -/
theorem execClear_accepted {s : State} (h : s.seq ≠ .busy) :
    execClear s = .next ((discardTables s).withSeq .idle true) := by
  cases hs : s.seq with
  | busy => exact absurd hs h
  | idle | error => simp only [execClear, hs]

/-- CLEAR is ignored in `BUSY` (R174). -/
theorem execClear_busy {s : State} (h : s.seq = .busy) : execClear s = .next s := by simp only [execClear, h]

/-- Settles O16: what an accepted CLEAR discards, and that it is ignored in `BUSY`. -/
theorem clearDiscardsTheCall : Obligations.ClearDiscardsTheCall := fun _ => ⟨execClear_accepted, execClear_busy⟩

/-- REWIND's pseudocode on a source that answers (R55, R172). -/
theorem rewindBody_answered {s : State} (h : s.PortsAnswer) :
    rewindBody s = .ok () ((s.withDraws s.draws.tail).withSrcPos 0) := by
  rw [rewindBody, srcRewind_done h, andThen_ok]

/-- Settles O42: one rewind call, answered. -/
theorem rewindMovesTheSourceToItsStart : Obligations.RewindMovesTheSourceToItsStart := fun _ ⟨hidle, hports⟩ =>
  runCommand_ok hidle rfl (rewindBody_answered hports)

/-! ## COMPRESS and DECOMPRESS -/

/-- The header of a tree with a leaf for every symbol: 256 tokens of one bit and 257 of ten (R78, R133). -/
theorem Coded.header_length {t : State} {T : Tree} (h : Coded t T) : T.header.length = 2826 := by
  have hinternals := tree_internals h.treeInv h.tree
  rw [h.nnodes, show (513 : BitVec 10).toNat = 513 from rfl] at hinternals
  have hleaves := T.leaves_eq
  rw [T.header_length]
  omega

/-- The body of a stream is the codes of the words, then the pseudo-EOF's (R79). -/
theorem streamOf_eq_codes (t : State) (T : Tree) (words : List Byte) :
    streamOf t T words = binBits t.magicTree ++ T.header ++
      (words.flatMap (fun b => t.codeBits (b.setWidth 9)) ++ t.codeBits 256) := by
  rw [streamOf, symbolsToSend, List.flatMap_append, List.flatMap_map, List.flatMap_singleton]

/-- Settles O48: the seven commands append the stream of the source's words under the tree BUILD makes. -/
theorem compressWritesTheStream : Obligations.CompressWritesTheStream := by
  intro s words hs hw hpos hc
  obtain ⟨t, T, he, hdone, hcoded, hend, hmagic, hsnk⟩ := exec_compress_words hs hw hpos hc
  have hsrc : t.srcBits = s.srcBits := (congrArg State.srcBits (exec_moves he).frame_eq :)
  rw [hsrc] at hend
  rw [streamOf_eq_codes, hmagic] at hsnk
  exact ⟨t, T, he, hdone, hcoded.treeValid, hcoded.codesValid, hcoded.tree, hcoded.header_length, hend,
    hsnk.trans (by simp only [List.append_assoc])⟩

/-- Settles O49: RDMAGIC takes the magic number, RDTREE the header, DECODE the body. -/
theorem decompressWritesTheWords : Obligations.DecompressWritesTheWords := by
  intro s T ls e rest hs hT hls he hu
  refine exec_decompress_stream hs hT hls he (hu.trans ?_)
  simp only [List.append_assoc]

end Sys2Proof.Machine
end

section
/-! PROOFS. Errors: what a failed precondition leaves, how `ERROR` is left, and headers cut short (R183, R186, R195). -/

namespace Sys2Proof.Machine

/-! ## Failed preconditions -/

/-- A command whose precondition fails writes `STATE`, `DONE` and `ERR` alone (R171, R186). -/
theorem runCommand_unmet {op : BitVec 4} {p : Bool} {body : State → Res Unit} {s : State} (hs : s.seq = .idle)
    (hp : p = false) :
    runCommand op p body s = .next { s with seq := .error, done := false, err := (outOfSequence op).reg } := by
  rw [hp, runCommand_refused hs]
  rfl

/-- Settles O15: the three commands that need a tree, and ENCODE, which needs a code table. -/
theorem failedPreconditionsRaiseSequenceError : Obligations.FailedPreconditionsRaiseSequenceError := by
  refine fun s hs => ⟨fun hv p hp => ?_, runCommand_unmet hs⟩
  simp only [List.mem_cons, List.not_mem_nil, or_false] at hp
  obtain rfl | rfl | rfl := hp
  all_goals exact runCommand_unmet hs hv

/-! ## Leaving `ERROR` -/

/-- An instruction is run for a program line, or for the command word that presents it. -/
theorem nextEvent_eq_run {s u : State} {i : Instr} (h : nextEvent s = .run i u) :
    ∃ es, s.host = .line i :: es ∨ ∃ w, s.host = .write 0 w :: es ∧ decodeCommand w = i := by
  match hh : s.host with
  | [] | .read _ :: _ | .reset :: _ | .attach _ :: _ => simp [nextEvent, hh] at h
  | .line j :: es =>
    simp only [nextEvent, hh, Event.run.injEq] at h
    exact ⟨es, .inl (by rw [h.1])⟩
  | .write num w :: es =>
    by_cases hn : num = 0
    · simp only [nextEvent, hh, if_pos hn, Event.run.injEq] at h
      exact ⟨es, .inr ⟨w, by rw [hn], h.1⟩⟩
    · simp only [nextEvent, hh, if_neg hn, reduceCtorEq] at h

/-- Settles O17: in `ERROR` an instruction other than CLEAR is ignored, and no event but reset reaches `STATE` or
`ERR`. -/
theorem onlyClearAndResetLeaveError : Obligations.OnlyClearAndResetLeaveError := by
  intro s t hs h
  obtain ⟨i, es, hn, hx⟩ | hm | ⟨es, hes, -⟩ | ⟨bits, es, -, rfl⟩ := step_cases h
  · by_cases hi : i = .clear
    · obtain ⟨es', hhost⟩ := nextEvent_eq_run hn
      rw [hi] at hhost
      exact .inr ⟨es', .inr hhost⟩
    · rw [errorIgnoresAllButClear (s.withHost es) i hs hi] at hx
      cases hx
      exact .inl ⟨hs, rfl⟩
  · exact .inl ⟨(congrArg State.seq hm.frame_eq :).trans hs, (congrArg State.err hm.frame_eq :)⟩
  · exact .inr ⟨es, .inl hes⟩
  · obtain ⟨-, e⟩ | e := attachStreams_cases bits (s.withHost es) <;> rw [e] <;> exact .inl ⟨hs, rfl⟩

/-! ## Headers cut short -/

/-- A leaf among a tree's nodes stands at the end of its path. -/
theorem path_of_leaf {T : Tree} {p : List Bool} {v : Sym} (h : (p, some v) ∈ T.nodes) : (p, v) ∈ T.paths := by
  induction T generalizing p with
  | leaf w => simpa [Tree.paths, Tree.nodes] using h
  | node l r ihl ihr =>
    simp only [Tree.nodes, List.mem_cons, List.mem_append, List.mem_map, Prod.mk.injEq, reduceCtorEq, and_false,
      false_or] at h
    obtain ⟨⟨q, _⟩, hq, rfl, rfl⟩ | ⟨⟨q, _⟩, hq, rfl, rfl⟩ := h
    · simp [Tree.paths, ihl hq]
    · simp [Tree.paths, ihr hq]

theorem Tree.Fits.symbolsBefore {T : Tree} (h : T.Fits) (k : Nat) : T.SymbolsBefore k :=
  fun _ _ p v hj => BitVec.le_def.mp (h.2.2 (p, v) (path_of_leaf (List.mem_of_getElem? hj)))

/-- A token cut short is no bit at all, or a leaf's tag and fewer than nine bits of its symbol (R183). -/
theorem token_cut {o : Option Sym} {bits cut : List Bool} (h : token o = bits ++ cut) (hcut : cut ≠ []) :
    bits = [] ∨ ∃ rest, rest.length < 9 ∧ bits = true :: rest := by
  cases bits with
  | nil => exact .inl rfl
  | cons b rest =>
    have hlen := congrArg List.length h
    cases o with
    | none => simp [token, hcut] at hlen
    | some v =>
      simp only [token, List.cons_append, List.cons.injEq] at h
      refine .inr ⟨rest, ?_, by rw [← h.1]⟩
      have hpos := List.length_pos_iff.mpr hcut
      simp only [token, List.length_cons, List.length_append, binBits_length] at hlen
      omega

/-- These bits are some whole tokens of a header, then the next one cut short. -/
def CutAmong (l : List (List Bool × Option Sym)) (bits : List Bool) : Prop :=
  ∃ k, k < l.length ∧ (bits = ((l.take k).flatMap fun x => token x.2) ∨
    ∃ rest, rest.length < 9 ∧ bits = ((l.take k).flatMap fun x => token x.2) ++ true :: rest)

theorem CutAmong.cons {l : List (List Bool × Option Sym)} {bits : List Bool} (h : CutAmong l bits)
    (x : List Bool × Option Sym) : CutAmong (x :: l) (token x.2 ++ bits) := by
  obtain ⟨k, hk, rfl | ⟨rest, hrest, rfl⟩⟩ := h
  · exact ⟨k + 1, Nat.succ_lt_succ hk, .inl rfl⟩
  · exact ⟨k + 1, Nat.succ_lt_succ hk, .inr ⟨rest, hrest, (List.append_assoc ..).symm⟩⟩

/-- A sequence of tokens cut short: the cut falls within the first token, or behind it. -/
theorem cutAmong_of_append {l : List (List Bool × Option Sym)} {bits cut : List Bool}
    (h : bits ++ cut = l.flatMap fun x => token x.2) (hcut : cut ≠ []) : CutAmong l bits := by
  induction l generalizing bits with
  | nil => exact absurd (List.append_eq_nil_iff.mp h).2 hcut
  | cons x l ih =>
    rw [List.flatMap_cons, List.append_eq_append_iff] at h
    obtain ⟨cut', htoken, htail⟩ | ⟨bits', rfl, htail⟩ := h
    · by_cases hc : cut' = []
      · rw [hc, List.append_nil] at htoken
        rw [hc] at htail
        have hnone : CutAmong (x :: l) (token x.2 ++ []) := (ih (bits := []) htail).cons x
        rwa [List.append_nil, htoken] at hnone
      · exact ⟨0, Nat.succ_pos _, token_cut htoken hc⟩
    · exact (ih htail.symm).cons x

/-- Settles O40: wherever the header is cut, the node there is refused for its tag bit or for its symbol. -/
theorem cutHeadersAreTruncatedInput : Obligations.CutHeadersAreTruncatedInput := by
  intro s T cut hs hpos hT hu hcut
  obtain ⟨k, hk, hbits⟩ := cutAmong_of_append (hu.trans (header_eq T)) hcut
  have h513 : k < 513 := (nodes_length T ▸ hk).trans_le hT.2.1
  have hrefuses := fun rest =>
    (rdtreeRefusesBadHeaders s hs hpos).1 T k _ _ rest (List.getElem?_eq_getElem hk) (hT.symbolsBefore k)
  obtain hbits | ⟨rest, hrest, hbits⟩ := hbits
  · obtain ⟨t, hx, hfail, hv, -, -, -, hend⟩ := (hrefuses []).2.1 h513 hbits
    exact ⟨t, hx, hend, hv, .inl hfail⟩
  · obtain ⟨t, hx, hfail, hv, -, -, -, hend⟩ := (hrefuses rest).2.2.1 h513 hbits hrest
    exact ⟨t, hx, hend, hv, .inr hfail⟩

end Sys2Proof.Machine
end

section
/-! PROOFS. Failing ports: every instruction stops at the call that is answered `IOERR` (R58, R181, R184, R190). -/

namespace Sys2Proof.Machine

/-! ## Stopping at a call -/

/-- An instruction's calls do not depend on `STATE` and `DONE`. -/
theorem callsOf_withSeq {i : Instr} {s : State} {cs : List Call} (q : Seq) (b : Bool) (h : CallsOf i s cs) :
    CallsOf i (s.withSeq q b) cs := by
  cases i with
  | wrtree =>
    obtain ⟨hv, hinv, T, hT, hcs⟩ := h
    exact ⟨hv, treeInv_congr (s := s) rfl rfl rfl hinv, T, (withSeq_tree s q b).trans hT, hcs⟩
  | decode =>
    obtain ⟨hv, hinv, T, ls, p, cut, v, hT, hls, hp, hcut, hu, hcs⟩ := h
    have hdescend : descend (s.withSeq q b) = descend s :=
      funext fun k => funext fun path => descend_congr (s := s) (t := s.withSeq q b) rfl rfl k path
    have hreads : pathReads (s.withSeq q b) = pathReads s :=
      funext fun path => by simp only [pathReads, hdescend, State.withSeq_root]
    have hwords : wordCalls (s.withSeq q b) = wordCalls s :=
      funext fun l => by simp only [wordCalls, hreads, hdescend, State.withSeq_root]
    exact ⟨hv, treeInv_congr (s := s) rfl rfl rfl hinv, T, ls, p, cut, v, (withSeq_tree s q b).trans hT, hls, hp, hcut,
      hu, hcs.trans (by rw [hwords, hreads, hdescend, State.withSeq_root])⟩
  | _ => exact h

/-- RDMAGIC makes one call (R135). -/
theorem rdmagicBody_stops (s : State) : StopsIn (rdmagicBody s) s (calls s [.read 32]) :=
  stops_readField (fun _ => stops_nil _ _) fun _ => stops_nil _ _

/-- WRTREE's calls (R132), as `CallsOf` lists them. -/
theorem wrtreeBody_stops {s : State} {cs : List Call} (h : CallsOf .wrtree s cs) : StopsIn (wrtreeBody s) s cs := by
  obtain ⟨-, -, T, hT, rfl⟩ := h
  exact (putTree_calls hT).1

/-- RDTREE's calls (R138), as `CallsOf` lists them. -/
theorem rdtreeBody_stops {s : State} {cs : List Call} (h : CallsOf .rdtree s cs) : StopsIn (rdtreeBody s) s cs := by
  obtain ⟨T, k, hk, h513, hT, ⟨hu, rfl⟩ | ⟨hu, rfl⟩⟩ := h
  · exact (rdtreeBody_calls hk h513 hT).1 hu
  · exact (rdtreeBody_calls hk h513 hT).2 hu

/-- An instruction that starts in `s` ends at the call `c`, the calls `cs` before it answered, `CUR` being `cur`: this
draw is for it, and these are left (R184, R190, R225). -/
def EndsAt (d : Draw) (ds : List Draw) (c : PortCall) (cur : NodeIx) (s : State) (cs : List Call)
    (r : Host.Outcome State Fault Refusal) : Prop :=
  ∃ u, r = .next (stoppedAt d c u) ∧ u.draws = ds ∧ u.cur = cur ∧ After (s.withSeq .busy false) cs u

theorem stoppedAt_seq {d : Draw} {c : PortCall} {u : State} (hu : u.seq = .busy) : (stoppedAt d c u).seq ≠ .idle := by
  unfold stoppedAt
  split
  · rw [State.withInFlight_seq, hu]
    decide
  · rw [enterError_seq]
    decide

/-- The commands that follow in a sequence are ignored (R85, R170). -/
theorem EndsAt.thenRun {d : Draw} {ds : List Draw} {c : PortCall} {cur : NodeIx} {s : State} {cs : List Call}
    {r : Host.Outcome State Fault Refusal} (h : EndsAt d ds c cur s cs r) {i : Instr} (hi : i ≠ .clear) :
    EndsAt d ds c cur s cs (thenRun r (exec i)) := by
  obtain ⟨u, rfl, hdraws, hcur, hafter⟩ := h
  obtain ⟨-, -, hseq, -⟩ := fixed_eq hafter.same
  exact ⟨u, exec_ignored (stoppedAt_seq hseq) hi, hdraws, hcur, hafter⟩

section
variable {s : State} {cs : List Call} {k : Nat} {c : PortCall} {cur : NodeIx} {d : Draw} {ds : List Draw}
  (hs : s.seq = .idle) (hc : cs[k]? = some (c, cur)) (hd : Ends s d)
  (hds : s.draws = List.replicate k .answer ++ d :: ds)
include hs hc hd hds

theorem runCommand_endsAt {op : BitVec 4} {p : Bool} {body : State → Res Unit} (hp : p = true)
    (hb : StopsIn (body (s.withSeq .busy false)) (s.withSeq .busy false) cs) :
    EndsAt d ds c cur s (cs.take k) (runCommand op p body s) := by
  obtain ⟨u, -, h⟩ := runCommand_stops hs hp hb hc hd hds
  exact ⟨u, h⟩

theorem runTransfer_endsAt {body : State → Res Unit} (hb : StopsIn (body s) s cs) :
    EndsAt d ds c cur s (cs.take k) (runTransfer body s) := by
  obtain ⟨u, hx, hdraws, hcur, hafter⟩ := runTransfer_stops hs hb hc hd hds
  obtain ⟨hsrc, hfails, -, -⟩ := fixed_eq hafter.same
  exact ⟨_, hx, hdraws, hcur, hafter.pos, hafter.sink, by simp [fixed, hsrc, hfails]⟩

/-- Whichever of an instruction's calls is answered `IOERR` or never, the instruction ends there (R12, R184, R225). -/
theorem exec_endsAt {i : Instr} (h : CallsOf i s cs) : EndsAt d ds c cur s (cs.take k) (exec i s) := by
  have hbusy := callsOf_withSeq .busy false h
  have hcommand {op : BitVec 4} {p : Bool} {body : State → Res Unit} := runCommand_endsAt (op := op) (p := p)
    (body := body) hs hc hd hds
  have htransfer {body : State → Res Unit} := runTransfer_endsAt (body := body) hs hc hd hds
  cases i with
  | count => exact hcommand rfl (countBody_stops hbusy)
  | wrmagic =>
    obtain rfl : cs = _ := h
    exact hcommand rfl (stops_put _ _)
  | wrtree => exact hcommand h.1 (wrtreeBody_stops hbusy)
  | rewind =>
    obtain rfl : cs = _ := h
    exact hcommand rfl (rewindBody_stops _)
  | encode => exact hcommand h.1 (encodeBody_stops hbusy)
  | rdmagic =>
    obtain rfl : cs = _ := h
    exact hcommand rfl (rdmagicBody_stops _)
  | rdtree => exact hcommand rfl (rdtreeBody_stops hbusy)
  | decode => exact hcommand h.1 (decodeBody_stops hbusy)
  | compress =>
    have hcount : EndsAt d ds c cur s (cs.take k) (execCount s) := hcommand rfl (countBody_stops hbusy)
    exact (((((hcount.thenRun (i := .build) nofun).thenRun (i := .gencodes) nofun).thenRun (i := .wrmagic) nofun).thenRun
      (i := .wrtree) nofun).thenRun (i := .rewind) nofun).thenRun (i := .encode) nofun
  | decompress =>
    obtain rfl : cs = _ := h
    have hmagic : EndsAt d ds c cur s _ (execRdmagic s) := hcommand rfl (rdmagicBody_stops _)
    exact (hmagic.thenRun (i := .rdtree) nofun).thenRun (i := .decode) nofun
  | streamMagic | streamWord w =>
    obtain rfl : cs = _ := h
    exact htransfer (stops_put _ s)
  | streamHeaderInternal =>
    obtain rfl : cs = _ := h
    exact htransfer (putToken_calls s).1.1
  | streamHeaderLeaf v =>
    obtain ⟨hv, rfl⟩ := h
    rw [exec, execStreamHeaderLeaf]
    refine htransfer ?_
    rw [if_pos (BitVec.le_def.mpr hv)]
    exact ((putToken_calls s).2 v).1
  | streamBodyCode bits | streamBodyPseudoEof bits =>
    obtain rfl : cs = _ := h
    exact htransfer (putBits_calls bits s).1
  | build | gencodes | clear | illegal0 | illegal12 | illegal13 | illegal14 | illegal15 =>
    obtain rfl : cs = [] := h
    cases hc

end

/-! ## After `IOERR` -/

@[simp] theorem afterIoErr_draws (c : PortCall) (u : State) : (afterIoErr c u).draws = u.draws := by cases c <;> rfl
@[simp] theorem afterIoErr_cur (c : PortCall) (u : State) : (afterIoErr c u).cur = u.cur := by cases c <;> rfl

theorem stoppedAt_ioErr (c : PortCall) (u : State) :
    stoppedAt .ioErr c u = enterError ⟨.io, ioSub c, 0⟩ (afterIoErr c u) := if_neg (by decide)

/-- After `IOERR` the source stands anywhere in itself (R53, R55). -/
theorem srcAfterError_pos (u : State) : (srcAfterError u).srcPos ≤ u.srcBits.length :=
  Nat.le_of_lt_succ (Nat.mod_lt _ (Nat.succ_pos _))

/-- COUNT stopped at the read `k` has counted the `k` words before it (R103). -/
theorem execCount_ioErr_counts {s t : State} {cs : List Call} {k : Nat} {c : PortCall} {cur : NodeIx} {ds : List Draw}
    (hs : s.seq = .idle) (hf : s.ioCanFail = true) (h : CountCalls s cs) (hc : cs[k]? = some (c, cur))
    (hds : s.draws = List.replicate k .answer ++ .ioErr :: ds) (hx : execCount s = .next t) (b : Byte) :
    (ctAt t.ct b.toNat).toNat = ((wordsOf s.unread).take k).count b := by
  obtain ⟨pre, post, hw, hlt, rfl⟩ := h
  have hk : k ≤ pre.length := by
    have hlen := (List.getElem?_eq_some_iff.mp hc).1
    simpa [calls, Nat.lt_succ_iff] using hlen
  obtain ⟨u, hbody, -, -, -, hcounts⟩ := countBody_calls (s := s.withSeq .busy false) hw hlt hk (.inr ⟨rfl, hf⟩)
    (answers_of_replicate (s := s.withSeq .busy false) hds)
    (by rw [State.withSeq_draws, hds, List.drop_left' (List.length_replicate ..)])
  rw [execCount, runCommand_raised hs rfl hbody] at hx
  cases hx
  rw [hw, List.take_append_of_le_length hk]
  exact hcounts b

/-- RDTREE raises its errors before a tree is valid (R138, R143). -/
theorem rdtreeBody_raised {s t : State} {e : Err} (h : rdtreeBody s = .raised e t) :
    t.treeValid = false ∧ t.codesValid = false ∧ t.root = nil := by
  have hleft := rdtreeBody_left s
  rw [h] at hleft
  have hget := (getTree_ends (Config.nodeCap + 1) 0 (rdtreeStart s) (by omega) (by simp)).1
  have hv : t.treeValid = false := by
    rw [rdtreeBody] at h
    cases hr : getTree (Config.nodeCap + 1) 0 (rdtreeStart s) with
    | ok a u =>
      rw [hr] at h hget
      rw [andThen_ok] at h
      split at h
      · cases h
      · split at h <;> cases h
        exact (congrArg State.treeValid hget.1 :)
    | raised e' u =>
      rw [hr] at h hget
      cases h
      exact (congrArg State.treeValid hget.1 :)
    | waits c u => rw [hr] at h; cases h
    | broken f => rw [hr] at h; cases h
  exact ⟨hv, hleft.codesValid, hleft.noRoot hv⟩

/-- Where RDTREE has led into `ERROR`, no tree and no code table is valid (R143). -/
theorem execRdtree_error {s t : State} (hs : s.seq = .idle) (hx : execRdtree s = .next t) (ht : t.seq = .error) :
    t.treeValid = false ∧ t.codesValid = false ∧ t.root = nil := by
  obtain ⟨hne, -⟩ | ⟨-, hp, -⟩ | ⟨-, -, ⟨u, -, rfl⟩ | ⟨e, u, hbody, rfl⟩ | ⟨c, u, hbody, rfl⟩⟩ := runCommand_cases hx
  · exact absurd hs hne
  · cases hp
  · cases ht
  · obtain ⟨hv, hcodes, hroot⟩ := rdtreeBody_raised hbody
    exact ⟨hv, hcodes, hroot⟩
  · have hleft := rdtreeBody_left (s.withSeq .busy false)
    rw [hbody] at hleft
    obtain ⟨hseq, -⟩ := hleft.moves.sequencer
    rw [State.withInFlight_seq, hseq] at ht
    cases ht

/-- The streams after the call `c` is answered `IOERR`, the calls `cs` before it without an error: the source stands
anywhere in itself, or some of the bits have reached the sink (R53, R55, R56). -/
def StreamsFailed (s : State) (cs : List Call) (t : State) : PortCall → Prop
  | .write bits => t.srcPos = s.posAfter cs ∧ ∃ m, t.snkBits = s.snkBits ++ bitsSent cs ++ bits.take m
  | .read _ | .rewind => t.srcPos ≤ s.srcBits.length ∧ t.snkBits = s.snkBits ++ bitsSent cs

/-- An instruction one of whose calls is answered `IOERR`: the error, the draws left, `CUR` and the streams. -/
theorem EndsAt.ioErr {ds : List Draw} {c : PortCall} {cur : NodeIx} {s : State} {cs : List Call}
    {r : Host.Outcome State Fault Refusal} (h : EndsAt .ioErr ds c cur s cs r) :
    ∃ t, r = .next t ∧ t.Failed ⟨4, ioSub c, 0⟩ ∧ t.draws = ds ∧ t.cur = cur ∧ StreamsFailed s cs t c := by
  obtain ⟨u, rfl, hdraws, hcur, hafter⟩ := h
  have hsource : (srcAfterError u).srcPos ≤ s.srcBits.length := hafter.source ▸ srcAfterError_pos u
  refine ⟨enterError ⟨.io, ioSub c, 0⟩ (afterIoErr c u), congrArg _ (stoppedAt_ioErr c u), ⟨rfl, rfl, rfl⟩,
    (afterIoErr_draws c u).trans hdraws, (afterIoErr_cur c u).trans hcur, ?_⟩
  cases c with
  | write bits => exact ⟨hafter.pos, _, congrArg (· ++ _) hafter.sink⟩
  | read n => exact ⟨hsource, hafter.sink⟩
  | rewind => exact ⟨hsource, hafter.sink⟩

/-! ## Whatever the data -/

/-- The sub-codes of the ports an instruction calls (R181, R184). -/
def portSubs : Instr → List (BitVec 4)
  | .count | .rdmagic | .rdtree => [1]
  | .rewind => [3]
  | .encode | .decode | .decompress => [1, 2]
  | .compress => [1, 2, 3]
  | .wrmagic | .wrtree | .streamMagic | .streamHeaderInternal | .streamHeaderLeaf _ | .streamBodyCode _
  | .streamBodyPseudoEof _ | .streamWord _ => [2]
  | .build | .gencodes | .clear | .illegal0 | .illegal12 | .illegal13 | .illegal14 | .illegal15 => []

/-- A draw that ends an operation is still to come, or an instruction has ended with it, at a port with `P`. -/
def Reached (d : Draw) (ds : List Draw) (P : BitVec 4 → Prop) (s : State) : Prop :=
  Pending d ds s s ∨ Ended d ds P s

/-- A command of a sequence leaves the draw to come, or ends with it at one of its own ports (R184, R225). -/
theorem exec_reached_of_sequenced {d : Draw} {ds : List Draw} {P : BitVec 4 → Prop} {i : Instr} {s t : State}
    (hi : i ∈ sequenced) (hP : ∀ x ∈ portSubs i, P x) (hx : exec i s = .next t) (h : Reached d ds P s) :
    Reached d ds P t := by
  cases i with
  | count => exact runCommand_endsWith h (fun _ hu => endsWith_countBody hu (hP 1 (by decide))) hx
  | build => exact runCommand_endsWith h (fun _ hu => endsWith_buildBody hu) hx
  | gencodes => exact runCommand_endsWith h (fun _ hu => endsWith_gencodesBody hu) hx
  | wrmagic => exact runCommand_endsWith h (fun _ hu => endsWith_put _ hu (hP 2 (by decide))) hx
  | wrtree => exact runCommand_endsWith h (fun _ hu => endsWith_putTree _ _ hu (hP 2 (by decide))) hx
  | rewind => exact runCommand_endsWith h (fun _ hu => endsWith_rewind hu (hP 3 (by decide))) hx
  | encode =>
    exact runCommand_endsWith h (fun _ hu => endsWith_encodeLoop _ hu (hP 1 (by decide)) (hP 2 (by decide))) hx
  | rdmagic => exact runCommand_endsWith h (fun _ hu => endsWith_rdmagicBody hu (hP 1 (by decide))) hx
  | rdtree => exact runCommand_endsWith h (fun _ hu => endsWith_rdtreeBody hu (hP 1 (by decide))) hx
  | decode =>
    exact runCommand_endsWith h (fun _ hu => endsWith_decodeBody hu (hP 1 (by decide)) (hP 2 (by decide))) hx
  | _ => simp [sequenced] at hi

/-- So does every instruction accepted in `IDLE`. -/
theorem exec_reached {d : Draw} {ds : List Draw} {i : Instr} {s t : State} (hs : s.seq = .idle)
    (h : Pending d ds s s) (hx : exec i s = .next t) : Reached d ds (· ∈ portSubs i) t := by
  have htransfer {body : State → Res Unit} := runTransfer_endsWith (body := body) (t := t) (d := d) (ds := ds)
    (P := (· ∈ portSubs i)) hs
  by_cases hi : i ∈ sequenced
  · exact exec_reached_of_sequenced hi (fun _ hx => hx) hx (.inl h)
  cases i with
  | compress =>
    refine execCompress_rel (R := fun u v => Reached d ds (· ∈ portSubs .compress) u → Reached d ds _ v)
      (fun hu hv => hv ∘ hu) (fun j hj u v => exec_reached_of_sequenced ?_ ?_) hx (.inl h)
    all_goals revert j; decide
  | decompress =>
    refine execDecompress_rel (R := fun u v => Reached d ds (· ∈ portSubs .decompress) u → Reached d ds _ v)
      (fun hu hv => hv ∘ hu) (fun j hj u v => exec_reached_of_sequenced ?_ ?_) hx (.inl h)
    all_goals revert j; decide
  | clear =>
    obtain ⟨-, rfl⟩ | ⟨-, rfl⟩ := execClear_cases hx
    · exact .inl h
    · exact .inl (h.here rfl rfl)
  | illegal0 | illegal12 | illegal13 | illegal14 | illegal15 =>
    exact htransfer (body := illegalBody _) (.inl h) ((runIllegal_eq _ s).symm.trans hx)
  | streamMagic | streamHeaderInternal | streamWord w => exact htransfer (endsWith_put _ h (List.mem_singleton_self 2)) hx
  | streamHeaderLeaf v =>
    rw [exec, execStreamHeaderLeaf] at hx
    refine htransfer ?_ hx
    split
    · exact endsWith_putLeaf v h (List.mem_singleton_self 2)
    · exact .inl h
  | streamBodyCode bits | streamBodyPseudoEof bits =>
    exact htransfer (endsWith_putBits bits h (List.mem_singleton_self 2)) hx
  | _ => simp [sequenced] at hi

/-- A draw used up is no longer to come. -/
theorem Pending.length_lt {d : Draw} {ds : List Draw} {s : State} (h : Pending d ds s s) :
    ds.length < s.draws.length := by
  obtain ⟨-, -, pre, -, hds⟩ := h
  rw [hds, List.length_append, List.length_cons]
  omega

/-- What that says of the sub-code of the port at which an instruction failed (R181, R184). -/
theorem portSubs_cases (i : Instr) : ∀ x ∈ portSubs i,
    (i ∈ [Instr.count, .rdmagic, .rdtree] → x = 1) ∧ (i = .rewind → x = 3) ∧
    (i ∉ [Instr.count, .rdmagic, .rdtree, .rewind, .encode, .decode, .compress, .decompress] → x = 2) ∧
    (i ∈ [Instr.encode, .decode, .decompress] → x = 1 ∨ x = 2) := by
  cases i with
  | streamHeaderLeaf v | streamBodyCode bits | streamBodyPseudoEof bits | streamWord w => simp [portSubs]
  | _ => decide

/-- Settles O18: the call answered `IOERR` is where the instruction ends, and a draw of it used up is the one it ended
with. -/
theorem failingPortsRaiseIoError : Obligations.FailingPortsRaiseIoError := by
  intro s i ds hs hf
  refine ⟨fun cs k c cur hcalls hc hds => ?_, fun pre t hpre hds hx hlen => ?_⟩
  · obtain ⟨t, hx, hfailed, hdraws, hcur, hstreams⟩ := (exec_endsAt hs hc (.inr ⟨rfl, hf⟩) hds hcalls).ioErr
    refine ⟨t, hx, hfailed, hdraws, hcur, by cases c <;> exact hstreams, fun hi => ?_, fun hi => ?_⟩ <;> subst hi
    · exact execCount_ioErr_counts hs hf hcalls hc hds hx
    · exact execRdtree_error hs hx hfailed.1
  · obtain h | ⟨hdraws, -, ⟨hd, -⟩ | ⟨-, c, hport, hfailed⟩⟩ :=
      exec_reached hs ⟨.inr ⟨rfl, hf⟩, rfl, pre, hpre, hds⟩ hx
    · exact absurd hlen (Nat.not_le.mpr h.length_lt)
    · cases hd
    · exact ⟨c, hfailed, hdraws, portSubs_cases i _ hport⟩

end Sys2Proof.Machine
end

section
/-! PROOFS. Reset and hazards: no step stops, what a call that is never answered leaves, what `BUSY` ignores, and the
call in flight at reset (R211, R216, R222, R225, R228). -/

namespace Sys2Proof.Machine

/-! ## Pseudocodes that end in no fault -/

/-- Below `NNODES` there is a record (R23). -/
theorem nodeAt_of_lt {s : State} {k : NodeIx} (hcap : s.nnodes.toNat ≤ Config.nodeCap) (hk : k < s.nnodes) :
    ∃ n, nodeAt s k = some n :=
  ⟨_, nodeAt_eq_some.mpr ⟨hk, Vector.getElem?_eq_getElem ((BitVec.lt_def.mp hk).trans_le hcap)⟩⟩

/-- GENCODES walks a valid tree to its end: every leaf bears a symbol (R120). -/
theorem gencodesBody_sound {s : State} (h : TreeInv s) : (gencodesBody s).Sound := by
  obtain ⟨T, hT⟩ := tree_of_inv h
  obtain ⟨code, hwalk, -⟩ := walk_codeOf hT (treeAt_symbols h hT)
  rw [gencodesBody, hwalk]
  trivial

/-- WRTREE writes a valid tree to its end (R132). -/
theorem wrtreeBody_sound {s : State} (h : TreeInv s) : (wrtreeBody s).Sound := by
  obtain ⟨T, hT⟩ := tree_of_inv h
  exact putTree_sound hT

theorem rewindBody_sound (s : State) : (rewindBody s).Sound := by
  obtain ⟨ds, h | h | ⟨-, h⟩⟩ := takeDraw_cases s <;> simp only [rewindBody, srcRewind, h] <;> trivial

theorem rdmagicBody_sound (s : State) : (rdmagicBody s).Sound := by
  refine readField_sound (fun _ _ => trivial) fun m t _ => ?_
  split <;> trivial

/-- The root RDTREE has read is a record of the tree it made (R138, R140). -/
theorem rdtreeBody_sound (s : State) : (rdtreeBody s).Sound := by
  obtain ⟨hends, hok⟩ := getTree_ends (Config.nodeCap + 1) 0 (rdtreeStart s) (by omega) (by simp)
  refine sound_andThen (getTree_sound _ _ _) fun ⟨k, seen⟩ t e => ?_
  obtain ⟨T, -, -, hcount, hroot, -, -⟩ := hok k seen t e
  rw [e] at hends
  obtain ⟨-, -, hcap⟩ := hends
  have hk : k < t.nnodes := by
    have := T.size_pos
    rw [BitVec.lt_def, hcount, hroot, Tree.rootAt]
    omega
  obtain ⟨n, hn⟩ := nodeAt_of_lt hcap hk
  simp only [hn]
  split <;> trivial

/-- DECODE follows a valid tree from its root, an internal node (R160, R161). -/
theorem decodeBody_sound {s : State} (h : TreeInv s) : (decodeBody s).Sound := by
  obtain ⟨n, hroot, hinternal⟩ := h.rootInternal
  have hstart : TreeInv (s.withCur s.root) := treeInv_congr (s := s) rfl rfl rfl h
  exact decodeLoop_sound _ hstart ((nodeAt_congr (s := s) rfl rfl s.root).trans hroot) hinternal

/-! ## No step stops -/

/-- A command whose pseudocode ends in no fault answers a next state, accepted or not (R170). -/
theorem runCommand_next {op : BitVec 4} {p : Bool} {body : State → Res Unit} {s : State}
    (hb : p = true → (body (s.withSeq .busy false)).Sound) : ∃ t, runCommand op p body s = .next t := by
  by_cases hs : s.seq = .idle
  · cases p with
    | false => exact ⟨_, runCommand_refused hs⟩
    | true =>
      rw [runCommand_idle hs]
      cases hr : body (s.withSeq .busy false) with
      | ok a t | raised e t | waits c t => exact ⟨_, rfl⟩
      | broken f => exact (hr ▸ hb rfl).elim
  · exact ⟨s, runCommand_ignored hs⟩

/-- So does a transfer (log entry 7). -/
theorem runTransfer_next {body : State → Res Unit} {s : State} (hb : (body s).Sound) :
    ∃ t, runTransfer body s = .next t := by
  by_cases hs : s.seq = .idle
  · simp only [runTransfer, hs]
    cases hr : body s with
    | ok a t | raised e t | waits c t => exact ⟨_, rfl⟩
    | broken f => exact (hr ▸ hb).elim
  · exact ⟨s, runTransfer_ignored hs⟩

/-- Every single instruction answers a next state: those that follow the tree run on a valid one alone. -/
theorem exec_single_next {i : Instr} {s : State} (hi : i ∉ sequences) (hs : Inv s) : ∃ t, exec i s = .next t := by
  have htree : s.treeValid = true → TreeInv (s.withSeq .busy false) := fun hv =>
    treeInv_congr (s := s) rfl rfl rfl (hs.tree hv)
  cases i with
  | count => exact runCommand_next fun _ => countLoop_sound _ _
  | build => exact runCommand_next fun _ => by rw [buildBody_eq]; trivial
  | gencodes => exact runCommand_next fun hv => gencodesBody_sound (htree hv)
  | wrmagic => exact runCommand_next fun _ => put_sound _ _
  | wrtree => exact runCommand_next fun hv => wrtreeBody_sound (htree hv)
  | rewind => exact runCommand_next fun _ => rewindBody_sound _
  | encode => exact runCommand_next fun _ => encodeLoop_sound _ _
  | rdmagic => exact runCommand_next fun _ => rdmagicBody_sound _
  | rdtree => exact runCommand_next fun _ => rdtreeBody_sound _
  | decode => exact runCommand_next fun hv => decodeBody_sound (htree hv)
  | clear =>
    by_cases hb : s.seq = .busy
    · exact ⟨_, execClear_busy hb⟩
    · exact ⟨_, execClear_accepted hb⟩
  | illegal0 | illegal12 | illegal13 | illegal14 | illegal15 =>
    obtain ⟨t, h⟩ := runTransfer_next (body := illegalBody _) (s := s) trivial
    exact ⟨t, (runIllegal_eq _ s).trans h⟩
  | compress | decompress => simp [sequences] at hi
  | streamMagic | streamHeaderInternal | streamWord w => exact runTransfer_next (put_sound _ s)
  | streamHeaderLeaf v =>
    rw [exec, execStreamHeaderLeaf]
    refine runTransfer_next ?_
    split
    · exact sound_andThen (put_sound _ s) fun _ t _ => put_sound v t
    · trivial
  | streamBodyCode bits | streamBodyPseudoEof bits => exact runTransfer_next (putBits_sound bits s)

/-- An outcome after which the machine goes on: a next state, which meets the invariants. -/
def Continues (r : Host.Outcome State Fault Refusal) : Prop := ∃ t, r = .next t ∧ Inv t

theorem Continues.thenRun {r : Host.Outcome State Fault Refusal} {f : State → Host.Outcome State Fault Refusal}
    (hr : Continues r) (hf : ∀ u, Inv u → Continues (f u)) : Continues (thenRun r f) := by
  obtain ⟨u, rfl, hu⟩ := hr
  exact hf u hu

/-- After every instruction the machine goes on: in a sequence each command meets the invariants the one before it
left (R85). -/
theorem exec_continues (i : Instr) {s : State} (hs : Inv s) : Continues (exec i s) := by
  have single (j : Instr) (hj : j ∉ sequences) (u : State) (hu : Inv u) : Continues (exec j u) := by
    obtain ⟨t, h⟩ := exec_single_next hj hu
    exact ⟨t, h, exec_single_inv hj h hu⟩
  by_cases hi : i ∈ sequences
  · obtain rfl | hi := List.mem_cons.mp hi
    · exact ((((((single .count (by decide) s hs).thenRun (single .build (by decide))).thenRun
        (single .gencodes (by decide))).thenRun (single .wrmagic (by decide))).thenRun
        (single .wrtree (by decide))).thenRun (single .rewind (by decide))).thenRun (single .encode (by decide))
    · obtain rfl := List.mem_singleton.mp hi
      exact ((single .rdmagic (by decide) s hs).thenRun (single .rdtree (by decide))).thenRun
        (single .decode (by decide))
  · exact single i hi s hs

/-- Settles O57: an event but an instruction is done at once, and an instruction answers a next state. -/
theorem stepNeverStops : Obligations.StepNeverStops := by
  intro s hs
  have hrun (i : Instr) (es : List HostEvent) : ∃ t, exec i (s.withHost es) = .next t := by
    obtain ⟨t, h, -⟩ := exec_continues i (inv_of_moves hs ((withHost_moves es s).mono fun _ => rfl))
    exact ⟨t, h⟩
  match hh : s.host with
  | [] => exact ⟨_, step_waits hh⟩
  | .read num :: es => exact ⟨_, step_read hh⟩
  | .write num data :: es =>
    by_cases hn : num = 0
    · subst hn
      rw [step_command hh]
      exact hrun _ es
    · exact ⟨_, step_write hh hn⟩
  | .line i :: es =>
    rw [step_line hh]
    exact hrun i es
  | .reset :: es => exact ⟨_, step_reset hh⟩
  | .attach bits :: es => exact ⟨_, step_attach hh⟩

/-! ## A call that is never answered -/

/-- An instruction one of whose calls is never answered waits on it, in `BUSY`: the draws left, `CUR` and the streams
(R216, R225). -/
theorem EndsAt.silent {ds : List Draw} {c : PortCall} {cur : NodeIx} {s : State} {cs : List Call}
    {r : Host.Outcome State Fault Refusal} (h : EndsAt .silent ds c cur s cs r) :
    ∃ t, r = .next t ∧ t.seq = .busy ∧ t.done = false ∧ t.inFlight = some c ∧ t.draws = ds ∧ t.cur = cur ∧
      t.srcBits = s.srcBits ∧ t.srcPos = s.posAfter cs ∧ t.snkBits = s.snkBits ++ bitsSent cs := by
  obtain ⟨u, rfl, hdraws, hcur, hafter⟩ := h
  obtain ⟨hsrc, -, hseq, hdone⟩ := fixed_eq hafter.same
  exact ⟨_, rfl, hseq, hdone, rfl, hdraws, hcur, hsrc, hafter.pos, hafter.sink⟩

/-- Settles O19: the call never answered is where the instruction ends, and such a draw used up is the one it ended
with. -/
theorem unansweredPortsKeepTheEngineBusy : Obligations.UnansweredPortsKeepTheEngineBusy := by
  intro s i ds hs
  refine ⟨fun cs k c cur hcalls hc hds => (exec_endsAt hs hc (.inl rfl) hds hcalls).silent,
    fun pre t hpre hds hx hlen => ?_⟩
  obtain h | ⟨hdraws, hdone, ⟨-, hseq, hfl⟩ | ⟨hd, -⟩⟩ := exec_reached hs ⟨.inl rfl, rfl, pre, hpre, hds⟩ hx
  · exact absurd hlen (Nat.not_le.mpr h.length_lt)
  · exact ⟨hseq, hdone, hfl, hdraws⟩
  · cases hd

/-! ## Reset with a call in flight -/

/-- Reset either leaves the streams, or lets the call in flight take effect (R211; log entry 10). -/
theorem settleInFlight_cases (s : State) :
    (∃ n, settleInFlight s = s.withFree n) ∨
    ∃ c n, s.inFlight = some c ∧ settleInFlight s = (callEffect c s).withFree n := by
  unfold settleInFlight
  split
  · exact .inl ⟨s.freeIx, rfl⟩
  · split
    · exact .inr ⟨_, _, ‹_›, rfl⟩
    · exact .inl ⟨_, rfl⟩

/-- A read answered moves the source past the bits read, or to its end (R53). -/
theorem srcAfterRead_streams (n : Nat) (s : State) :
    (srcAfterRead n s).snkBits = s.snkBits ∧
    (srcAfterRead n s).srcPos = if s.srcPos + n ≤ s.srcBits.length then s.srcPos + n else s.srcBits.length := by
  unfold srcAfterRead
  split <;> exact ⟨rfl, rfl⟩

/-- Settles O8: the call in flight had no effect, or that of its kind, and what reset does besides leaves the
streams. -/
theorem resetSettlesTheCallInFlight : Obligations.ResetSettlesTheCallInFlight := by
  intro s es h
  refine ⟨_, step_reset h, ?_⟩
  rw [engineReset]
  obtain ⟨n, e⟩ | ⟨c, n, hc, e⟩ := settleInFlight_cases (s.withHost es) <;> rw [e]
  · exact .inl ⟨rfl, rfl⟩
  · cases c with
    | read n =>
      obtain ⟨hsnk, hpos⟩ := srcAfterRead_streams n (s.withHost es)
      exact .inr (.inl ⟨n, hc, hsnk, hpos⟩)
    | rewind => exact .inr (.inr (.inl ⟨hc, rfl, rfl⟩))
    | write bits => exact .inr (.inr (.inr ⟨bits, hc, rfl, rfl⟩))

/-! ## What `BUSY` ignores -/

/-- In `BUSY` every instruction is ignored, CLEAR too (R170, R222). -/
theorem exec_busy (i : Instr) {s : State} (hs : s.seq = .busy) : exec i s = .next s := by
  by_cases hi : i = .clear
  · subst hi
    exact execClear_busy hs
  · exact exec_ignored (by rw [hs]; decide) hi

/-- In `BUSY` neither `TSEL` nor a table word can be written (R43, R222). -/
theorem csrWrite_busy (num : BitVec 4) (data : Word) {s : State} (hs : s.seq = .busy) : csrWrite num data s = s := by
  by_cases h7 : num = 7
  · rw [h7, csrWrite_seven, if_pos hs]
  by_cases h8 : num = 8
  · rw [h8, csrWrite_eight, if_neg (by simp [hs])]
  · exact csrWrite_of_ignored data s h7 h8

/-- Settles O13: a write of number 0 presents an instruction, any other is a CSR write, and `BUSY` ignores both. -/
theorem busyIgnoresCommandsAndTableWrites : Obligations.BusyIgnoresCommandsAndTableWrites := by
  refine fun s hs => ⟨fun i => exec_busy i hs, fun num data es h => ?_⟩
  by_cases hn : num = 0
  · subst hn
    exact (step_command h).trans (exec_busy _ hs)
  · exact (step_write h hn).trans (congrArg _ (csrWrite_busy num data hs))

end Sys2Proof.Machine
end
